-- ==== Sys2Proof/Word.lean ====
section
/-! DEFINITION. The word types of the PFE: samples, registers, kernel weights, luminance sums. -/
namespace Sys2Proof

/-- One channel sample, an unsigned 8-bit value (00_scope R3, SAMPLE_BITS). -/
abbrev Byte := BitVec 8

/-- One register (00_scope R3, REG_BITS; 10_state R14). -/
abbrev Word := BitVec 32

/-- One kernel weight or sigma, an IEEE 754 binary64 word (00_scope R3, WFMT; 10_state R26, R27). -/
abbrev DWord := BitVec 64

/-- One LUMA entry, an integer 0 to 765 held in 10 bits (10_state R28, 20_memory R40). -/
abbrev LumaWord := BitVec 10

end Sys2Proof
end

