-- ==== Sys2Proof/Syntax.lean ====
section
/-! DEFINITION. The commands of the PFE and their encoded form: the launch word and the six descriptor words. -/
namespace Sys2Proof

/-- A command with the operands it reads (30_encoding R70, R73). IDENTITY, BOX, SHARPEN, EDGE, GRAY and UNKNOWN read
the dimensions, GAUSSIAN the dimensions, the kernel size and sigma, GENK the kernel size and sigma. UNKNOWN keeps the
selector it was launched with; the 30 rows of the opcode table named UNKNOWN partition its values (R80). -/
inductive Instr where
  /-- Selector 0: copy the buffer (46_dispatcher R176). -/
  | identity (width height : Word)
  /-- Selector 1: generate a Gaussian kernel, then convolve (46_dispatcher R177). -/
  | gaussian (width height ksize : Word) (sigma : DWord)
  /-- Selector 2: 5 by 5 box blur (43_fixed_kernel_filters R132). -/
  | box (width height : Word)
  /-- Selector 3: 3 by 3 sharpen (43_fixed_kernel_filters R134). -/
  | sharpen (width height : Word)
  /-- Selector 4: Sobel edge magnitude (44_edge_detector R140). -/
  | edge (width height : Word)
  /-- Selector 5: luminance average (45_grayscale R160). -/
  | gray (width height : Word)
  /-- Every selector from 6 up (46_dispatcher R178). -/
  | unknown (fsel width height : Word)
  /-- Generate a Gaussian kernel into COEF (41_kernel_generator R90). -/
  | genk (ksize : Word) (sigma : DWord)
  /-- A CTRL write that launches nothing (30_encoding R74, R75). -/
  | nolaunch
  deriving DecidableEq, Repr

/-- The seven 32-bit words of a command's encoding: the launch word written to CTRL and the six parameter registers
at that write (30_encoding R71). -/
structure CommandWords where
  launch : Word
  fsel : Word
  width : Word
  height : Word
  ksize : Word
  sigmaLo : Word
  sigmaHi : Word
  deriving DecidableEq, Repr

/-- Why a list of bytes is not the encoding of a command: only its length can be wrong (30_encoding R74, R75). -/
inductive DecodeError where
  /-- Not seven 32-bit words (30_encoding R71: a command has one length). -/
  | notSevenWords (bytes : Nat)
  deriving DecidableEq, Repr

end Sys2Proof
end

