-- ==== Sys2Proof/WellFormed.lean ====
section
/-! DEFINITION. Which terms of `Instr` are commands of the PFE. -/
namespace Sys2Proof

/-- Every operand value is legal (10_state R17 to R21); the one condition is that UNKNOWN carries a selector that is
not one of the six named ones (30_encoding R72). -/
def Instr.wellFormed (i : Instr) : Bool :=
  match i with
  | .identity _ _ => true
  | .gaussian _ _ _ _ => true
  | .box _ _ => true
  | .sharpen _ _ => true
  | .edge _ _ => true
  | .gray _ _ => true
  | .unknown fsel _ _ => decide (6 ≤ fsel.toNat)
  | .genk _ _ => true
  | .nolaunch => true

end Sys2Proof
end

