-- ==== Sys2Proof/Decode.lean ====
section
/-! DEFINITION. Decoding a command from its seven words and from bytes, and encoding it. -/
namespace Sys2Proof

/-- `SIGMA_HI ++ SIGMA_LO` (10_state R20, R21). -/
def sigmaWord (hi lo : Word) : DWord := hi ++ lo

/-- SIGMA_LO, bits 31 to 0 of sigma (10_state R21). -/
def sigmaLow (sigma : DWord) : Word := sigma.extractLsb' 0 32

/-- SIGMA_HI, bits 63 to 32 of sigma (10_state R21). -/
def sigmaHigh (sigma : DWord) : Word := sigma.extractLsb' 32 32

/-- The command of a filter launch: all 32 bits of the selector are compared, and every selector from 6 up is UNKNOWN
(30_encoding R72, R73). -/
def decodeFilter (c : CommandWords) : Instr :=
  if c.fsel = 0 then .identity c.width c.height
  else if c.fsel = 1 then .gaussian c.width c.height c.ksize (sigmaWord c.sigmaHi c.sigmaLo)
  else if c.fsel = 2 then .box c.width c.height
  else if c.fsel = 3 then .sharpen c.width c.height
  else if c.fsel = 4 then .edge c.width c.height
  else if c.fsel = 5 then .gray c.width c.height
  else .unknown c.fsel c.width c.height

/-- Decoding is total: bit 0 of the launch word is START and wins, bit 1 is GENK, and with neither nothing is
launched; bits 31:2 are ignored (10_state R15, 30_encoding R74). -/
def decode (c : CommandWords) : Instr :=
  if c.launch.getLsbD 0 then decodeFilter c
  else if c.launch.getLsbD 1 then .genk c.ksize (sigmaWord c.sigmaHi c.sigmaLo)
  else .nolaunch

/-- A 32-bit word from its four bytes, the lowest address first (20_memory R46: little-endian). -/
def wordOfBytes (b0 b1 b2 b3 : Byte) : Word := b3 ++ b2 ++ b1 ++ b0

/-- The words of a list of bytes, four bytes each; a last incomplete word is left out. -/
def wordsOfBytes : List Byte → List Word
  | b0 :: b1 :: b2 :: b3 :: r => wordOfBytes b0 b1 b2 b3 :: wordsOfBytes r
  | _ => []

/-- Decode a list of bytes: exactly seven little-endian words in the order of 30_encoding R71 (log entry 13). -/
def decodeBytes (bs : List Byte) : Except DecodeError Instr :=
  if bs.length = 28 then
    match wordsOfBytes bs with
    | [launch, fsel, width, height, ksize, sigmaLo, sigmaHi] =>
      .ok (decode ⟨launch, fsel, width, height, ksize, sigmaLo, sigmaHi⟩)
    | _ => .error (.notSevenWords bs.length)
  else .error (.notSevenWords bs.length)

/-- The launch word of a filter command (30_encoding R77: START). -/
def startWord : Word := 0x00000001#32
/-- The launch word of a generate command (30_encoding R77: GENK). -/
def genkWord : Word := 0x00000002#32

/-- The words of a filter command that reads neither KSIZE nor SIGMA; the words it does not read are 0. -/
def filterWords (fsel width height : Word) : CommandWords :=
  ⟨startWord, fsel, width, height, 0, 0, 0⟩

/-- The seven words of a command (30_encoding R71 to R73); words it does not read are 0 (log entry 13). -/
def encode (i : Instr) : CommandWords :=
  match i with
  | .identity w h => filterWords 0 w h
  | .gaussian w h k s => ⟨startWord, 1, w, h, k, sigmaLow s, sigmaHigh s⟩
  | .box w h => filterWords 2 w h
  | .sharpen w h => filterWords 3 w h
  | .edge w h => filterWords 4 w h
  | .gray w h => filterWords 5 w h
  | .unknown f w h => filterWords f w h
  | .genk k s => ⟨genkWord, 0, 0, 0, k, sigmaLow s, sigmaHigh s⟩
  | .nolaunch => ⟨0, 0, 0, 0, 0, 0, 0⟩

/-- The four bytes of a word, the lowest address first (20_memory R46). -/
def bytesOfWord (w : Word) : List Byte :=
  [w.extractLsb' 0 8, w.extractLsb' 8 8, w.extractLsb' 16 8, w.extractLsb' 24 8]

/-- The 28 bytes of a command's words in the order of 30_encoding R71. -/
def bytesOfWords (c : CommandWords) : List Byte :=
  bytesOfWord c.launch ++ bytesOfWord c.fsel ++ bytesOfWord c.width ++ bytesOfWord c.height ++
    bytesOfWord c.ksize ++ bytesOfWord c.sigmaLo ++ bytesOfWord c.sigmaHi

/-- The words of an opcode-table pattern: bits 31:0 are the launch word and bits 63:32 are FSEL (30_encoding R80);
bits from `nbits` up are 0, and so are the five operand words, to which the table gives no bits (log entry 13). -/
def tableWords (nbits w : Nat) : CommandWords :=
  ⟨BitVec.ofNat 32 (w % 2 ^ nbits), BitVec.ofNat 32 (w % 2 ^ nbits / 2 ^ 32), 0, 0, 0, 0, 0⟩

/-- What the decoder reads from an instruction of the opcode table, given as its number; a pattern has at most 64 bits
(30_encoding R80). -/
def decodeTableWord (nbits w : Nat) : Option Instr :=
  if nbits ≤ 64 then
    match decodeBytes (bytesOfWords (tableWords nbits w)) with
    | .ok i => some i
    | .error _ => none
  else none

/-- One row of the opcode table: a pattern matches it when `pattern and mask = match` (30_encoding R80). -/
structure OpcodeRow where
  mnemonic : String
  pattern : Nat
  mask : Nat
  deriving DecidableEq, Repr

/-- A filter command's row: START in the launch word, and the selector's match and mask (30_encoding R80). -/
def filterRow (mnemonic : String) (fselMatch fselMask : Nat) : OpcodeRow :=
  ⟨mnemonic, fselMatch * 2 ^ 32 + 1, fselMask * 2 ^ 32 + 1⟩

/-- The 38 rows: the selectors 0 to 5; UNKNOWN as 6 and 7, and for each `k` from 3 to 31 the selectors whose highest
set bit is bit `k`; GENK; NOLAUNCH (30_encoding R80). -/
def opcodeRows : List OpcodeRow :=
  [filterRow "IDENTITY" 0 0xFFFFFFFF, filterRow "GAUSSIAN" 1 0xFFFFFFFF, filterRow "BOX" 2 0xFFFFFFFF,
   filterRow "SHARPEN" 3 0xFFFFFFFF, filterRow "EDGE" 4 0xFFFFFFFF, filterRow "GRAY" 5 0xFFFFFFFF,
   filterRow "UNKNOWN" 6 0xFFFFFFFE] ++
  (List.range 29).map (fun j => filterRow "UNKNOWN" (2 ^ (j + 3)) (2 ^ 32 - 2 ^ (j + 3))) ++
  [⟨"GENK", 2, 3⟩, ⟨"NOLAUNCH", 0, 3⟩]

/-- `pattern and mask = match`. -/
def OpcodeRow.covers (r : OpcodeRow) (w : Nat) : Bool := w &&& r.mask == r.pattern

/-- The mnemonic of a command in the opcode table. -/
def Instr.mnemonic (i : Instr) : String :=
  match i with
  | .identity _ _ => "IDENTITY"
  | .gaussian _ _ _ _ => "GAUSSIAN"
  | .box _ _ => "BOX"
  | .sharpen _ _ => "SHARPEN"
  | .edge _ _ => "EDGE"
  | .gray _ _ => "GRAY"
  | .unknown _ _ _ => "UNKNOWN"
  | .genk _ _ => "GENK"
  | .nolaunch => "NOLAUNCH"

end Sys2Proof
end

