-- ==== Sys2Proof/Machine/Binary64.lean ====
section
/-! DEFINITION. IEEE 754 binary64 words: their fields, their rational value (10_state R27), rounding of a rational
to a word (00_scope R6, `fl64`), and the validity of a sigma word (60_exceptions R192). -/
namespace Sys2Proof.Machine

/-- The sign bit `b[63]` (10_state R27). -/
def signBit (b : DWord) : Bool := b.getLsbD 63

/-- The biased exponent `b[62:52]` (10_state R27). -/
def biasedExp (b : DWord) : Nat := (b.extractLsb' 52 11).toNat

/-- The fraction `b[51:0]` (10_state R27). -/
def fraction (b : DWord) : Nat := (b.extractLsb' 0 52).toNat

/-- Neither an infinity nor a NaN (10_state R27). -/
def isFinite64 (b : DWord) : Bool := biasedExp b != 0x7FF

/-- The rational `m * 2^e`. -/
def scaleTwo (m : Nat) (e : Int) : ℚ :=
  match e with
  | .ofNat n => ((m * 2 ^ n : Nat) : ℚ)
  | .negSucc n => mkRat m (2 ^ (n + 1))

/-- The magnitude of a finite word: `2^(e-1075) * (2^52 + f)` when normal, `2^(-1074) * f` when the
biased exponent is 0 (10_state R27). -/
def magnitude64 (b : DWord) : ℚ :=
  if biasedExp b = 0 then scaleTwo (fraction b) (-1074)
  else scaleTwo (2 ^ 52 + fraction b) ((biasedExp b : Int) - 1075)

/-- `val64(b)`, the rational value of a word; infinities and NaNs have none (10_state R27). -/
def val64 (b : DWord) : Option ℚ :=
  if isFinite64 b then some (if signBit b then -magnitude64 b else magnitude64 b) else none

/-- `sigma_valid(b)`: finite, sign 0, non-zero (60_exceptions R192, 41_kernel_generator R90). -/
def sigmaValid (b : DWord) : Bool :=
  !signBit b && isFinite64 b && b.extractLsb' 0 63 != 0

/-- The integer part of `q` (00_scope R6, `floor`). -/
def floorQ (q : ℚ) : Int := q.floor

/-- `rne(q)`: the nearest integer, ties to the even one (42_convolution_engine R117). -/
def rne (q : ℚ) : Int :=
  let f := floorQ q
  let r := q - f
  if r < 1 / 2 then f
  else if 1 / 2 < r then f + 1
  else if f % 2 = 0 then f else f + 1

/-- `floor(log2 q)` for `q > 0`. -/
def log2Q (q : ℚ) : Int :=
  let k : Int := (q.num.toNat.log2 : Int) - (q.den.log2 : Int)
  if scaleTwo 1 k ≤ q then k else k - 1

/-- The word of the magnitude nearest `q ≥ 0`, ties to the even significand, overflow to infinity (log entry 21)
(00_scope R6, `fl64`; 93 G5). The significand `m` counts units of `2^u`; a carry out of it runs into the exponent. -/
def fl64Magnitude (q : ℚ) : Nat :=
  if q ≤ 0 then 0
  else
    let u : Int := max (log2Q q - 52) (-1074)
    let m : Nat := (rne (q * scaleTwo 1 (-u))).toNat
    let w : Nat := if m < 2 ^ 52 then m else (u + 1075).toNat * 2 ^ 52 + (m - 2 ^ 52)
    min w (0x7FF * 2 ^ 52)

/-- `fl64(q)`: the binary64 word nearest `q` (00_scope R6; 93 G5). R6 names the nearest value and no word where two zeros
have it: here 0 itself is +0, a positive `q` that rounds to zero is +0, and a negative `q` that rounds to zero is -0, the
sign that IEEE 754 keeps. Nor does R6 speak of a `q` beyond the finite range: here it is the infinity of its sign, from half
a unit above the largest finite value on (DESIGN CHOICE, log entry 21). -/
def fl64 (q : ℚ) : DWord :=
  if q < 0 then BitVec.ofNat 64 (2 ^ 63 + fl64Magnitude (-q)) else BitVec.ofNat 64 (fl64Magnitude q)

end Sys2Proof.Machine
end

