-- ==== Sys2Proof/Machine/KernelContract.lean ====
section
/-! DEFINITION. The contract that the Kernel Generator's function GaussKernel is held to (41_kernel_generator R91 to
R98). The model assumes of GaussKernel the contract and nothing else (R92). Machine/KernelWitness.lean has a function
that meets it: the contract can be met, so a constant whose type carries it exists. -/
namespace Sys2Proof.Machine

/-- `d² = (x-mean)² + (y-mean)²` with `mean = floor(size/2)` (41_kernel_generator R91). -/
def dist2 (size x y : Nat) : Nat :=
  (((x : Int) - (size / 2 : Nat)) ^ 2 + ((y : Int) - (size / 2 : Nat)) ^ 2).toNat

/-- `ω` is the ideal weight of the cell `(x,y)`: the Gaussian value over the sum of all values, over the reals
(41_kernel_generator R91). -/
def IsIdealWeight (size : Nat) (σ : ℝ) (x y : Nat) (ω : ℝ) : Prop :=
  let value : Nat → Nat → ℝ := fun x y => Real.exp (-(dist2 size x y : ℝ) / (2 * σ ^ 2)) / (2 * Real.pi * σ ^ 2)
  ω = value x y / ∑ y ∈ Finset.range size, ∑ x ∈ Finset.range size, value x y

/-- What the machine may assume of a kernel `w` (the word at index `y*size + x` belongs to the cell `(x,y)`) of an
odd size and a valid sigma: R93 accuracy, R94 sign, R95 radial symmetry, R96 monotone falloff, R98 size 1
(41_kernel_generator). R97 follows from R91 and R93. -/
structure KernelContract (size : Nat) (sigma : DWord) (w : Nat → DWord) : Prop where
  /-- R93: every word is finite and within `EPS_G = 2^-40` of the ideal weight. -/
  accurate : ∀ x y, x < size → y < size → ∀ σ : ℚ, val64 sigma = some σ → ∀ ω : ℝ, IsIdealWeight size σ x y ω →
    ∃ q : ℚ, val64 (w (y * size + x)) = some q ∧ |(q : ℝ) - ω| ≤ 1 / 2 ^ 40
  /-- R94: the sign bit of every word is 0. -/
  nonneg : ∀ i, i < size * size → signBit (w i) = false
  /-- R95: cells at equal distance hold the identical word. -/
  radial : ∀ x y x' y', x < size → y < size → x' < size → y' < size →
    dist2 size x y = dist2 size x' y' → w (y * size + x) = w (y' * size + x')
  /-- R96: a nearer cell's weight is not exceeded by a farther one's. -/
  monotone : ∀ x y x' y', x < size → y < size → x' < size → y' < size → dist2 size x y < dist2 size x' y' →
    ∀ q q' : ℚ, val64 (w (y * size + x)) = some q → val64 (w (y' * size + x')) = some q' → q' ≤ q
  /-- R98: the one weight of size 1 is exactly 1.0. -/
  sizeOne : size = 1 → w 0 = 0x3FF0000000000000#64

end Sys2Proof.Machine
end

