-- ==== Sys2Proof/Machine/KernelWitness.lean ====
section
/-! DEFINITION. A kernel function that meets the contract of 41_kernel_generator R93 to R98, so that the type of the
opaque constant `Config.gaussKernel` is inhabited. Nothing in the machine evaluates it: it is only the proof that the
contract can be met, for every odd size and every valid sigma. It bounds `exp(-t)` between `(1-t/n)^n` and
`1/(1+t/n)^n`, searches for an `n` that pins every weight down, and rounds down to multiples of `2^-50`. -/
namespace Sys2Proof.Machine

/-- The word of `m / 2^50`, for `m ≤ 2^50`. -/
def gridWord (m : Nat) : DWord :=
  if m = 0 then 0#64
  else BitVec.ofNat 64 ((m.log2 + 973) * 2 ^ 52 + (m - 2 ^ m.log2) * 2 ^ (52 - m.log2))

theorem toNat_gridWord {m : Nat} (h0 : m ≠ 0) (h : m ≤ 2 ^ 50) :
    (gridWord m).toNat = (m.log2 + 973) * 2 ^ 52 + (m - 2 ^ m.log2) * 2 ^ (52 - m.log2) ∧
      m.log2 ≤ 50 ∧ (m - 2 ^ m.log2) * 2 ^ (52 - m.log2) < 2 ^ 52 ∧ 2 ^ m.log2 ≤ m := by
  have hk : m.log2 ≤ 50 := by
    have : m.log2 < 51 := (Nat.log2_lt h0).2 (by omega)
    omega
  have hle : 2 ^ m.log2 ≤ m := Nat.log2_self_le h0
  have hlt : m < 2 ^ (m.log2 + 1) := Nat.lt_log2_self
  have hf : (m - 2 ^ m.log2) * 2 ^ (52 - m.log2) < 2 ^ 52 := by
    have h1 : m - 2 ^ m.log2 < 2 ^ m.log2 := by rw [pow_succ] at hlt; omega
    calc (m - 2 ^ m.log2) * 2 ^ (52 - m.log2) < 2 ^ m.log2 * 2 ^ (52 - m.log2) :=
          Nat.mul_lt_mul_of_pos_right h1 (by positivity)
      _ = 2 ^ 52 := by rw [← pow_add]; congr 1; omega
  refine ⟨?_, hk, hf, hle⟩
  unfold gridWord
  rw [if_neg h0, BitVec.toNat_ofNat, Nat.mod_eq_of_lt]
  omega

theorem biasedExp_toNat (b : DWord) : biasedExp b = b.toNat / 2 ^ 52 % 2 ^ 11 := by
  simp [biasedExp, BitVec.extractLsb'_toNat, Nat.shiftRight_eq_div_pow]

theorem fraction_toNat (b : DWord) : fraction b = b.toNat % 2 ^ 52 := by
  simp [fraction, BitVec.extractLsb'_toNat]

theorem signBit_toNat (b : DWord) : signBit b = decide (2 ^ 63 ≤ b.toNat) := by
  have : signBit b = b.msb := by simp [signBit, BitVec.msb_eq_getLsbD_last]
  rw [this, BitVec.msb_eq_decide]

theorem scaleTwo_eq (m : Nat) (e : Int) : scaleTwo m e = (m : ℚ) * (2 : ℚ) ^ e := by
  cases e with
  | ofNat n => simp [scaleTwo]
  | negSucc n =>
    simp only [scaleTwo, zpow_negSucc, Rat.mkRat_eq_div]
    push_cast; ring

theorem scale_cancel (m a b : ℕ) :
    ((m * 2 ^ a : ℕ) : ℚ) * (2 : ℚ) ^ (-(a : ℤ) - (b : ℤ)) = (m : ℚ) / 2 ^ b := by
  rw [zpow_sub₀ (by norm_num), zpow_neg, zpow_natCast, zpow_natCast]
  push_cast
  field_simp

theorem val64_gridWord {m : Nat} (h : m ≤ 2 ^ 50) :
    val64 (gridWord m) = some ((m : ℚ) / 2 ^ 50) ∧ signBit (gridWord m) = false := by
  by_cases h0 : m = 0
  · subst h0; decide +kernel
  obtain ⟨hn, hk, hf, hle⟩ := toNat_gridWord h0 h
  generalize hkk : m.log2 = k at *
  generalize hff : (m - 2 ^ k) * 2 ^ (52 - k) = f at *
  have he : biasedExp (gridWord m) = k + 973 := by rw [biasedExp_toNat, hn]; omega
  have hfr : fraction (gridWord m) = f := by rw [fraction_toNat, hn]; omega
  have hs : signBit (gridWord m) = false := by rw [signBit_toNat, hn]; simp; omega
  refine ⟨?_, hs⟩
  have hfin : isFinite64 (gridWord m) = true := by simp [isFinite64, he]; omega
  have hsum : 2 ^ 52 + f = m * 2 ^ (52 - k) := by
    have : 2 ^ 52 = 2 ^ k * 2 ^ (52 - k) := by rw [← pow_add]; congr 1; omega
    rw [← hff, this, ← Nat.add_mul, Nat.add_sub_cancel' hle]
  have he0 : ¬ (k + 973 = 0) := by omega
  have hq : ((m * 2 ^ (52 - k) : ℕ) : ℚ) * (2 : ℚ) ^ (((k + 973 : ℕ) : ℤ) - 1075) = (m : ℚ) / 2 ^ 50 := by
    rw [show ((k + 973 : ℕ) : ℤ) - 1075 = -((52 - k : ℕ) : ℤ) - ((50 : ℕ) : ℤ) by omega]
    exact scale_cancel _ _ _
  have hmag : magnitude64 (gridWord m) = (m : ℚ) / 2 ^ 50 := by
    unfold magnitude64
    rw [he, hfr, if_neg he0, hsum, scaleTwo_eq]
    exact hq
  simp only [val64, hfin, hs, hmag, if_true, Bool.false_eq_true, if_false]

theorem gridWord_one : gridWord (2 ^ 50) = 0x3FF0000000000000#64 := by decide +kernel

/-- `d²/(2σ²)` as a rational. -/
def gaussArg (σ : ℚ) (size x y : Nat) : ℚ := (dist2 size x y : ℚ) / (2 * σ ^ 2)

/-- Lower and upper rational bounds of `exp(-t)`: `(1 - t/n)^n ≤ exp(-t) ≤ 1/(1 + t/n)^n`. -/
def expLower (n : Nat) (t : ℚ) : ℚ := (1 - t / n) ^ n
def expUpper (n : Nat) (t : ℚ) : ℚ := 1 / (1 + t / n) ^ n

/-- The sum of `f` over the cells of a kernel. -/
def cellSum {α : Type} [AddCommMonoid α] (size : Nat) (f : Nat → Nat → α) : α :=
  ∑ y ∈ Finset.range size, ∑ x ∈ Finset.range size, f x y

/-- `n` terms pin every weight down to `2^-42`. -/
def Precise (σ : ℚ) (size n : Nat) : Prop :=
  0 < n ∧ ∀ x, x < size → ∀ y, y < size → gaussArg σ size x y ≤ n ∧
    expUpper n (gaussArg σ size x y) / cellSum size (fun x y => expLower n (gaussArg σ size x y)) -
      expLower n (gaussArg σ size x y) / cellSum size (fun x y => expUpper n (gaussArg σ size x y)) ≤ 1 / 2 ^ 42

def preciseDec (σ : ℚ) (size n : Nat) : Decidable (Precise σ size n) := by unfold Precise; infer_instance

theorem gaussArg_nonneg (σ : ℚ) (size x y : Nat) : 0 ≤ gaussArg σ size x y := by
  unfold gaussArg; positivity

theorem expLower_le {n : Nat} (hn : 0 < n) {t : ℚ} (ht : t ≤ n) : ((expLower n t : ℚ) : ℝ) ≤ Real.exp (-(t : ℝ)) := by
  have hn' : (0 : ℝ) < n := by exact_mod_cast hn
  have ht' : (t : ℝ) ≤ n := by exact_mod_cast ht
  have h1 : 1 - (t : ℝ) / n ≤ Real.exp (-((t : ℝ) / n)) := by
    have := Real.add_one_le_exp (-((t : ℝ) / n)); linarith
  have h0 : 0 ≤ 1 - (t : ℝ) / n := by
    have : (t : ℝ) / n ≤ 1 := by rw [div_le_one hn']; exact ht'
    linarith
  have := pow_le_pow_left₀ h0 h1 n
  rw [← Real.exp_nat_mul] at this
  simp only [expLower]; push_cast
  calc _ ≤ _ := this
    _ = _ := by congr 1; field_simp

theorem le_expUpper {n : Nat} (hn : 0 < n) {t : ℚ} (ht : 0 ≤ t) : Real.exp (-(t : ℝ)) ≤ ((expUpper n t : ℚ) : ℝ) := by
  have hn' : (0 : ℝ) < n := by exact_mod_cast hn
  have ht' : (0 : ℝ) ≤ t := by exact_mod_cast ht
  have h1 : 1 + (t : ℝ) / n ≤ Real.exp ((t : ℝ) / n) := by
    have := Real.add_one_le_exp ((t : ℝ) / n); linarith
  have h0 : 0 < 1 + (t : ℝ) / n := by positivity
  have := pow_le_pow_left₀ h0.le h1 n
  rw [← Real.exp_nat_mul] at this
  have he : (n : ℝ) * ((t : ℝ) / n) = t := by field_simp
  rw [he] at this
  simp only [expUpper]; push_cast
  rw [Real.exp_neg, ← one_div]
  exact one_div_le_one_div_of_le (by positivity) this

theorem expLower_tendsto (t : ℚ) :
    Filter.Tendsto (fun n : Nat => ((expLower n t : ℚ) : ℝ)) Filter.atTop (nhds (Real.exp (-(t : ℝ)))) := by
  have := Real.tendsto_one_add_div_pow_exp (-(t : ℝ))
  refine this.congr fun n => ?_
  simp only [expLower]; push_cast; congr 1; ring

theorem expUpper_tendsto (t : ℚ) :
    Filter.Tendsto (fun n : Nat => ((expUpper n t : ℚ) : ℝ)) Filter.atTop (nhds (Real.exp (-(t : ℝ)))) := by
  have := (Real.tendsto_one_add_div_pow_exp (t : ℝ)).inv₀ (Real.exp_pos _).ne'
  rw [Real.exp_neg]
  refine this.congr fun n => ?_
  simp only [expUpper]; push_cast; rw [one_div]

theorem dist2_centre (size : Nat) : dist2 size (size / 2) (size / 2) = 0 := by simp [dist2]

theorem cellSum_exp_pos {size : Nat} (hs : 0 < size) (σ : ℚ) :
    0 < cellSum size (fun x y => Real.exp (-((gaussArg σ size x y : ℚ) : ℝ))) := by
  unfold cellSum
  have hne : (Finset.range size).Nonempty := Finset.nonempty_range_iff.2 (by omega)
  exact Finset.sum_pos (fun _ _ => Finset.sum_pos (fun _ _ => Real.exp_pos _) hne) hne

theorem cellSum_tendsto (size : Nat) (f : Nat → Nat → Nat → ℝ) (g : Nat → Nat → ℝ)
    (h : ∀ x y, Filter.Tendsto (fun n => f n x y) Filter.atTop (nhds (g x y))) :
    Filter.Tendsto (fun n => cellSum size (f n)) Filter.atTop (nhds (cellSum size g)) := by
  unfold cellSum
  exact tendsto_finsetSum _ fun y _ => tendsto_finsetSum _ fun x _ => h x y

theorem cellSum_cast (size : Nat) (f : Nat → Nat → ℚ) :
    ((cellSum size f : ℚ) : ℝ) = cellSum size fun x y => (f x y : ℝ) := by
  simp [cellSum]

theorem cellSum_mono {α : Type} [AddCommMonoid α] [PartialOrder α] [IsOrderedAddMonoid α] (size : Nat) (f g : Nat → Nat → α)
    (h : ∀ x y, x < size → y < size → f x y ≤ g x y) : cellSum size f ≤ cellSum size g := by
  unfold cellSum
  exact Finset.sum_le_sum fun y hy => Finset.sum_le_sum fun x hx => h x y (Finset.mem_range.1 hx) (Finset.mem_range.1 hy)

theorem exists_precise (σ : ℚ) {size : Nat} (hs : 0 < size) : ∃ n, Precise σ size n := by
  have hS := cellSum_exp_pos hs σ
  have key : ∀ x y, ∀ᶠ n : Nat in Filter.atTop, gaussArg σ size x y ≤ n ∧
      expUpper n (gaussArg σ size x y) / cellSum size (fun x y => expLower n (gaussArg σ size x y)) -
      expLower n (gaussArg σ size x y) / cellSum size (fun x y => expUpper n (gaussArg σ size x y)) ≤ 1 / 2 ^ 42 := by
    intro x y
    have hl := cellSum_tendsto size (fun n x y => ((expLower n (gaussArg σ size x y) : ℚ) : ℝ)) _
      (fun x y => expLower_tendsto (gaussArg σ size x y))
    have hu := cellSum_tendsto size (fun n x y => ((expUpper n (gaussArg σ size x y) : ℚ) : ℝ)) _
      (fun x y => expUpper_tendsto (gaussArg σ size x y))
    have h1 := ((expUpper_tendsto (gaussArg σ size x y)).div hl hS.ne').sub
      ((expLower_tendsto (gaussArg σ size x y)).div hu hS.ne')
    rw [sub_self] at h1
    have h2 := h1.eventually_le_const (show (0 : ℝ) < 1 / 2 ^ 42 by positivity)
    have h3 : ∀ᶠ n : Nat in Filter.atTop, gaussArg σ size x y ≤ n := by
      obtain ⟨N, hN⟩ := exists_nat_ge (gaussArg σ size x y)
      filter_upwards [Filter.eventually_ge_atTop N] with n hn
      exact hN.trans (by exact_mod_cast hn)
    filter_upwards [h2, h3] with n hn hn3
    refine ⟨hn3, ?_⟩
    refine (Rat.cast_le (K := ℝ)).1 ?_
    push_cast [cellSum_cast]
    simpa using hn
  have all : ∀ᶠ n : Nat in Filter.atTop, ∀ p ∈ Finset.range size ×ˢ Finset.range size, gaussArg σ size p.1 p.2 ≤ n ∧
      expUpper n (gaussArg σ size p.1 p.2) / cellSum size (fun x y => expLower n (gaussArg σ size x y)) -
      expLower n (gaussArg σ size p.1 p.2) / cellSum size (fun x y => expUpper n (gaussArg σ size x y)) ≤ 1 / 2 ^ 42 :=
    (Filter.eventually_all_finset _).2 fun p _ => key p.1 p.2
  obtain ⟨n, hn, h0⟩ := (all.and (Filter.eventually_gt_atTop 0)).exists
  exact ⟨n, h0, fun x hx y hy => hn (x, y) (by simp [hx, hy])⟩

/-- The lower bound of the weight of a cell, with the `n` that pins it down. -/
def weightLower (σ : ℚ) (size n x y : Nat) : ℚ :=
  expLower n (gaussArg σ size x y) / cellSum size (fun x y => expUpper n (gaussArg σ size x y))

/-- The word of a cell: the largest multiple of `2^-50` not above its lower bound, with an `n` that is precise. -/
def witnessWord (σ : ℚ) (size : Nat) (h : 0 < size) (x y : Nat) : DWord :=
  let n := @Nat.find _ (preciseDec σ size) (exists_precise σ h)
  gridWord (2 ^ 50 * weightLower σ size n x y).floor.toNat

/-- A kernel within the contract. -/
def witnessKernel (size : Nat) (sigma : DWord) (i : Nat) : DWord :=
  if h : 0 < size then witnessWord ((val64 sigma).getD 1) size h (i % size) (i / size) else 0

theorem isIdealWeight_eq {size : Nat} {σ : ℚ} (hσ : 0 < σ) {x y : Nat} {ω : ℝ} (h : IsIdealWeight size σ x y ω) :
    ω = Real.exp (-((gaussArg σ size x y : ℚ) : ℝ)) / cellSum size (fun x y => Real.exp (-((gaussArg σ size x y : ℚ) : ℝ))) := by
  have hσ' : (0 : ℝ) < σ := by exact_mod_cast hσ
  have e : ∀ x y, -(dist2 size x y : ℝ) / (2 * (σ : ℝ) ^ 2) = -((gaussArg σ size x y : ℚ) : ℝ) := by
    intro x y; simp only [gaussArg]; push_cast; ring
  simp only [IsIdealWeight, e] at h
  rw [h, cellSum]
  simp only [← Finset.sum_div]
  rw [div_div_div_cancel_right₀ (by positivity)]

theorem weightLower_bounds {σ : ℚ} (hσ : 0 < σ) {size n : Nat} (hn : Precise σ size n) {x y : Nat} (hx : x < size)
    (hy : y < size) {ω : ℝ} (h : IsIdealWeight size σ x y ω) :
    ((weightLower σ size n x y : ℚ) : ℝ) ≤ ω ∧ ω ≤ (weightLower σ size n x y : ℚ) + 1 / 2 ^ 42 ∧ 0 ≤ weightLower σ size n x y := by
  obtain ⟨n0, hp⟩ := hn
  have hs : 0 < size := by omega
  have hS := cellSum_exp_pos hs σ
  have low : ∀ x y, x < size → y < size →
      ((expLower n (gaussArg σ size x y) : ℚ) : ℝ) ≤ Real.exp (-((gaussArg σ size x y : ℚ) : ℝ)) :=
    fun x y hx hy => expLower_le n0 (hp x hx y hy).1
  have upp : ∀ x y, x < size → y < size →
      Real.exp (-((gaussArg σ size x y : ℚ) : ℝ)) ≤ ((expUpper n (gaussArg σ size x y) : ℚ) : ℝ) :=
    fun x y _ _ => le_expUpper n0 (gaussArg_nonneg ..)
  have lnn : ∀ x y, x < size → y < size → 0 ≤ expLower n (gaussArg σ size x y) := by
    intro x y hx hy
    have h1 : gaussArg σ size x y / n ≤ 1 := by
      rw [div_le_one (by exact_mod_cast n0)]; exact (hp x hx y hy).1
    exact pow_nonneg (by linarith) n
  have sl := cellSum_mono size _ _ low
  have su := cellSum_mono size _ _ upp
  have slpos : (0 : ℝ) < cellSum size fun x y => ((expLower n (gaussArg σ size x y) : ℚ) : ℝ) := by
    have hc : size / 2 < size := by omega
    rw [← cellSum_cast]
    have : 0 < cellSum size fun x y => expLower n (gaussArg σ size x y) := by
      unfold cellSum
      refine Finset.sum_pos' (fun y hy => Finset.sum_nonneg fun x hx => lnn x y (Finset.mem_range.1 hx) (Finset.mem_range.1 hy))
        ⟨size / 2, Finset.mem_range.2 hc, ?_⟩
      refine Finset.sum_pos' (fun x hx => lnn x _ (Finset.mem_range.1 hx) hc) ⟨size / 2, Finset.mem_range.2 hc, ?_⟩
      simp [gaussArg, dist2_centre, expLower]
    exact_mod_cast this
  have hU : ω ≤ ((expUpper n (gaussArg σ size x y) : ℚ) : ℝ) /
      cellSum size fun x y => ((expLower n (gaussArg σ size x y) : ℚ) : ℝ) := by
    rw [isIdealWeight_eq hσ h]
    have : (0 : ℝ) ≤ ((expUpper n (gaussArg σ size x y) : ℚ) : ℝ) := (Real.exp_pos _).le.trans (upp x y hx hy)
    exact div_le_div₀ this (upp x y hx hy) slpos sl
  have hL : ((weightLower σ size n x y : ℚ) : ℝ) ≤ ω := by
    rw [isIdealWeight_eq hσ h, weightLower, Rat.cast_div, cellSum_cast]
    exact div_le_div₀ (Real.exp_pos _).le (low x y hx hy) hS su
  refine ⟨hL, ?_, ?_⟩
  · have h2 := (hp x hx y hy).2
    have h3 : (((expUpper n (gaussArg σ size x y) / cellSum size (fun x y => expLower n (gaussArg σ size x y)) -
      expLower n (gaussArg σ size x y) / cellSum size (fun x y => expUpper n (gaussArg σ size x y)) : ℚ)) : ℝ) ≤ 1 / 2 ^ 42 := by
      have := (Rat.cast_le (K := ℝ)).2 h2
      simpa using this
    simp only [weightLower]
    push_cast [cellSum_cast] at h3 ⊢
    linarith
  · refine div_nonneg (lnn x y hx hy) ?_
    unfold cellSum
    exact Finset.sum_nonneg fun y _ => Finset.sum_nonneg fun x _ => by
      have := gaussArg_nonneg σ size x y
      unfold expUpper; positivity

theorem magnitude64_pos {b : DWord} (h : b.extractLsb' 0 63 ≠ 0) : 0 < magnitude64 b := by
  unfold magnitude64
  split
  next he =>
    have hf : 0 < fraction b := by
      rcases Nat.eq_zero_or_pos (fraction b) with hf | hf
      · exfalso
        apply h
        apply BitVec.eq_of_toNat_eq
        rw [biasedExp_toNat] at he
        rw [fraction_toNat] at hf
        simp only [BitVec.extractLsb'_toNat, Nat.shiftRight_zero]
        have := b.isLt
        simp
        omega
      · exact hf
    rw [scaleTwo_eq]; positivity
  next => rw [scaleTwo_eq]; positivity

theorem val64_of_sigmaValid {b : DWord} (h : sigmaValid b = true) : ∃ q : ℚ, val64 b = some q ∧ 0 < q := by
  simp only [sigmaValid, Bool.and_eq_true, bne_iff_ne, Bool.not_eq_true'] at h
  exact ⟨magnitude64 b, by simp [val64, h.1.1, h.1.2], magnitude64_pos h.2⟩

theorem weightLower_le_one {σ : ℚ} {size n : Nat} (hn : Precise σ size n) {x y : Nat} (hx : x < size) (hy : y < size) :
    weightLower σ size n x y ≤ 1 := by
  obtain ⟨n0, hp⟩ := hn
  have hn0 : (0 : ℚ) < n := by exact_mod_cast n0
  have hc : size / 2 < size := by omega
  have upos : ∀ x y, 0 ≤ expUpper n (gaussArg σ size x y) := fun x y => by
    have := gaussArg_nonneg σ size x y
    unfold expUpper; positivity
  have hone : expUpper n (gaussArg σ size (size / 2) (size / 2)) = 1 := by simp [gaussArg, dist2_centre, expUpper]
  have hsum : 1 ≤ cellSum size (fun x y => expUpper n (gaussArg σ size x y)) := by
    unfold cellSum
    calc (1 : ℚ) = expUpper n (gaussArg σ size (size / 2) (size / 2)) := hone.symm
      _ ≤ ∑ x ∈ Finset.range size, expUpper n (gaussArg σ size x (size / 2)) :=
        Finset.single_le_sum (f := fun x => expUpper n (gaussArg σ size x (size / 2))) (fun x _ => upos x _)
          (Finset.mem_range.2 hc)
      _ ≤ _ := Finset.single_le_sum (f := fun y => ∑ x ∈ Finset.range size, expUpper n (gaussArg σ size x y))
          (fun y _ => Finset.sum_nonneg fun x _ => upos x y) (Finset.mem_range.2 hc)
  have hl : expLower n (gaussArg σ size x y) ≤ 1 := by
    have h1 : gaussArg σ size x y / n ≤ 1 := by rw [div_le_one hn0]; exact (hp x hx y hy).1
    have h2 : 0 ≤ gaussArg σ size x y / n := div_nonneg (gaussArg_nonneg ..) hn0.le
    exact pow_le_one₀ (by linarith) (by linarith)
  rw [weightLower, div_le_one (by linarith)]
  linarith

theorem witnessKernel_contract {size : Nat} {sigma : DWord} (hs : size % 2 = 1) (hv : sigmaValid sigma = true) :
    KernelContract size sigma (witnessKernel size sigma) := by
  obtain ⟨σ, hσ, hpos⟩ := val64_of_sigmaValid hv
  have h0 : 0 < size := by omega
  obtain ⟨n, hn, hw⟩ : ∃ n, Precise σ size n ∧ ∀ x y, x < size →
      witnessKernel size sigma (y * size + x) = gridWord (2 ^ 50 * weightLower σ size n x y).floor.toNat := by
    refine ⟨@Nat.find _ (preciseDec σ size) (exists_precise σ h0), @Nat.find_spec _ (preciseDec σ size) (exists_precise σ h0), ?_⟩
    intro x y hx
    have e1 : (y * size + x) % size = x := by rw [Nat.mul_comm, Nat.mul_add_mod, Nat.mod_eq_of_lt hx]
    have e2 : (y * size + x) / size = y := by rw [Nat.mul_comm, Nat.mul_add_div h0, Nat.div_eq_of_lt hx, Nat.add_zero]
    have hg : (val64 sigma).getD 1 = σ := by rw [hσ]; rfl
    rw [witnessKernel, dif_pos h0, e1, e2, hg]
    rfl
  have cell : ∀ i, i < size * size → ∃ x y, x < size ∧ y < size ∧ i = y * size + x := fun i hi =>
    ⟨i % size, i / size, Nat.mod_lt _ h0, Nat.div_lt_of_lt_mul hi, by rw [Nat.mul_comm]; exact (Nat.div_add_mod i size).symm⟩
  have lnn : ∀ x y, x < size → y < size → 0 ≤ weightLower σ size n x y := fun x y hx hy =>
    (weightLower_bounds hpos hn hx hy rfl).2.2
  have ltop : ∀ x y, x < size → y < size → (2 ^ 50 * weightLower σ size n x y).floor.toNat ≤ 2 ^ 50 := by
    intro x y hx hy
    have h1 := weightLower_le_one hn hx hy
    have h2 := Rat.floor_le (2 ^ 50 * weightLower σ size n x y)
    have h3 : ((2 ^ 50 * weightLower σ size n x y).floor : ℚ) ≤ ((2 ^ 50 : Int) : ℚ) := by push_cast; linarith
    have h4 := Int.cast_le.1 h3
    omega
  have val : ∀ x y, x < size → y < size → ∃ m : Nat, val64 (witnessKernel size sigma (y * size + x)) = some ((m : ℚ) / 2 ^ 50) ∧
      signBit (witnessKernel size sigma (y * size + x)) = false ∧ m = (2 ^ 50 * weightLower σ size n x y).floor.toNat := by
    intro x y hx hy
    rw [hw x y hx]
    exact ⟨_, (val64_gridWord (ltop x y hx hy)).1, (val64_gridWord (ltop x y hx hy)).2, rfl⟩
  refine ⟨?_, ?_, ?_, ?_, ?_⟩
  · intro x y hx hy σ' hσ' ω hω
    obtain rfl : σ = σ' := by rw [hσ] at hσ'; exact Option.some.inj hσ'
    obtain ⟨h1, h2, h3⟩ := weightLower_bounds hpos hn hx hy hω
    obtain ⟨m, hm, -, rfl⟩ := val x y hx hy
    refine ⟨_, hm, ?_⟩
    set q := weightLower σ size n x y
    have hf0 : 0 ≤ (2 ^ 50 * q).floor := by rw [Rat.le_floor_iff]; push_cast; positivity
    have f1 : (((2 ^ 50 * q).floor.toNat : ℚ)) ≤ 2 ^ 50 * q := by
      have := Rat.floor_le (2 ^ 50 * q)
      rw [← Int.toNat_of_nonneg hf0] at this
      exact_mod_cast this
    have f2 : 2 ^ 50 * q < ((2 ^ 50 * q).floor.toNat : ℚ) + 1 := by
      have := Rat.lt_floor_add_one (2 ^ 50 * q)
      rw [← Int.toNat_of_nonneg hf0] at this
      exact_mod_cast this
    generalize (2 ^ 50 * q).floor.toNat = m at *
    have f1' : (m : ℝ) ≤ 2 ^ 50 * (q : ℝ) := by exact_mod_cast f1
    have f2' : 2 ^ 50 * (q : ℝ) < (m : ℝ) + 1 := by exact_mod_cast f2
    push_cast
    rw [abs_le]
    constructor <;> linarith
  · intro i hi
    obtain ⟨x, y, hx, hy, rfl⟩ := cell i hi
    obtain ⟨m, -, h, -⟩ := val x y hx hy
    exact h
  · intro x y x' y' hx hy hx' hy' hd
    rw [hw x y hx, hw x' y' hx']
    simp only [weightLower, gaussArg, hd]
  · intro x y x' y' hx hy hx' hy' hd q q' hq hq'
    obtain ⟨m, hm, -, rfl⟩ := val x y hx hy
    obtain ⟨m', hm', -, rfl⟩ := val x' y' hx' hy'
    rw [hm] at hq; rw [hm'] at hq'
    obtain rfl := Option.some.inj hq
    obtain rfl := Option.some.inj hq'
    have hle : weightLower σ size n x' y' ≤ weightLower σ size n x y := by
      unfold weightLower
      have hS : 0 ≤ cellSum size fun x y => expUpper n (gaussArg σ size x y) :=
        Finset.sum_nonneg fun y _ => Finset.sum_nonneg fun x _ => by
          have := gaussArg_nonneg σ size x y
          unfold expUpper; positivity
      refine div_le_div_of_nonneg_right ?_ hS
      have hn0 : (0 : ℚ) < n := by exact_mod_cast hn.1
      have h1 : gaussArg σ size x' y' / n ≤ 1 := by rw [div_le_one hn0]; exact (hn.2 x' hx' y' hy').1
      have h2 : gaussArg σ size x y ≤ gaussArg σ size x' y' := by
        unfold gaussArg
        refine div_le_div_of_nonneg_right ?_ (by positivity)
        exact_mod_cast hd.le
      have h3 : gaussArg σ size x y / n ≤ gaussArg σ size x' y' / n := div_le_div_of_nonneg_right h2 hn0.le
      exact pow_le_pow_left₀ (by linarith) (by linarith) n
    refine div_le_div_of_nonneg_right ?_ (by positivity)
    have : (2 ^ 50 * weightLower σ size n x' y').floor ≤ (2 ^ 50 * weightLower σ size n x y).floor :=
      Rat.floor_monotone (by linarith)
    exact_mod_cast Int.toNat_le_toNat this
  · intro h1
    subst h1
    have := hw 0 0 (by omega)
    have e : weightLower σ 1 n 0 0 = 1 := by
      simp [weightLower, cellSum, gaussArg, expLower, expUpper, dist2]
    rw [e] at this
    simp only [Nat.zero_mul, Nat.add_zero] at this
    rw [this]
    decide +kernel

end Sys2Proof.Machine
end

