-- ==== Sys2Proof/Config.lean ====
section
/-! DEFINITION. What an implementation fixes: the capacities (named parameters of the machine), the platform's base
addresses, the Gaussian kernel function; and the free values, opaque constants of which nothing in Lean can prove a value (00_scope R3). -/
namespace Sys2Proof

/-- The two capacities that 00_scope R3 leaves as named parameters. A machine carries its own, and no step changes them
(log entry 1). -/
structure Params where
  /-- CAP_PIX, the capacity in pixels of IN, OUT and LUMA. -/
  capPix : Nat
  /-- KMAX, the largest kernel size that COEF holds. -/
  kmax : Nat
  deriving DecidableEq, Repr

/-- KMAX is odd and at least 5 (00_scope R3). -/
def Params.valid (p : Params) : Bool := decide (p.kmax % 2 = 1) && decide (5 ≤ p.kmax)

/-- The number of bytes of IN and of OUT (10_state R24, R25). -/
def Params.sampleBytes (p : Params) : Nat := 4 * p.capPix

/-- The number of entries of COEF (10_state R26). -/
def Params.coefEntries (p : Params) : Nat := p.kmax * p.kmax

/-- The defaults, 1280 x 720 pixels and size 21 (00_scope R3). -/
def Config.defaults : Params := ⟨921600, 21⟩

/-- The platform's base addresses REG_BASE, IN_BASE, OUT_BASE, COEF_BASE. OPEN: no rule depends on them
(00_scope R3, 20_memory R40), so nothing in the machine reads them (log entry 20). -/
opaque Config.regBase : Nat
@[inherit_doc Config.regBase] opaque Config.inBase : Nat
@[inherit_doc Config.regBase] opaque Config.outBase : Nat
@[inherit_doc Config.regBase] opaque Config.coefBase : Nat

/-- A Gaussian kernel function with the proof that every odd size and valid sigma gets a kernel within the contract
of 41_kernel_generator R93 to R98. `words size sigma i` is the word at index `i` of the kernel. The field's default
value only shows that the type has a member. -/
structure GaussKernel where
  words : Nat → DWord → Nat → DWord := Machine.witnessKernel
  contract : ∀ size sigma, size % 2 = 1 → Machine.sigmaValid sigma = true →
      Machine.KernelContract size sigma (words size sigma) := by
    exact fun _ _ => Machine.witnessKernel_contract
  deriving Inhabited

/-- GaussKernel, the function the Kernel Generator computes: OPEN, of which the machine assumes the contract and
nothing else (00_scope R3, 41_kernel_generator R92; log entry 2). -/
opaque Config.gaussKernel : GaussKernel

/-- The unspecified contents of IN after the `n`-th reset, by byte index (10_state R30, 93 U13; log entry 3). -/
opaque Config.resetIn : Nat → Nat → Byte
/-- The unspecified contents of OUT after the `n`-th reset, by byte index (10_state R30, 93 U13; log entry 3). -/
opaque Config.resetOut : Nat → Nat → Byte
/-- The unspecified contents of COEF after the `n`-th reset, by entry index (10_state R30, 93 U13; log entry 3). -/
opaque Config.resetCoef : Nat → Nat → DWord

/-- "Any value" bytes (00_scope R7, 93 part 1): `anyByte d i` is the `i`-th byte of the `d`-th draw (log entry 4). -/
opaque Config.anyByte : Nat → Nat → Byte

end Sys2Proof
end

