-- ==== Sys2Proof/Machine/Memory.lean ====
section
/-! DEFINITION. A memory as plain data: a list of (index, value) pairs with strictly rising indices
(10_state R24 to R28, 20_memory R40). An index that is not listed holds no defined value: nothing has been written
there since reset (10_state R30), so no value is ever equal to what an unlisted index holds. -/
namespace Sys2Proof.Machine

/-- Sparse contents of one memory. `Memory Byte` is a list of `Host.Cell`. -/
abbrev Memory (α : Type) := List (Nat × α)

/-- The defined value at index `a`, if there is one. -/
def Memory.get? {α : Type} (m : Memory α) (a : Nat) : Option α :=
  match m with
  | [] => none
  | (b, v) :: r => if a = b then some v else Memory.get? r a

/-- Store `v` at index `a`, keeping the indices rising. -/
def Memory.write {α : Type} (a : Nat) (v : α) (m : Memory α) : Memory α :=
  match m with
  | [] => [(a, v)]
  | (b, u) :: r =>
    if a < b then (a, v) :: (b, u) :: r
    else if a = b then (a, v) :: r
    else (b, u) :: Memory.write a v r

/-- The listed entries of the indices 0 to `n-1` whose values are given by `f`. -/
def Memory.block {α : Type} (n : Nat) (f : Nat → Option α) : Memory α :=
  (List.range n).filterMap fun a => (f a).map fun v => (a, v)

/-- Write every index from 0 to `n-1` with `f`, leaving the rest alone; where `f` gives no value the
entry holds no defined value afterwards. Every write of a command has this form (20_memory R49). -/
def Memory.fill {α : Type} (n : Nat) (f : Nat → Option α) (m : Memory α) : Memory α :=
  Memory.block n f ++ m.filter fun c => decide (n ≤ c.1)

/-- The canonical form: indices strictly rising. -/
def Memory.wf {α : Type} (m : Memory α) : Bool :=
  match m with
  | [] => true
  | [_] => true
  | (a, _) :: (b, v) :: r => decide (a < b) && Memory.wf ((b, v) :: r)

/-- Every listed index is below `n`, the size of the space. -/
def Memory.below {α : Type} (n : Nat) (m : Memory α) : Bool := m.all fun c => decide (c.1 < n)

end Sys2Proof.Machine
end

