-- ==== Sys2Proof/Machine/State.lean ====
section
/-! DEFINITION. The state of the PFE and of the Host in front of it, as plain data, and the state after reset. -/
namespace Sys2Proof.Machine

/-- Which launch bit won (10_state R15, R20): FILTER (START) or GENERATE (GENK). -/
inductive Kind where
  | filter
  | generate
  deriving DecidableEq, Repr

/-- The latched descriptor D: the parameters of the command in flight, taken from the registers at its launch
(10_state R20). The command reads D and never the registers. -/
structure Descriptor where
  fsel : Word
  width : Word
  height : Word
  ksize : Word
  sigma : DWord
  kind : Kind
  deriving DecidableEq, Repr

/-- The two sample memories, whose unit is the byte (20_memory R40). -/
inductive Samples where
  | input
  | output
  deriving DecidableEq, Repr

/-- One transaction of the Host (30_encoding R77, R78; 20_memory R47). Offsets and indices are byte offsets within a
space; `size` is the width of a register access in bytes. -/
inductive HostOp where
  /-- `WR reg, v`: a register write of `size` bytes at an offset from REG_BASE. -/
  | wr (offset size : Nat) (value : Word)
  /-- `RD reg`: a register read of `size` bytes. -/
  | rd (offset size : Nat)
  /-- `ST IN[i], b0 b1 ..`, and the same access to OUT, which the Host cannot write. -/
  | st (mem : Samples) (index : Nat) (bytes : List Byte)
  /-- `LD OUT[i], n`, `LD IN[i], n`. -/
  | ld (mem : Samples) (index n : Nat)
  /-- A write to COEF, which the Host cannot write. -/
  | stCoef (index : Nat) (bytes : List Byte)
  /-- `LD COEF[i/8]`, and the reads of COEF of other widths and alignments. -/
  | ldCoef (index n : Nat)
  /-- `WAIT`: read STATUS until DONE is 1. -/
  | wait
  /-- The line `ST IN[i], (LD OUT[i], 1)` of COPYBACK. -/
  | copyByte (index : Nat)
  deriving DecidableEq, Repr

/-- A sample access of the Host that has begun and has bytes to go: a wider access is its single-byte accesses in rising
order and is not atomic (20_memory R47, R48; log entries 11 and 17). -/
inductive Transfer where
  /-- The bytes still to write to IN, the first at `index`. -/
  | store (index : Nat) (left : List Byte)
  /-- `left` bytes still to read, the first at `index`, and the bytes read so far, lowest index first. -/
  | load (mem : Samples) (index left : Nat) (got : List Byte)
  deriving DecidableEq, Repr

/-- Whose move is next (log entry 9): a transaction of the Host, the next byte of its access in progress, the Engine
(which has a step only while a command is in flight, 00_scope R5), or the platform's reset (70 R220). -/
inductive Input where
  | host (op : HostOp)
  | resume
  | engine
  | reset
  deriving DecidableEq, Repr

/-- What a Host read returned. -/
inductive Reply where
  | word (w : Word)
  | bytes (bs : List Byte)
  deriving DecidableEq, Repr

end Sys2Proof.Machine

namespace Sys2Proof.Machine

/-- The whole state. First stand the parameters of the machine, which no step changes; then the architectural state
(10_state R10: "exactly"; CTRL has no storage, R15); then the Host's side of the interface and the indices of the free
values (INVENTORY.md, State). -/
structure State where
  /-- CAP_PIX and KMAX (00_scope R3), held as data so that every value of them is a machine of the model. -/
  params : Params
  /-- STATUS (R16). -/
  status : Word
  /-- FSEL (R17). -/
  fsel : Word
  /-- WIDTH (R18). -/
  width : Word
  /-- HEIGHT (R18). -/
  height : Word
  /-- KSIZE (R19). -/
  ksize : Word
  /-- SIGMA_LO (R21). -/
  sigmaLo : Word
  /-- SIGMA_HI (R21). -/
  sigmaHi : Word
  /-- D (R20). -/
  desc : Descriptor
  /-- IN (R24): a list of `Host.Cell`. -/
  inMem : Memory Byte
  /-- OUT (R25): a list of `Host.Cell`. -/
  outMem : Memory Byte
  /-- COEF (R26). -/
  coef : Memory DWord
  /-- LUMA (R28), hidden from the Host. -/
  luma : Memory LumaWord
  /-- The moves still to come, oldest first. -/
  inputs : List Input
  /-- The Host's wide sample access in progress, if there is one (20_memory R48). -/
  transfer : Option Transfer
  /-- What the Host's reads have returned, newest first. -/
  replies : List Reply
  /-- A launch was accepted and no STATUS read has returned DONE = 1 since (20_memory R51, 70 R230, R231). -/
  pending : Bool
  /-- The Host wrote a byte of IN[0 .. 4wh-1] while the command was in flight (20_memory R51 item 5). -/
  race : Bool
  /-- The results in OUT of earlier filter commands whose DONE the Host has not observed, as their lengths 4wh in bytes,
  the latest first: the time in which a write to their input buffer makes them any value has not ended (70 R230). -/
  earlier : List Nat
  /-- The index of the next draw of free values. -/
  draws : Nat
  /-- The index of the unspecified memory contents: how many platform resets there have been. -/
  resets : Nat
  deriving DecidableEq, Repr

/-- The machine never stops with a fault: its one exception, InvalidParameter, is a next state (60_exceptions R190,
R194), and "no behaviour of the PFE is stuck" (93, end of part 1). No constructor, so no meaning can raise one. -/
inductive Fault where
  deriving DecidableEq, Repr

/-- Why a step has no meaning. -/
inductive Refusal where
  /-- An instruction without a meaning in the model; raised by `exec` only, and by no arm of it now. Safe. -/
  | notModelled (mnemonic : String)
  deriving DecidableEq, Repr

/-- D holds nothing meaningful outside a command (10_state R20, R30). DESIGN CHOICE, log entry 10. -/
def Descriptor.zero : Descriptor := ⟨0, 0, 0, 0, 0, .filter⟩

/-- After reset (10_state R30): every register 0, the Engine idle, no memory holding a defined value. The parameters are
the spec's defaults (log entry 1). The Host's side is empty and the free-value indices start at 0 (DESIGN CHOICE, log
entries 3, 4, 6, 7, 9, 11). -/
def State.reset : State where
  params := Config.defaults
  status := 0
  fsel := 0
  width := 0
  height := 0
  ksize := 0
  sigmaLo := 0
  sigmaHi := 0
  desc := Descriptor.zero
  inMem := []
  outMem := []
  coef := []
  luma := []
  inputs := []
  transfer := none
  replies := []
  pending := false
  race := false
  earlier := []
  draws := 0
  resets := 0

end Sys2Proof.Machine
end

