-- ==== Sys2Proof/Machine/Flags.lean ====
section
/-! DEFINITION. The fields of STATUS and what a launch, a completion and a fault write to them (10_state R16,
46_dispatcher R171, R174). The PFE has no arithmetic flags (10_state R13). -/
namespace Sys2Proof.Machine

/-- The three causes of InvalidParameter (60_exceptions R191). -/
inductive ParamError where
  | ksize
  | sigma
  | geometry
  deriving DecidableEq, Repr

/-- The sub-code recorded in ECODE (60_exceptions R191). -/
def ecodeOf (e : ParamError) : Byte :=
  match e with
  | .ksize => 1
  | .sigma => 2
  | .geometry => 3

/-- STATUS.BUSY, bit 0. -/
def busyOf (st : Word) : Bool := st.getLsbD 0
/-- STATUS.DONE, bit 1. -/
def doneOf (st : Word) : Bool := st.getLsbD 1
/-- STATUS.ERR, bit 2. -/
def errOf (st : Word) : Bool := st.getLsbD 2
/-- STATUS.ECODE, bits 15:8. -/
def ecodeField (st : Word) : Byte := st.extractLsb' 8 8

/-- Write bit `i` of STATUS, leaving the rest. -/
def withBit (i : Nat) (b : Bool) (st : Word) : Word :=
  if b then st ||| (1#32 <<< i) else st &&& ~~~(1#32 <<< i)

/-- Write ECODE, leaving the rest. -/
def withEcode (c : Byte) (st : Word) : Word := (st &&& ~~~0x0000FF00#32) ||| (c.setWidth 32 <<< 8)

/-- A launch: BUSY <- 1, DONE <- 0, ERR <- 0, ECODE <- 0 (46_dispatcher R171). -/
def statusLaunched (st : Word) : Word :=
  withEcode 0 (withBit 2 false (withBit 1 false (withBit 0 true st)))

/-- A completion without fault: BUSY <- 0, DONE <- 1 (46_dispatcher R174). -/
def statusCompleted (st : Word) : Word := withBit 1 true (withBit 0 false st)

/-- A completion by InvalidParameter: BUSY <- 0, DONE <- 1, ERR <- 1, ECODE <- c (46_dispatcher R174). -/
def statusFaulted (c : Byte) (st : Word) : Word :=
  withEcode c (withBit 2 true (withBit 1 true (withBit 0 false st)))

/-- A command is in flight. -/
def State.busy (s : State) : Bool := busyOf s.status
/-- The most recent command has completed. -/
def State.done (s : State) : Bool := doneOf s.status
/-- The most recent command ended by InvalidParameter. -/
def State.err (s : State) : Bool := errOf s.status

end Sys2Proof.Machine
end

