-- ==== Sys2Proof/Machine/Operands.lean ====
section
/-! DEFINITION. The operands of the commands: parameter validity, coordinates and indices of samples and weights, and
the conversion of a result to a byte (00_scope R6). -/
namespace Sys2Proof.Machine

/-- `geom_valid(w,h)`: the exact product does not exceed CAP_PIX (60_exceptions R192, 10_state R18). -/
def geomValid (p : Params) (w h : Word) : Bool := decide (w.toNat * h.toNat ≤ p.capPix)

/-- `ksize_valid(k)`: odd and at most KMAX (60_exceptions R192). -/
def ksizeValid (p : Params) (k : Word) : Bool := decide (k.toNat % 2 = 1) && decide (k.toNat ≤ p.kmax)

/-- `clampi(v, lo, hi)` (00_scope R6). -/
def clampi (v lo hi : Int) : Int := if v < lo then lo else if hi < v then hi else v

/-- `idx(x,y,c) = 4*(y*w + x) + c` (20_memory R43). -/
def idx (w x y c : Nat) : Nat := 4 * (y * w + x) + c

/-- `ToByte(q) = clampi(rne(q), 0, 255)`: round to nearest, ties to even, then saturate (42_convolution_engine R116). -/
def toByte (q : ℚ) : Byte := BitVec.ofNat 8 (clampi (rne q) 0 255).toNat

/-- One step of `isqrt`: keep the bit `2^k` of the root if its square still fits. -/
def isqrtBits (n k r : Nat) : Nat :=
  match k with
  | 0 => r
  | k + 1 => isqrtBits n k (if (r + 2 ^ k) * (r + 2 ^ k) ≤ n then r + 2 ^ k else r)

/-- `isqrt(n)`: the greatest `r` with `r*r ≤ n` (00_scope R6). -/
def isqrt (n : Nat) : Nat := isqrtBits n (n.log2 / 2 + 1) 0

/-- The pixel column of the byte at index `a` of a buffer of width `w` (20_memory R43). -/
def pixelX (w a : Nat) : Nat := a / 4 % w
/-- The pixel row of the byte at index `a`. -/
def pixelY (w a : Nat) : Nat := a / 4 / w
/-- The channel of the byte at index `a`: 0 R, 1 G, 2 B, 3 A (20_memory R42). -/
def channelOf (a : Nat) : Nat := a % 4

/-- The clamped coordinate of a tap, `clampi(x + kx - hs, 0, w-1)` (42_convolution_engine R113). -/
def tapCoord (x kx hs w : Nat) : Nat := (clampi ((x : Int) + kx - hs) 0 ((w : Int) - 1)).toNat

/-- The sum of values that may be undefined: defined when every one is. -/
def sumDefined {α : Type} [Add α] [OfNat α 0] (l : List (Option α)) : Option α :=
  match l with
  | [] => some 0
  | none :: _ => none
  | some a :: r =>
    match sumDefined r with
    | none => none
    | some b => some (a + b)

/-- The cells `(kx,ky)` of a kernel of size `s`, row by row (20_memory R44). -/
def cells (s : Nat) : List (Nat × Nat) :=
  (List.range s).flatMap fun ky => (List.range s).map fun kx => (kx, ky)

end Sys2Proof.Machine
end

