-- ==== Sys2Proof/Machine/Ops.lean ====
section
/-! DEFINITION. The shared operations over registers and memories: reading a sample or an entry, writing a command's
results, launching, completing, raising InvalidParameter, and fetching the command in flight. -/
namespace Sys2Proof.Machine

/-! ### Reading -/

/-- The byte of IN at `a` as it reads: what was last written, or the unspecified reset contents (20_memory R51). -/
def State.inByte (s : State) (a : Nat) : Byte := (s.inMem.get? a).getD (Config.resetIn s.resets a)
/-- The byte of OUT at `a` as it reads while no command is pending (20_memory R51). -/
def State.outByte (s : State) (a : Nat) : Byte := (s.outMem.get? a).getD (Config.resetOut s.resets a)
/-- The entry of COEF at `i` as it reads while no command is pending (20_memory R51). -/
def State.coefEntry (s : State) (i : Nat) : DWord := (s.coef.get? i).getD (Config.resetCoef s.resets i)

/-! ### Writing the results of a command -/

/-- Write OUT[0 .. n-1] with `f`. A byte that `f` leaves undefined is any value, and so is every byte if the Host
wrote the input buffer in flight (20_memory R51 item 5, 70 R238): the free value of this draw. -/
def writeOut (n : Nat) (f : Nat → Option Byte) (s : State) : State :=
  { s with
    outMem := s.outMem.fill n fun a =>
      some ((if s.race then none else f a).getD (Config.anyByte s.draws a))
    draws := s.draws + 1 }

/-- Write COEF[0 .. n-1] with the words of a kernel (20_memory R49). -/
def writeCoef (n : Nat) (k : Nat → DWord) (s : State) : State :=
  { s with coef := s.coef.fill n fun i => some (k i) }

/-- Write LUMA[0 .. n-1]; an entry computed from an undefined sample holds no defined value (log entry 14). -/
def writeLuma (n : Nat) (f : Nat → Option LumaWord) (s : State) : State :=
  { s with luma := s.luma.fill n f }

/-! ### The life of a command -/

/-- The number of bytes of the buffer of the latest filter command, 4wh (20_memory R41). -/
def resultBytes (s : State) : Nat := 4 * s.desc.width.toNat * s.desc.height.toNat

/-- The lengths of the results that stand in OUT and whose DONE the Host has not observed, the latest first. The latest
command's is among them once it has completed; a faulted command and GENK have none (20_memory R49, 60_exceptions R194;
70 R230). -/
def openResults (s : State) : List Nat :=
  if s.pending then
    if s.busy || s.err || decide (s.desc.kind = .generate) then s.earlier else resultBytes s :: s.earlier
  else []

/-- Start the command of a descriptor: latch it and set STATUS; the Host's obligations of 20_memory R51 begin
(46_dispatcher R171), and those for earlier results go on until a STATUS read returns DONE = 1 (70 R230). -/
def beginCommand (d : Descriptor) (s : State) : State :=
  { s with desc := d, status := statusLaunched s.status, pending := true, race := false, earlier := openResults s }

/-- The descriptor a launch takes from the registers (10_state R20). -/
def latched (k : Kind) (s : State) : Descriptor :=
  ⟨s.fsel, s.width, s.height, s.ksize, sigmaWord s.sigmaHi s.sigmaLo, k⟩

/-- A launch, one indivisible step (46_dispatcher R171). -/
def launch (k : Kind) (s : State) : State := beginCommand (latched k s) s

/-- Completion without fault (46_dispatcher R174). -/
def complete (s : State) : State := { s with status := statusCompleted s.status }

/-- Taking the one exception, InvalidParameter: STATUS only; nothing is saved and no control is transferred
(60_exceptions R194, 46_dispatcher R174). There is no return from it (60_exceptions R195): the next accepted launch
clears ERR and ECODE (`beginCommand`). -/
def raiseInvalidParameter (e : ParamError) (s : State) : State :=
  { s with status := statusFaulted (ecodeOf e) s.status }

/-- A command whose checks precede every write: the first check that fails is raised, otherwise the command runs to
its completion (60_exceptions R193, R194; 46_dispatcher R173, R174). -/
def runChecked (failed : Option ParamError) (run : State → State) (s : State) : State :=
  match failed with
  | some e => raiseInvalidParameter e s
  | none => complete (run s)

/-- The check of every filter command (46_dispatcher R173). -/
def checkGeometry (p : Params) (w h : Word) : Option ParamError :=
  if geomValid p w h then none else some .geometry

/-- The checks of a kernel's parameters, KSIZE before SIGMA (60_exceptions R193). -/
def checkKernel (p : Params) (k : Word) (sigma : DWord) : Option ParamError :=
  if ksizeValid p k then if sigmaValid sigma then none else some .sigma else some .ksize

/-! ### Fetch -/

/-- The words of a descriptor (30_encoding R71). -/
def Descriptor.words (d : Descriptor) : CommandWords :=
  ⟨match d.kind with
    | .filter => startWord
    | .generate => genkWord,
   d.fsel, d.width, d.height, d.ksize, sigmaLow d.sigma, sigmaHigh d.sigma⟩

/-- The words a CTRL write of `v` presents: `v` and the parameter registers (30_encoding R71). -/
def wordsAt (v : Word) (s : State) : CommandWords :=
  ⟨v, s.fsel, s.width, s.height, s.ksize, s.sigmaLo, s.sigmaHi⟩

/-- The command in flight, if there is one (00_scope R5, 46_dispatcher R173). -/
def fetch (s : State) : Option Instr := if s.busy then some (decode s.desc.words) else none

end Sys2Proof.Machine
end

