-- ==== Sys2Proof/Machine/Convolution.lean ====
section
/-! DEFINITION. The Convolution Engine, the primitive CONV that GAUSSIAN, BOX and SHARPEN invoke
(42_convolution_engine R110 to R116). -/
namespace Sys2Proof.Machine

/-- The weight `val64(COEF[i])` (42_convolution_engine R111). -/
def weightAt (s : State) (i : Nat) : Option ℚ := (s.coef.get? i).bind val64

/-- The product of a weight and the sample at `a`, exact in ℚ (R114). A tap of weight 0 contributes 0 whatever the
sample is, so it does not depend on it (70 R238, log entry 5). -/
def tapProduct (s : State) (weight : ℚ) (a : Nat) : Option ℚ :=
  if weight = 0 then some 0 else (s.inMem.get? a).map fun b => weight * (b.toNat : ℚ)

/-- The index in IN of the sample under the cell `(kx,ky)` of a kernel of size `k` centred at `(x,y)`, with the
coordinates clamped to the buffer (R113, 20_memory R50). -/
def tapIndex (w h k x y c kx ky : Nat) : Nat := idx w (tapCoord x kx (k / 2) w) (tapCoord y ky (k / 2) h) c

/-- The weighted sum of one channel at one pixel, defined when every sample it depends on is (R111, R114). -/
def convSum (w h k : Nat) (s : State) (x y c : Nat) : Option ℚ :=
  sumDefined ((cells k).map fun p =>
    match weightAt s (p.2 * k + p.1) with
    | none => none
    | some weight => tapProduct s weight (tapIndex w h k x y c p.1 p.2))

/-- The byte of the result at index `a`: ToByte of the sum for R, G, B, the input's byte for A (R111, R112). -/
def convByte (w h k : Nat) (s : State) (a : Nat) : Option Byte :=
  if channelOf a = 3 then s.inMem.get? a
  else (convSum w h k s (pixelX w a) (pixelY w a) (channelOf a)).map toByte

/-- CONV(w, h, k): convolve IN with the kernel in COEF into OUT[0 .. 4wh-1] (R110, R119). -/
def conv (w h k : Nat) (s : State) : State := writeOut (4 * w * h) (convByte w h k s) s

end Sys2Proof.Machine
end

