-- ==== Sys2Proof/Machine/KernelGenerator.lean ====
section
/-! DEFINITION. The Kernel Generator: the command GENK (41_kernel_generator R90). -/
namespace Sys2Proof.Machine

/-- Write the generated kernel of size `k` into COEF[0 .. k*k-1]; the other entries keep their values (R90, R92). -/
def generateKernel (k : Nat) (sigma : DWord) (s : State) : State :=
  writeCoef (k * k) (Config.gaussKernel.words k sigma) s

/-- GENK (R90). -/
def execGenk (ksize : Word) (sigma : DWord) (s : State) : Host.Outcome State Fault Refusal :=
  .next (runChecked (checkKernel s.params ksize sigma) (generateKernel ksize.toNat sigma) s)

end Sys2Proof.Machine
end

