-- ==== Sys2Proof/Machine/Dispatcher.lean ====
section
/-! DEFINITION. The commands whose whole meaning is in the routing table: IDENTITY, GAUSSIAN, UNKNOWN
(46_dispatcher R176 to R178), and the CTRL write that launches nothing (30_encoding R75). -/
namespace Sys2Proof.Machine

/-- OUT[j] <- IN[j] for every byte of the buffer (R176). -/
def copyBuffer (w h : Nat) (s : State) : State := writeOut (4 * w * h) (fun a => s.inMem.get? a) s

/-- Generate the kernel, then convolve with it (R177). -/
def runGaussian (w h k : Nat) (sigma : DWord) (s : State) : State := conv w h k (generateKernel k sigma s)

/-- IDENTITY (R176). -/
def execIdentity (width height : Word) (s : State) : Host.Outcome State Fault Refusal :=
  .next (runChecked (checkGeometry s.params width height) (copyBuffer width.toNat height.toNat) s)

/-- UNKNOWN: exactly as IDENTITY, the geometry check included; the selector changes nothing (R178). -/
def execUnknown (_fsel width height : Word) (s : State) : Host.Outcome State Fault Refusal :=
  .next (runChecked (checkGeometry s.params width height) (copyBuffer width.toNat height.toNat) s)

/-- GAUSSIAN: the three checks, GEOMETRY, KSIZE, SIGMA in that order, precede every write (R177, 60_exceptions R193). -/
def execGaussian (width height ksize : Word) (sigma : DWord) (s : State) : Host.Outcome State Fault Refusal :=
  .next (runChecked ((checkGeometry s.params width height).or (checkKernel s.params ksize sigma))
    (runGaussian width.toNat height.toNat ksize.toNat sigma) s)

/-- A CTRL write with bits 1:0 = 00 changes no state (30_encoding R75). -/
def execNolaunch (s : State) : Host.Outcome State Fault Refusal := .next s

end Sys2Proof.Machine
end

