-- ==== Sys2Proof/Machine/EdgeDetector.lean ====
section
/-! DEFINITION. The Edge Detector, the command EDGE (44_edge_detector). -/
namespace Sys2Proof.Machine

/-- `LUMA[i] = R + G + B`, three times the luminance of pixel `i` (R141). -/
def lumaSum (s : State) (i : Nat) : Option LumaWord :=
  match s.inMem.get? (4 * i), s.inMem.get? (4 * i + 1), s.inMem.get? (4 * i + 2) with
  | some r, some g, some b => some (BitVec.ofNat 10 (r.toNat + g.toNat + b.toNat))
  | _, _, _ => none

/-- The weight of SOBELX at `(kx,ky)` (R143). -/
def sobelX (kx ky : Nat) : Int := [-1, 0, 1, -2, 0, 2, -1, 0, 1].getD (ky * 3 + kx) 0
/-- The weight of SOBELY at `(kx,ky)` (R143). -/
def sobelY (kx ky : Nat) : Int := [-1, -2, -1, 0, 0, 0, 1, 2, 1].getD (ky * 3 + kx) 0

/-- GX or GY at the interior pixel `(x,y)` (R140, R144). A weight of 0 contributes 0 whatever the entry is. -/
def sobelGradient (weight : Nat → Nat → Int) (w : Nat) (s : State) (x y : Nat) : Option Int :=
  sumDefined ((cells 3).map fun p =>
    if weight p.1 p.2 = 0 then some 0
    else (s.luma.get? ((y + p.2 - 1) * w + (x + p.1 - 1))).map fun l => weight p.1 p.2 * (l.toNat : Int))

/-- `m = min(255, (isqrt(4N) + 3) div 6)` with `N = GX² + GY²`: the magnitude rounded and saturated (R146, R147). -/
def edgeMagnitude (gx gy : Int) : Byte :=
  BitVec.ofNat 8 (min 255 ((isqrt (4 * (gx * gx + gy * gy).toNat) + 3) / 6))

/-- `1 <= x < w-1` and `1 <= y < h-1` (R145). -/
def isInterior (w h x y : Nat) : Bool :=
  decide (1 ≤ x) && decide (x + 1 < w) && decide (1 ≤ y) && decide (y + 1 < h)

/-- The byte of the result at index `a`: 0 on the border ring (R145), alpha 255 and the magnitude in R, G and B
inside (R146). -/
def edgeByte (w h : Nat) (s : State) (a : Nat) : Option Byte :=
  if isInterior w h (pixelX w a) (pixelY w a) then
    if channelOf a = 3 then some 255
    else
      match sobelGradient sobelX w s (pixelX w a) (pixelY w a), sobelGradient sobelY w s (pixelX w a) (pixelY w a) with
      | some gx, some gy => some (edgeMagnitude gx gy)
      | _, _ => none
  else some 0

/-- Stage 1, every luminance sum; then stage 2, every byte of the result (R140, R142). -/
def runEdge (w h : Nat) (s : State) : State :=
  let s1 := writeLuma (w * h) (lumaSum s) s
  writeOut (4 * w * h) (edgeByte w h s1) s1

/-- EDGE (R140). -/
def execEdge (width height : Word) (s : State) : Host.Outcome State Fault Refusal :=
  .next (runChecked (checkGeometry s.params width height) (runEdge width.toNat height.toNat) s)

end Sys2Proof.Machine
end

