-- ==== Sys2Proof/Machine/FixedKernels.lean ====
section
/-! DEFINITION. The fixed-kernel filters BOX and SHARPEN (43_fixed_kernel_filters). -/
namespace Sys2Proof.Machine

/-- BOXW, the binary64 word nearest 1/25 (R131). -/
def boxWeight : DWord := 0x3FA47AE147AE147B#64

/-- The nine words of the Sharpen kernel by index (R133): 5 at the centre, -1 at the four orthogonal neighbours, +0 at
the corners. -/
def sharpenWeight (i : Nat) : DWord :=
  match i with
  | 1 => 0xBFF0000000000000#64
  | 3 => 0xBFF0000000000000#64
  | 4 => 0x4014000000000000#64
  | 5 => 0xBFF0000000000000#64
  | 7 => 0xBFF0000000000000#64
  | _ => 0x0000000000000000#64

/-- Write the 25 Box weights, then convolve with size 5 (R132). -/
def runBox (w h : Nat) (s : State) : State := conv w h 5 (writeCoef 25 (fun _ => boxWeight) s)

/-- Write the nine Sharpen weights, then convolve with size 3 (R134). -/
def runSharpen (w h : Nat) (s : State) : State := conv w h 3 (writeCoef 9 sharpenWeight s)

/-- BOX (R132). -/
def execBox (width height : Word) (s : State) : Host.Outcome State Fault Refusal :=
  .next (runChecked (checkGeometry s.params width height) (runBox width.toNat height.toNat) s)

/-- SHARPEN (R134). -/
def execSharpen (width height : Word) (s : State) : Host.Outcome State Fault Refusal :=
  .next (runChecked (checkGeometry s.params width height) (runSharpen width.toNat height.toNat) s)

end Sys2Proof.Machine
end

