-- ==== Sys2Proof/Machine/Grayscale.lean ====
section
/-! DEFINITION. The Grayscale Filter, the command GRAY (45_grayscale). -/
namespace Sys2Proof.Machine

/-- The byte of the result at index `a`: `ToByte((R+G+B)/3)` in R, G and B, the input's byte in A (R160). -/
def grayByte (s : State) (a : Nat) : Option Byte :=
  if channelOf a = 3 then s.inMem.get? a
  else
    let i := a / 4
    match s.inMem.get? (4 * i), s.inMem.get? (4 * i + 1), s.inMem.get? (4 * i + 2) with
    | some r, some g, some b => some (toByte (((r.toNat + g.toNat + b.toNat : Nat) : ℚ) / 3))
    | _, _, _ => none

/-- Write every byte of the result (R160). -/
def runGray (w h : Nat) (s : State) : State := writeOut (4 * w * h) (grayByte s) s

/-- GRAY (R160). -/
def execGray (width height : Word) (s : State) : Host.Outcome State Fault Refusal :=
  .next (runChecked (checkGeometry s.params width height) (runGray width.toNat height.toNat) s)

end Sys2Proof.Machine
end

