-- ==== Sys2Proof/Machine/Dispatch.lean ====
section
/-! DEFINITION. One arm per command: `exec` is the Engine's execution of a command, from its checks to its completion
(46_dispatcher R173, R174; 41_kernel_generator R90). -/
namespace Sys2Proof.Machine

/-- Execute a command. -/
def exec (i : Instr) (s : State) : Host.Outcome State Fault Refusal :=
  match i with
  | .identity w h => Sys2Proof.Machine.execIdentity w h s
  | .gaussian w h k g => Sys2Proof.Machine.execGaussian w h k g s
  | .box w h => Sys2Proof.Machine.execBox w h s
  | .sharpen w h => Sys2Proof.Machine.execSharpen w h s
  | .edge w h => Sys2Proof.Machine.execEdge w h s
  | .gray w h => Sys2Proof.Machine.execGray w h s
  | .unknown f w h => Sys2Proof.Machine.execUnknown f w h s
  | .genk k g => Sys2Proof.Machine.execGenk k g s
  | .nolaunch => Sys2Proof.Machine.execNolaunch s

end Sys2Proof.Machine
end

