-- ==== Sys2Proof/Machine/HostAccess.lean ====
section
/-! DEFINITION. The Host's accesses to the registers and the memories (10_state R14 to R26, 20_memory R46 to R51) and
the platform's reset (70_reset_and_hazards R220, R221). Launching is in Machine/Turn.lean. -/
namespace Sys2Proof.Machine

/-! ### Registers -/

/-- A register read: the register at an aligned 32-bit access to one of the eight offsets; 0 for CTRL, for a reserved
offset, and for a narrower, wider or misaligned access (10_state R14, R15, R22; 20_memory R47). -/
def regRead (offset size : Nat) (s : State) : Word :=
  if size = 4 then
    match offset with
    | 0x04 => s.status
    | 0x08 => s.fsel
    | 0x0C => s.width
    | 0x10 => s.height
    | 0x14 => s.ksize
    | 0x18 => s.sigmaLo
    | 0x1C => s.sigmaHi
    | _ => 0
  else 0

/-- A register write other than a launching one: the six parameter registers store the value; STATUS, CTRL, reserved
offsets and accesses that are not aligned 32-bit ones are unchanged (10_state R14 to R23, 20_memory R47). -/
def regWrite (offset size : Nat) (v : Word) (s : State) : State :=
  if size = 4 then
    match offset with
    | 0x08 => { s with fsel := v }
    | 0x0C => { s with width := v }
    | 0x10 => { s with height := v }
    | 0x14 => { s with ksize := v }
    | 0x18 => { s with sigmaLo := v }
    | 0x1C => { s with sigmaHi := v }
    | _ => s
  else s

/-- Record what a read returned. -/
def reply (r : Reply) (s : State) : State := { s with replies := r :: s.replies }

/-- The Host has seen STATUS: once a read returned DONE = 1 no command is pending and no result is open any more
(20_memory R51 item 2, 70 R230; log entry 6). The register itself is not changed by the read (10_state R23). -/
def observeStatus (s : State) : State :=
  { s with pending := s.pending && !s.done, earlier := if s.done then [] else s.earlier }

/-- A Host read of a register. Only an aligned 32-bit read of STATUS returns the DONE bit. -/
def hostRead (offset size : Nat) (s : State) : State :=
  if size = 4 ∧ offset = 0x04 then reply (.word s.status) (observeStatus s)
  else reply (.word (regRead offset size s)) s

/-! ### COEF -/

/-- A COEF access of 64 bits aligned to 8, or of 32 bits aligned to 4, below entry KMAX*KMAX (20_memory R47). -/
def coefAccess (p : Params) (index n : Nat) : Bool :=
  ((n == 8 && index % 8 == 0) || (n == 4 && index % 4 == 0)) && decide (index / 8 < p.coefEntries)

/-- Byte `j` of a 64-bit entry, byte 0 the low one (20_memory R46). -/
def byteOfEntry (b : DWord) (j : Nat) : Byte := b.extractLsb' (8 * j) 8

/-- The `k`-th byte of a Host read of COEF; `none` is any value: an access that 20_memory R47 does not give (log entry
12), or one before DONE is observed (20_memory R51 item 4, 70 R231). -/
def coefByte (index n : Nat) (s : State) (k : Nat) : Option Byte :=
  if !s.pending && coefAccess s.params index n then some (byteOfEntry (s.coefEntry (index / 8)) (index % 8 + k))
  else none

/-- The `n` bytes a Host read of COEF gives, the lowest first. -/
def coefBytes (index n : Nat) (s : State) : List Byte :=
  (List.range n).map fun k => (coefByte index n s k).getD (Config.anyByte s.draws k)

/-- A Host read of COEF, atomic whenever its value is defined (20_memory R48). -/
def hostLoadCoef (index n : Nat) (s : State) : State :=
  { reply (.bytes (coefBytes index n s)) s with draws := s.draws + 1 }

/-! ### One byte of IN or OUT -/

/-- The byte that a read of a sample memory gives at index `a`; `none` is any value: outside the space, or OUT before
DONE is observed (20_memory R47, R51 item 4; 70 R231). -/
def loadByte (mem : Samples) (a : Nat) (s : State) : Option Byte :=
  match mem with
  | .input => if a < s.params.sampleBytes then some (s.inByte a) else none
  | .output => if !s.pending && decide (a < s.params.sampleBytes) then some (s.outByte a) else none

/-- The byte a single-byte read returns. -/
def readByte (mem : Samples) (a : Nat) (s : State) : Byte := (loadByte mem a s).getD (Config.anyByte s.draws 0)

/-- A write at `index` touches IN[0 .. 4wh-1] of the filter command in flight (20_memory R51 item 5). -/
def breachesInFlight (index : Nat) (s : State) : Bool :=
  s.busy && s.pending && decide (s.desc.kind = .filter) && decide (index < resultBytes s)

/-- The byte of OUT at `a` was written by a command whose DONE the Host has not observed and whose input buffer holds
`index`. It is the latest such command that wrote the byte (70 R230, log entry 7). -/
def disturbs (index : Nat) (results : List Nat) (a : Nat) : Bool :=
  match results.find? fun n => decide (a < n) with
  | some n => decide (index < n)
  | none => false

/-- The effect of a write to IN at `index` on the results that stand in OUT: every byte that a command wrote there is any
value, if the write is to the command's input buffer and comes before a STATUS read has returned DONE = 1 (70 R230). -/
def disturbResults (index : Nat) (s : State) : State :=
  let results := openResults s
  if results.any fun n => decide (index < n) then
    { s with
      outMem := s.outMem.fill (min (results.foldr max 0) s.params.sampleBytes) fun a =>
        if disturbs index results a then some (Config.anyByte s.draws a) else s.outMem.get? a
      draws := s.draws + 1 }
  else s

/-- The effect of a write to IN at `index` on the command in flight, which is marked, and on the results that stand in OUT
(20_memory R51 item 5, 70 R230). -/
def disturb (index : Nat) (s : State) : State :=
  { disturbResults index s with race := s.race || breachesInFlight index s }

/-- A single-byte write to IN; beyond the space it has no effect (20_memory R47). -/
def storeByte (index : Nat) (b : Byte) (s : State) : State :=
  if index < s.params.sampleBytes then { disturb index s with inMem := s.inMem.write index b } else s

/-! ### Accesses to IN and OUT, byte by byte -/

/-- The write in progress after a byte, if bytes are left. -/
def storeRest (index : Nat) (left : List Byte) : Option Transfer :=
  match left with
  | [] => none
  | _ :: _ => some (.store index left)

/-- After a byte of a read: the reply when none is left, otherwise the read in progress. -/
def afterLoad (mem : Samples) (index left : Nat) (got : List Byte) (s : State) : State :=
  match left with
  | 0 => { reply (.bytes got) s with transfer := none }
  | _ + 1 => { s with transfer := some (.load mem index left got) }

/-- The next byte of an access: a wider access of `n` bytes is exactly the `n` single-byte accesses in rising order, and
other agents may move between them (20_memory R47, R48; log entries 11 and 17). An access of one byte or none ends at
once. -/
def advance (t : Transfer) (s : State) : State :=
  match t with
  | .store _ [] => { s with transfer := none }
  | .store index (b :: left) => { storeByte index b s with transfer := storeRest (index + 1) left }
  | .load mem index 0 got => afterLoad mem index 0 got s
  | .load mem index (left + 1) got =>
    afterLoad mem (index + 1) left (got ++ [readByte mem index s]) { s with draws := s.draws + 1 }

/-- A Host write begins: IN takes its first byte; OUT is read-only to the Host and ignores it (10_state R24, R25). -/
def hostStore (mem : Samples) (index : Nat) (bytes : List Byte) (s : State) : State :=
  match mem with
  | .input => advance (.store index bytes) s
  | .output => s

/-- A Host read begins. -/
def hostLoad (mem : Samples) (index n : Nat) (s : State) : State := advance (.load mem index n []) s

/-- One line of COPYBACK: a read of OUT[i], after which the write of the byte read to IN[i] is the Host's next move
(30_encoding R78). -/
def copyByteBack (index : Nat) (s : State) : State :=
  { hostLoad .output index 1 s with transfer := some (.store index [readByte .output index s]) }

/-- The next byte of the access in progress, if there is one. -/
def resumeTransfer (s : State) : State :=
  match s.transfer with
  | some t => advance t s
  | none => s

/-! ### Reset -/

/-- The platform's reset: every register takes its reset value, a command in flight is abandoned without completion,
and every memory becomes unspecified, with new free contents (70 R220, R221). The parameters stay; the Host's own moves,
its access in progress and what it has read are not the PFE's state and stay too (log entry 16). -/
def platformReset (s : State) : State :=
  { State.reset with
    params := s.params, inputs := s.inputs, transfer := s.transfer, replies := s.replies, draws := s.draws,
    resets := s.resets + 1 }

end Sys2Proof.Machine
end

