-- ==== Sys2Proof/Machine/Turn.lean ====
section
/-! DEFINITION. Whose move the next step is, and what it is: the Engine running the command in flight, or a move of the
Host or the platform (00_scope R5, 70 R236; log entry 9). -/
namespace Sys2Proof.Machine

/-- What one step does: run a command at a state, or move to a state. -/
inductive Turn where
  | run (i : Instr) (s : State)
  | move (s : State)
  deriving DecidableEq, Repr

/-- The Engine runs the command in flight; with none in flight it has no step (00_scope R5). -/
def engineTurn (s : State) : Turn :=
  match fetch s with
  | some i => .run i s
  | none => .move s

/-- A write of `v` to CTRL: dropped while BUSY (46_dispatcher R172); otherwise decoded with the parameter registers
(30_encoding R74): NOLAUNCH changes nothing, GENK and the filter commands are launched (10_state R15). -/
def ctrlTurn (v : Word) (s : State) : Turn :=
  if s.busy then .move s
  else
    match decode (wordsAt v s) with
    | .nolaunch => .run .nolaunch s
    | .genk _ _ => .move (launch .generate s)
    | _ => .move (launch .filter s)

/-- A Host transaction other than WAIT, at a state from whose inputs it has been taken. -/
def hostTurn (op : HostOp) (s : State) : Turn :=
  match op with
  | .wr offset size v => if size = 4 ∧ offset = 0x00 then ctrlTurn v s else .move (regWrite offset size v s)
  | .rd offset size => .move (hostRead offset size s)
  | .st mem index bytes => .move (hostStore mem index bytes s)
  | .ld mem index n => .move (hostLoad mem index n s)
  | .stCoef _ _ => .move s
  | .ldCoef index n => .move (hostLoadCoef index n s)
  | .wait => .move s
  | .copyByte index => .move (copyByteBack index s)

/-- WAIT ends when a STATUS read returns DONE = 1; until then the Host keeps reading and the Engine moves (30_encoding
R78, 70 R234). Only the read that ends it is recorded (log entry 15). -/
def waitTurn (rest : List Input) (s : State) : Turn :=
  if s.done then .move (hostRead 0x04 4 { s with inputs := rest }) else engineTurn s

/-- The Host's move when its next transaction is `op` and it has no access in progress. -/
def opTurn (op : HostOp) (rest : List Input) (s : State) : Turn :=
  match op with
  | .wait => waitTurn rest s
  | _ => hostTurn op { s with inputs := rest }

/-- The next step's move. The Host begins no transaction before its access in progress has ended; the Engine and the
platform may move between the bytes of one (20_memory R48). With no input left the Host ends its access, and then the
Engine moves if a command is in flight (70 R234: it keeps stepping). -/
def turn (s : State) : Turn :=
  match s.inputs with
  | .engine :: rest => engineTurn { s with inputs := rest }
  | .reset :: rest => .move (platformReset { s with inputs := rest })
  | .resume :: rest => .move (resumeTransfer { s with inputs := rest })
  | [] =>
    match s.transfer with
    | some t => .move (advance t s)
    | none => engineTurn s
  | .host op :: rest =>
    match s.transfer with
    | some t => .move (advance t s)
    | none => opTurn op rest s

end Sys2Proof.Machine
end

