-- ==== Sys2Proof/Machine/Step.lean ====
section
/-! DEFINITION. One step of the machine, and the state in which the very next step runs a given opcode-table word. -/
namespace Sys2Proof.Machine

/-- One step: the move that `turn` gives, a command run by `exec`. -/
def step (s : State) : Host.Outcome State Fault Refusal :=
  match turn s with
  | .run i t => exec i t
  | .move t => .next t

/-- The descriptor of a command's words, as a launch would have latched it (10_state R20). -/
def descriptorOf (c : CommandWords) (k : Kind) : Descriptor :=
  ⟨c.fsel, c.width, c.height, c.ksize, sigmaWord c.sigmaHi c.sigmaLo, k⟩

/-- `s` with the instruction of an opcode-table word as the next to run (30_encoding R80): a command is placed where the
Engine fetches it, in D, as in flight; a NOLAUNCH word is the Host's next write to CTRL, with the Engine idle and no
access of the Host in progress (log entry 13). -/
def State.withFetchWord (s : State) (nbits w : Nat) : State :=
  let c := tableWords nbits w
  match decode c with
  | .nolaunch =>
    { s with fsel := c.fsel, status := withBit 0 false s.status, inputs := [.host (.wr 0x00 4 c.launch)],
             transfer := none }
  | .genk _ _ => { beginCommand (descriptorOf c .generate) s with inputs := [], transfer := none }
  | _ => { beginCommand (descriptorOf c .filter) s with inputs := [], transfer := none }

end Sys2Proof.Machine
end

