-- ==== Sys2Proof/Machine/HostProgram.lean ====
section
/-! DEFINITION. The Host's notation: the Filter Spec encodings and the pseudo-commands as lists of moves
(30_encoding R77 to R79). -/
namespace Sys2Proof.Machine

/-- The source's Filter Spec (30_encoding R79). An unrecognised identifier is any selector from 6 up. -/
inductive FilterSpec where
  | identity
  | gaussian (kernelSize : Word) (sigma : DWord)
  | box
  | sharpen
  | edgeDetect
  | grayscale
  | unrecognised (selector : Word)
  deriving DecidableEq, Repr

/-- `WR reg, v` at the register's offset. -/
def wrReg (offset : Nat) (v : Word) : Input := .host (.wr offset 4 v)

/-- `START` (30_encoding R77). -/
def startMove : Input := wrReg 0x00 0x00000001#32
/-- `GENK` (30_encoding R77). -/
def genkMove : Input := wrReg 0x00 0x00000002#32

/-- The two writes of a sigma word (30_encoding R78, R79). -/
def sigmaMoves (sigma : DWord) : List Input :=
  [wrReg 0x18 (sigma.extractLsb' 0 32), wrReg 0x1C (sigma.extractLsb' 32 32)]

/-- The register writes that encode a Filter Spec (30_encoding R79). -/
def specMoves (f : FilterSpec) : List Input :=
  match f with
  | .identity => [wrReg 0x08 0]
  | .gaussian k s => [wrReg 0x08 1, wrReg 0x14 k] ++ sigmaMoves s
  | .box => [wrReg 0x08 2]
  | .sharpen => [wrReg 0x08 3]
  | .edgeDetect => [wrReg 0x08 4]
  | .grayscale => [wrReg 0x08 5]
  | .unrecognised u => [wrReg 0x08 u]

/-- `APPLY spec, w, h` (30_encoding R78). -/
def applyMoves (f : FilterSpec) (w h : Word) : List Input :=
  [wrReg 0x0C w, wrReg 0x10 h] ++ specMoves f ++ [startMove, .host .wait]

/-- `GENKERNEL size, sigma` (30_encoding R78). -/
def genKernelMoves (size : Word) (sigma : DWord) : List Input :=
  [wrReg 0x14 size] ++ sigmaMoves sigma ++ [genkMove, .host .wait]

/-- `COPYBACK w, h` (30_encoding R78). -/
def copyBackMoves (w h : Nat) : List Input :=
  (List.range (4 * w * h)).map fun i => .host (.copyByte i)

end Sys2Proof.Machine
end

