-- ==== Sys2Proof/Machine/ReferenceKernel.lean ====
section
/-! DEFINITION. The reference realisation of GaussKernel in rounded binary64 arithmetic (41_kernel_generator R100),
over a named exponential `exp64` (R101). The machine does not use it: `Config.gaussKernel` is any function within the
contract (R92), of which this is one. -/
namespace Sys2Proof.Machine

/-- The word of a rational result rounded to nearest, ties to even, if it is finite (log entries 19 and 21). -/
def rounded (q : ℚ) : Option DWord :=
  let b := fl64 q
  if isFinite64 b then some b else none

/-- `a ⊗ b`. -/
def mul64 (a b : DWord) : Option DWord :=
  match val64 a, val64 b with
  | some x, some y => rounded (x * y)
  | _, _ => none

/-- `a ⊘ b`. -/
def div64 (a b : DWord) : Option DWord :=
  match val64 a, val64 b with
  | some x, some y => if y = 0 then none else rounded (x / y)
  | _, _ => none

/-- `a ⊕ b`. -/
def add64 (a b : DWord) : Option DWord :=
  match val64 a, val64 b with
  | some x, some y => rounded (x + y)
  | _, _ => none

/-- `PI64 = fl64(π)` (R100). -/
def pi64 : DWord := 0x400921FB54442D18#64
/-- 2.0. -/
def two64 : DWord := 0x4000000000000000#64

/-- The unnormalised value of the cell at squared distance `d2`: `exp64((-d2) ⊘ (2.0 ⊗ s2)) ⊘ den` (R100). -/
def refValue (exp64 : DWord → DWord) (s2 den : DWord) (d2 : Nat) : Option DWord := do
  let twoS2 ← mul64 two64 s2
  let e ← div64 (fl64 (-(d2 : ℚ))) twoS2
  div64 (exp64 e) den

/-- The rounded running sum of the values, from +0.0, in the order of the list (R100). -/
def runningSum (acc : DWord) (vs : List DWord) : Option DWord :=
  match vs with
  | [] => some acc
  | v :: r => (add64 acc v).bind fun a => runningSum a r

/-- All the results of a list, if every one is defined. -/
def allDefined {α : Type} (l : List (Option α)) : Option (List α) :=
  match l with
  | [] => some []
  | none :: _ => none
  | some a :: r => (allDefined r).map fun b => a :: b

/-- GaussKernelRef as written, in row-major order; none where an operation has no finite result (R100). -/
def gaussKernelRef (exp64 : DWord → DWord) (size : Nat) (sigma : DWord) : Option (List DWord) := do
  let s2 ← mul64 sigma sigma
  let twoPi ← mul64 two64 pi64
  let den ← mul64 twoPi s2
  let vs ← allDefined ((List.range size).flatMap fun y => (List.range size).map fun x =>
    refValue exp64 s2 den (dist2 size x y))
  let acc ← runningSum 0 vs
  allDefined (vs.map fun v => div64 v acc)

/-- The special case of a tiny sigma: the centre weight 1, all others +0 (R100). -/
def tinySigmaKernel (size : Nat) : List DWord :=
  (List.range (size * size)).map fun i => if i = size / 2 * size + size / 2 then 0x3FF0000000000000#64 else 0

/-- The special case of a huge sigma: every weight `fl64(1/(size*size))` (R100). -/
def hugeSigmaKernel (size : Nat) : List DWord := List.replicate (size * size) (fl64 (1 / (size * size : Nat)))

/-- The reference realisation with the special cases that R100 gives for the sigmas that the PFE accepts and the
realisation as written is not made for: below `2^-500` and above `2^500`. That they begin exactly at the two ends of the
range is the model's choice (DESIGN CHOICE, log entry 19). None for a sigma that is not finite and positive. -/
def referenceKernel (exp64 : DWord → DWord) (size : Nat) (sigma : DWord) : Option (List DWord) :=
  match val64 sigma with
  | none => none
  | some σ =>
    if σ ≤ 0 then none
    else if σ < scaleTwo 1 (-500) then some (tinySigmaKernel size)
    else if scaleTwo 1 500 < σ then some (hugeSigmaKernel size)
    else gaussKernelRef exp64 size sigma

/-- The conditions on `exp64` (R101): 1 at both zeros, results in [0,1], monotone, and within one unit in the last
place of the real exponential (within `2^-1074` for subnormal results). The text does not say at which value's exponent
the unit is taken: here it is that of the result `exp64(e)`, which differs from that of the real `exp(e)` at a power of
two (DESIGN CHOICE, log entry 19). -/
structure Exp64Conditions (exp64 : DWord → DWord) : Prop where
  atPlusZero : exp64 0x0000000000000000#64 = 0x3FF0000000000000#64
  atMinusZero : exp64 0x8000000000000000#64 = 0x3FF0000000000000#64
  range : ∀ (b : DWord) (e : ℚ), val64 b = some e → e ≤ 0 → ∃ q, val64 (exp64 b) = some q ∧ 0 ≤ q ∧ q ≤ 1
  monotone : ∀ (a b : DWord) (d e : ℚ), val64 a = some d → val64 b = some e → d ≤ e → e ≤ 0 →
    ∀ p q, val64 (exp64 a) = some p → val64 (exp64 b) = some q → p ≤ q
  accurate : ∀ (b : DWord) (e : ℚ), val64 b = some e → e ≤ 0 → ∀ q, val64 (exp64 b) = some q →
    |(q : ℝ) - Real.exp e| ≤ (scaleTwo 1 ((biasedExp (exp64 b) : Int) - 1075) : ℚ) ∨
      (biasedExp (exp64 b) = 0 ∧ |(q : ℝ) - Real.exp e| ≤ (scaleTwo 1 (-1074) : ℚ))

end Sys2Proof.Machine
end

