-- ==== Sys2Proof/Safety.lean ====
section
/-! DEFINITION. What the claims about the machine are stated in: the invariant of every step, what a command leaves
unchanged, when a sample is defined, and what STATUS says at a command's end. -/
namespace Sys2Proof.Machine

/-- The only values STATUS can hold (10_state R16). -/
def statusLegal (st : Word) : Bool :=
  st == 0x00000000#32 || st == 0x00000001#32 || st == 0x00000002#32 ||
    st == 0x00000106#32 || st == 0x00000206#32 || st == 0x00000306#32

/-- What holds in every state the machine reaches, and what every step keeps. -/
structure State.Inv (s : State) : Prop where
  /-- KMAX is odd and at least 5 (00_scope R3). -/
  params : s.params.valid = true
  /-- The memories are in canonical form and within their spaces (20_memory R40). -/
  inWf : s.inMem.wf = true
  inBelow : s.inMem.below s.params.sampleBytes = true
  outWf : s.outMem.wf = true
  outBelow : s.outMem.below s.params.sampleBytes = true
  coefWf : s.coef.wf = true
  coefBelow : s.coef.below s.params.coefEntries = true
  lumaWf : s.luma.wf = true
  lumaBelow : s.luma.below s.params.capPix = true
  /-- Every word the Engine writes to COEF is a finite binary64 value (10_state R26). -/
  coefFinite : s.coef.all (fun c => isFinite64 c.2) = true
  /-- Each LUMA entry is an integer in [0,765] (10_state R28). -/
  lumaRange : s.luma.all (fun c => decide (c.2.toNat ≤ 765)) = true
  /-- STATUS holds one of its six values (10_state R16). -/
  status : statusLegal s.status = true
  /-- A command in flight is one whose DONE the Host has not observed. -/
  pendingOfBusy : s.busy = true → s.pending = true
  /-- A command whose DONE the Host has not observed is in flight or completed. -/
  launchedOfPending : s.pending = true → s.busy = true ∨ s.done = true
  /-- No result is open once the Host has observed DONE (70 R230). -/
  closedOfObserved : s.pending = false → s.earlier = []

/-- The byte of IN at `a` holds a defined value (10_state R30, 70 R238). -/
def State.definedAt (s : State) (a : Nat) : Prop := (s.inMem.get? a).isSome = true

/-- `in(x,y,c)` as an integer, for a buffer of width `w` (00_scope R6). -/
def State.sample (s : State) (w x y c : Nat) : Nat := (s.inByte (idx w x y c)).toNat

/-- The whole buffer of `w` by `h` pixels is defined (70 R222). -/
def State.bufferDefined (s : State) (w h : Nat) : Prop := ∀ a, a < 4 * w * h → s.definedAt a

/-- A completion without fault: BUSY is 0, DONE is 1, and every other bit of STATUS is as before
(46_dispatcher R174). -/
def CompletedStatus (s t : State) : Prop :=
  busyOf t.status = false ∧ doneOf t.status = true ∧ ∀ i, 2 ≤ i → t.status.getLsbD i = s.status.getLsbD i

/-- What no command changes: the machine's parameters, the parameter registers, D, IN, and the Host's side (10_state R14,
R24). -/
structure CommandKeeps (s t : State) : Prop where
  params : t.params = s.params
  fsel : t.fsel = s.fsel
  width : t.width = s.width
  height : t.height = s.height
  ksize : t.ksize = s.ksize
  sigmaLo : t.sigmaLo = s.sigmaLo
  sigmaHi : t.sigmaHi = s.sigmaHi
  desc : t.desc = s.desc
  input : ∀ a, t.inMem.get? a = s.inMem.get? a
  inputs : t.inputs = s.inputs
  transfer : t.transfer = s.transfer
  replies : t.replies = s.replies
  pending : t.pending = s.pending
  race : t.race = s.race
  earlier : t.earlier = s.earlier
  resets : t.resets = s.resets

/-- OUT is unchanged from index `n` up. -/
def OutKeptFrom (n : Nat) (s t : State) : Prop := ∀ a, n ≤ a → t.outByte a = s.outByte a
/-- COEF is unchanged from entry `n` up. -/
def CoefKeptFrom (n : Nat) (s t : State) : Prop := ∀ i, n ≤ i → t.coefEntry i = s.coefEntry i
/-- LUMA is unchanged from entry `n` up. -/
def LumaKeptFrom (n : Nat) (s t : State) : Prop := ∀ i, n ≤ i → t.luma.get? i = s.luma.get? i

/-- The registers and memories of the PFE, and its parameters, are the same in both states (10_state R10). -/
def SamePfe (s t : State) : Prop :=
  t.status = s.status ∧ t.fsel = s.fsel ∧ t.width = s.width ∧ t.height = s.height ∧ t.ksize = s.ksize ∧
    t.sigmaLo = s.sigmaLo ∧ t.sigmaHi = s.sigmaHi ∧ t.desc = s.desc ∧ t.inMem = s.inMem ∧ t.outMem = s.outMem ∧
    t.coef = s.coef ∧ t.luma = s.luma ∧ t.resets = s.resets ∧ t.params = s.params

/-- The Host's access in progress goes on when these moves are the next: the Host's turn, or none left. -/
def HostContinues (l : List Input) : Prop :=
  match l with
  | [] => True
  | .host _ :: _ => True
  | .resume :: _ => True
  | .engine :: _ => False
  | .reset :: _ => False

/-- The moves left after the next byte of an access in progress. -/
def afterByte (l : List Input) : List Input :=
  match l with
  | .resume :: r => r
  | [] => []
  | .host op :: r => .host op :: r
  | .engine :: r => .engine :: r
  | .reset :: r => .reset :: r

/-- The next step is the write of the first of `bytes` to IN at `index`, with the moves `l` to come after it: as the
first byte of a transaction or a later byte of one in progress (20_memory R47, R48). -/
def NextStore (s : State) (index : Nat) (bytes : List Byte) (l : List Input) : Prop :=
  (s.transfer = none ∧ s.inputs = .host (.st .input index bytes) :: l) ∨
    (s.transfer = some (.store index bytes) ∧ HostContinues s.inputs ∧ afterByte s.inputs = l)

/-- The next step is the read of a sample memory at `index`, with `n` bytes to read and `got` read before it, and the
moves `l` to come after it. -/
def NextLoad (s : State) (mem : Samples) (index n : Nat) (got : List Byte) (l : List Input) : Prop :=
  (s.transfer = none ∧ got = [] ∧ s.inputs = .host (.ld mem index n) :: l) ∨
    (s.transfer = some (.load mem index n got) ∧ HostContinues s.inputs ∧ afterByte s.inputs = l)

/-- No other agent moves before the Host's access has ended: the moves left are none, or a Host transaction is next. -/
def HostNext (l : List Input) : Prop := l = [] ∨ ∃ op r, l = .host op :: r

/-- The command is one launched by START (30_encoding R70), with the dimensions of its buffer. -/
def isFilter (i : Instr) (w h : Word) : Prop :=
  match i with
  | .identity a b => a = w ∧ b = h
  | .gaussian a b _ _ => a = w ∧ b = h
  | .box a b => a = w ∧ b = h
  | .sharpen a b => a = w ∧ b = h
  | .edge a b => a = w ∧ b = h
  | .gray a b => a = w ∧ b = h
  | .unknown _ a b => a = w ∧ b = h
  | .genk _ _ => False
  | .nolaunch => False

/-- The image in `t` is the transpose of the `w` by `h` image in `s` (20_memory R43). -/
def TransposedInput (w h : Nat) (s t : State) : Prop :=
  ∀ x y c, x < w → y < h → c < 4 → t.inMem.get? (idx h y x c) = s.inMem.get? (idx w x y c)

/-- A coordinate clamped to `0 .. n-1` (42_convolution_engine R113). -/
def edgeClamp (v : Int) (n : Nat) : Nat := (clampi v 0 ((n : Int) - 1)).toNat

/-- `R + G + B` of the pixel `(x,y)` (44_edge_detector R141). -/
def State.rgbSum (s : State) (w x y : Nat) : Nat := s.sample w x y 0 + s.sample w x y 1 + s.sample w x y 2

/-- The command ends by InvalidParameter with sub-code `c`: STATUS is the only thing that changes; BUSY is 0, DONE and
ERR are 1, ECODE is `c`, and its reserved bits are as before (60_exceptions R194). -/
def EndsInFault (i : Instr) (s : State) (c : Byte) : Prop :=
  ∃ st : Word, exec i s = .next { s with status := st } ∧ busyOf st = false ∧ doneOf st = true ∧ errOf st = true ∧
    ecodeField st = c ∧ ∀ j, 3 ≤ j ∧ j < 8 ∨ 16 ≤ j → st.getLsbD j = s.status.getLsbD j

/-- The kernel size is one that a PFE with these parameters accepts (60_exceptions R192). -/
def GoodSize (p : Params) (k : Word) : Prop := k.toNat % 2 = 1 ∧ k.toNat ≤ p.kmax

/-- Sigma is a finite positive binary64 value (60_exceptions R191, R192). -/
def GoodSigma (g : DWord) : Prop := ∃ q : ℚ, val64 g = some q ∧ 0 < q

/-- The weight of a word, for words that are finite (10_state R27). -/
def weightOf (b : DWord) : ℚ := (val64 b).getD 0

/-- The command with WIDTH and HEIGHT exchanged (20_memory R43). -/
def transposed (i : Instr) : Instr :=
  match i with
  | .identity w h => .identity h w
  | .gaussian w h k g => .gaussian h w k g
  | .box w h => .box h w
  | .sharpen w h => .sharpen h w
  | .edge w h => .edge h w
  | .gray w h => .gray h w
  | .unknown f w h => .unknown f h w
  | .genk k g => .genk k g
  | .nolaunch => .nolaunch

/-- The command a Filter Spec stands for (30_encoding R79). -/
def FilterSpec.command (f : FilterSpec) (w h : Word) : Instr :=
  match f with
  | .identity => .identity w h
  | .gaussian k g => .gaussian w h k g
  | .box => .box w h
  | .sharpen => .sharpen w h
  | .edgeDetect => .edge w h
  | .grayscale => .gray w h
  | .unrecognised u => .unknown u w h

/-- An unrecognised identifier is encoded by a selector from 6 up (30_encoding R79). -/
def FilterSpec.Encodable (f : FilterSpec) : Prop :=
  match f with
  | .unrecognised u => 6 ≤ u.toNat
  | .identity => True
  | .gaussian _ _ => True
  | .box => True
  | .sharpen => True
  | .edgeDetect => True
  | .grayscale => True

end Sys2Proof.Machine
end

