-- ==== Sys2Proof/Certificates/Slice0/Obligations.lean ====
section
/-! DEFINITION. The claims about the PFE model, for the provers. Each docstring says what it formalises. -/
open Sys2Proof Sys2Proof.Machine

/-! ### Encoding -/

/-- 30_encoding R80: the 38 rows of the opcode table are pairwise disjoint, together cover every 64-bit pattern, and
the decoder reads from a pattern the command that its row names. -/
def Obligations.OpcodeRowsPartitionAllPatterns : Prop :=
  opcodeRows.length = 38 ∧ ∀ w : Nat, w < 2 ^ 64 →
    ∃ r ∈ opcodeRows, r.covers w = true ∧ (∀ r' ∈ opcodeRows, r'.covers w = true → r' = r) ∧
      ∃ i, decodeTableWord 64 w = some i ∧ i.mnemonic = r.mnemonic

/-- 30_encoding R72, R74: what every value of the launch word and the descriptor words decodes to. -/
def Obligations.DecodeByLaunchWordAndSelector : Prop :=
  ∀ c : CommandWords,
    (c.launch.getLsbD 0 = true →
      (c.fsel.toNat = 0 → decode c = .identity c.width c.height) ∧
      (c.fsel.toNat = 1 → decode c = .gaussian c.width c.height c.ksize (c.sigmaHi ++ c.sigmaLo)) ∧
      (c.fsel.toNat = 2 → decode c = .box c.width c.height) ∧
      (c.fsel.toNat = 3 → decode c = .sharpen c.width c.height) ∧
      (c.fsel.toNat = 4 → decode c = .edge c.width c.height) ∧
      (c.fsel.toNat = 5 → decode c = .gray c.width c.height) ∧
      (6 ≤ c.fsel.toNat → decode c = .unknown c.fsel c.width c.height)) ∧
    (c.launch.getLsbD 0 = false → c.launch.getLsbD 1 = true → decode c = .genk c.ksize (c.sigmaHi ++ c.sigmaLo)) ∧
    (c.launch.getLsbD 0 = false → c.launch.getLsbD 1 = false → decode c = .nolaunch)

/-- Decoding the bytes of the encoding of a well-formed command gives the command back, for every operand value. (The
byte form of a whole command is the model's choice, log entry 13.) -/
def Obligations.DecodeBytesOfEncodeIsTheCommand : Prop :=
  ∀ i : Instr, i.wellFormed = true → decodeBytes (bytesOfWords (encode i)) = .ok i

/-- Every decoded command is well formed, and its encoding decodes to it: what `encode` leaves out of the words is
nothing that the command reads. -/
def Obligations.DecodedCommandsAreWellFormed : Prop :=
  ∀ c : CommandWords, (decode c).wellFormed = true ∧ decode (encode (decode c)) = decode c

/-- Some decode results of the derived vectors (95_test_vectors section 2.2), as table patterns: FSEL in bits 63:32,
the CTRL value in bits 31:0. (That the five words to which a pattern gives no bits are 0, whence the operand values 0, is
the model's choice, log entry 13.) -/
def Obligations.DecodeOfWrittenOutPatterns : Prop :=
  decodeTableWord 64 0x0000000000000001 = some (.identity 0 0) ∧
  decodeTableWord 64 0x0000000100000001 = some (.gaussian 0 0 0 0) ∧
  decodeTableWord 64 0x0000000200000003 = some (.box 0 0) ∧
  decodeTableWord 64 0x0000000300000001 = some (.sharpen 0 0) ∧
  decodeTableWord 64 0x0000000400000001 = some (.edge 0 0) ∧
  decodeTableWord 64 0x00000005FFFFFFFF = some (.gray 0 0) ∧
  decodeTableWord 64 0x8000000200000001 = some (.unknown 0x80000002#32 0 0) ∧
  decodeTableWord 64 0x00000002FFFFFFFE = some (.genk 0 0) ∧
  decodeTableWord 64 0x00000000FFFFFFFC = some .nolaunch

/-! ### Steps, launches and completions -/

/-- A step runs the decoded command: the command in flight when it is the Engine's move, a NOLAUNCH word when it is
written to CTRL with the Engine idle, and the word that `withFetchWord` placed. (Whose move it is is the interface of log
entry 9; an access of the Host in progress ends before its next transaction, log entry 11; where `withFetchWord` places a
word is log entry 13.) -/
def Obligations.StepRunsTheFetchedCommand : Prop :=
  (∀ (s : State) (i : Instr), fetch s = some i →
    (s.transfer = none → s.inputs = [] → step s = exec i s) ∧
    (∀ rest, s.inputs = .engine :: rest → step s = exec i { s with inputs := rest }) ∧
    (∀ rest, s.transfer = none → s.inputs = .host .wait :: rest → s.done = false → step s = exec i s)) ∧
  (∀ (s : State) (v : Word) (rest : List Input), s.busy = false → s.transfer = none →
    s.inputs = .host (.wr 0x00 4 v) :: rest → decode (wordsAt v s) = .nolaunch → step s = exec .nolaunch { s with inputs := rest }) ∧
  (∀ (s : State) (w : Nat) (i : Instr), w < 2 ^ 64 → decodeTableWord 64 w = some i →
    step (s.withFetchWord 64 w) =
      exec i (if i = .nolaunch then { s.withFetchWord 64 w with inputs := [] } else s.withFetchWord 64 w))

/-- 46_dispatcher R171: an accepted launch is one step; it latches the registers into D, sets STATUS, and changes
nothing else of the PFE; the command then in flight is the one that the launch word and the registers encode, and the
Engine's next move executes it. (That the move is used up is the interface of log entry 9.) -/
def Obligations.LaunchLatchesTheDescriptor : Prop :=
  ∀ (s : State) (v : Word) (rest : List Input), s.busy = false →
    (v.getLsbD 0 = true ∨ v.getLsbD 1 = true) → s.transfer = none → s.inputs = .host (.wr 0x00 4 v) :: rest →
    ∃ t, step s = .next t ∧
      t.desc = ⟨s.fsel, s.width, s.height, s.ksize, s.sigmaHi ++ s.sigmaLo,
        if v.getLsbD 0 then .filter else .generate⟩ ∧
      busyOf t.status = true ∧ doneOf t.status = false ∧ errOf t.status = false ∧ ecodeField t.status = 0 ∧
      (∀ j, 3 ≤ j ∧ j < 8 ∨ 16 ≤ j → t.status.getLsbD j = s.status.getLsbD j) ∧
      SamePfe s { t with status := s.status, desc := s.desc } ∧
      fetch t = some (decode ⟨v, s.fsel, s.width, s.height, s.ksize, s.sigmaLo, s.sigmaHi⟩) ∧
      (∀ r, step { t with inputs := .engine :: r } =
        exec (decode ⟨v, s.fsel, s.width, s.height, s.ksize, s.sigmaLo, s.sigmaHi⟩) { t with inputs := r }) ∧
      t.inputs = rest

/-- 46_dispatcher R172: a write to CTRL while BUSY = 1 changes nothing. -/
def Obligations.CtrlWriteWhileBusyIsDropped : Prop :=
  ∀ (s : State) (v : Word) (rest : List Input), s.busy = true → s.transfer = none →
    s.inputs = .host (.wr 0x00 4 v) :: rest → step s = .next { s with inputs := rest }

/-- 30_encoding R75: a CTRL write with bits 1:0 = 00 changes no state, as a command and as a step. -/
def Obligations.NolaunchChangesNoState : Prop :=
  (∀ s : State, exec .nolaunch s = .next s) ∧
  ∀ (s : State) (v : Word) (rest : List Input), v.getLsbD 0 = false → v.getLsbD 1 = false →
    s.transfer = none → s.inputs = .host (.wr 0x00 4 v) :: rest → step s = .next { s with inputs := rest }

/-- 46_dispatcher R174: every launched command reaches exactly one of the two ends. In flight STATUS is 1; it becomes 2,
or 0x106, 0x206 or 0x306 with nothing else changed. -/
def Obligations.EveryCommandReachesOneEnd : Prop :=
  ∀ (i : Instr) (s : State), i ≠ .nolaunch → s.status = 0x00000001#32 →
    ∃ t, exec i s = .next t ∧ CommandKeeps s t ∧
      (t.status = 0x00000002#32 ∨
        (t.status = 0x00000106#32 ∨ t.status = 0x00000206#32 ∨ t.status = 0x00000306#32) ∧
          t = { s with status := t.status })

/-- 60_exceptions R193, R194: the checks of a command, in order; the first that fails is the one reported, and STATUS is
the only state that changes. -/
def Obligations.FirstFailingCheckIsReported : Prop :=
  ∀ s : State,
    (∀ (i : Instr) (w h : Word), isFilter i w h → s.params.capPix < w.toNat * h.toNat → EndsInFault i s 3) ∧
    (∀ (w h k : Word) (g : DWord), w.toNat * h.toNat ≤ s.params.capPix → ¬ GoodSize s.params k →
      EndsInFault (.gaussian w h k g) s 1) ∧
    (∀ (w h k : Word) (g : DWord), w.toNat * h.toNat ≤ s.params.capPix → GoodSize s.params k → ¬ GoodSigma g →
      EndsInFault (.gaussian w h k g) s 2) ∧
    (∀ (k : Word) (g : DWord), ¬ GoodSize s.params k → EndsInFault (.genk k g) s 1) ∧
    (∀ (k : Word) (g : DWord), GoodSize s.params k → ¬ GoodSigma g → EndsInFault (.genk k g) s 2)

/-- 30_encoding R78, 70_reset_and_hazards R231, R234: a WAIT on a command in flight ends: one step of the Engine completes
the command and one STATUS read returns DONE = 1. A WAIT that begins with DONE already 1 is that one read. The read ends the
time in which results are not readable. A WAIT with no command in flight and DONE 0 waits on. (WAIT as a move is log entry
15; the marks `pending` and `earlier` are log entries 6 and 7.) -/
def Obligations.WaitEndsAfterTheCommand : Prop :=
  (∀ (s : State) (rest : List Input), s.busy = true → s.done = false → s.transfer = none →
    s.inputs = .host .wait :: rest →
    ∃ t u, step s = .next t ∧ step t = .next u ∧ t.busy = false ∧ t.done = true ∧ u.inputs = rest ∧
      u.replies = .word t.status :: s.replies ∧ u.pending = false ∧ u.earlier = [] ∧ SamePfe t u) ∧
  (∀ (s : State) (rest : List Input), s.done = true → s.transfer = none → s.inputs = .host .wait :: rest →
    ∃ u, step s = .next u ∧ u.inputs = rest ∧ u.replies = .word s.status :: s.replies ∧ u.pending = false ∧
      u.earlier = [] ∧ u.race = s.race ∧ u.transfer = none ∧ SamePfe s u) ∧
  (∀ (s : State) (rest : List Input), s.busy = false → s.done = false → s.transfer = none →
    s.inputs = .host .wait :: rest → step s = .next s)

/-- 30_encoding R78, R79: from an idle PFE, the moves of APPLY before its WAIT put in flight exactly the command of the
Filter Spec, and change nothing in the memories. -/
def Obligations.ApplyLaunchesTheFilterSpec : Prop :=
  ∀ (f : FilterSpec) (w h : Word) (s : State), f.Encodable → s.busy = false → s.transfer = none →
    s.inputs = applyMoves f w h →
    ∃ n t, core.run n s = .next t ∧ t.inputs = [.host .wait] ∧ fetch t = some (f.command w h) ∧
      t.inMem = s.inMem ∧ t.outMem = s.outMem ∧ t.coef = s.coef ∧ t.luma = s.luma

/-- 30_encoding R78: from an idle PFE, the moves of GENKERNEL before its WAIT put GENK in flight with the given size and
sigma, and change nothing in the memories. -/
def Obligations.GenKernelLaunchesTheGenerator : Prop :=
  ∀ (size : Word) (sigma : DWord) (s : State), s.busy = false → s.transfer = none →
    s.inputs = genKernelMoves size sigma →
    ∃ n t, core.run n s = .next t ∧ t.inputs = [.host .wait] ∧ fetch t = some (.genk size sigma) ∧
      t.inMem = s.inMem ∧ t.outMem = s.outMem ∧ t.coef = s.coef ∧ t.luma = s.luma

/-- 30_encoding R78: one line of COPYBACK, with no command pending, reads OUT[i], and then the write of that byte to IN[i]
is the Host's next move; the two make IN[i] the byte of OUT[i] and change nothing else of the PFE. -/
def Obligations.CopyBackLineCopiesOneByte : Prop :=
  ∀ (s : State) (i : Nat) (rest : List Input), s.pending = false → i < s.params.sampleBytes → s.transfer = none →
    s.inputs = .host (.copyByte i) :: rest →
    ∃ u, step s = .next u ∧ SamePfe s u ∧ u.replies = .bytes [s.outByte i] :: s.replies ∧ u.inputs = rest ∧
      u.transfer = some (.store i [s.outByte i]) ∧
      (HostNext rest → ∃ t, step u = .next t ∧ t.inByte i = s.outByte i ∧ (∀ a, a ≠ i → t.inByte a = s.inByte a) ∧
        SamePfe s { t with inMem := s.inMem } ∧ t.inputs = rest ∧ t.transfer = none)

/-- 00_scope R5: the Engine has no step while no command is in flight; with no move left and no access of the Host in
progress the machine stays as it is. -/
def Obligations.IdleEngineHasNoStep : Prop :=
  ∀ s : State, s.busy = false → (s.transfer = none → s.inputs = [] → step s = .next s) ∧
    ∀ rest, s.inputs = .engine :: rest → step s = .next { s with inputs := rest }

/-! ### Reset and the invariant -/

/-- 10_state R30: after reset every register is 0, the Engine is idle and no memory holds a defined value; a byte or
entry then reads as the unspecified contents. (That these contents are free values of the reset counter `resets` and the
index, as the last clause says, is the model's reading, log entry 3.) -/
def Obligations.ResetLeavesRegistersZeroAndMemoriesUndefined : Prop :=
  State.reset.status = 0 ∧ State.reset.fsel = 0 ∧ State.reset.width = 0 ∧ State.reset.height = 0 ∧
  State.reset.ksize = 0 ∧ State.reset.sigmaLo = 0 ∧ State.reset.sigmaHi = 0 ∧
  (∀ o, regRead o 4 State.reset = 0) ∧ fetch State.reset = none ∧
  (∀ a, State.reset.inMem.get? a = none ∧ State.reset.outMem.get? a = none ∧ State.reset.coef.get? a = none ∧
    State.reset.luma.get? a = none) ∧
  (∀ a, State.reset.inByte a = Config.resetIn State.reset.resets a ∧
    State.reset.outByte a = Config.resetOut State.reset.resets a ∧
    State.reset.coefEntry a = Config.resetCoef State.reset.resets a)

/-- 70_reset_and_hazards R220, R221: the platform's reset from any state, a command in flight included: every register
0, the Engine idle, DONE 0, no memory holding a defined value (10_state R30): every byte and entry then reads as new
unspecified contents. (The new contents are free values counted by `resets`, log entry 3; that CAP_PIX and KMAX, which
00_scope R3 calls parameters of the machine, stay is log entry 16.) -/
def Obligations.PlatformResetFromAnyState : Prop :=
  ∀ (s : State) (rest : List Input), s.inputs = .reset :: rest →
    ∃ t, step s = .next t ∧ t.status = 0 ∧ t.fsel = 0 ∧ t.width = 0 ∧ t.height = 0 ∧ t.ksize = 0 ∧
      t.sigmaLo = 0 ∧ t.sigmaHi = 0 ∧ fetch t = none ∧ t.params = s.params ∧
      ∀ a, t.inMem.get? a = none ∧ t.outMem.get? a = none ∧ t.coef.get? a = none ∧ t.luma.get? a = none ∧
        t.inByte a = Config.resetIn (s.resets + 1) a ∧ t.outByte a = Config.resetOut (s.resets + 1) a ∧
        t.coefEntry a = Config.resetCoef (s.resets + 1) a

/-- 70_reset_and_hazards R223: right after reset, START runs IDENTITY on an empty buffer, writes nothing and completes
with STATUS 2; GENK faults with code 1, whatever the parameters of the machine are. (`pending` and `draws` are the
model's own fields, log entries 4 and 6.) -/
def Obligations.LaunchesRightAfterReset : Prop :=
  ∀ (d : Nat) (p : Params),
    core.run 2 { State.reset with inputs := [startMove, .engine], draws := d, params := p } =
        .next { State.reset with
          params := p, status := 0x00000002#32, desc := ⟨0, 0, 0, 0, 0, .filter⟩, pending := true, draws := d + 1 } ∧
    core.run 2 { State.reset with inputs := [genkMove, .engine], draws := d, params := p } =
        .next { State.reset with
          params := p, status := 0x00000106#32, desc := ⟨0, 0, 0, 0, 0, .generate⟩, pending := true, draws := d }

/-- The invariant holds right after reset, with the default parameters (log entry 1) and with every others that 00_scope
R3 allows. (That no command is pending and no result open at reset is log entries 6 and 7.) -/
def Obligations.ResetMeetsTheInvariant : Prop :=
  State.reset.Inv ∧ ∀ p : Params, p.kmax % 2 = 1 → 5 ≤ p.kmax → ({ State.reset with params := p } : State).Inv

/-- Every step answers a next state, and from a state that meets the invariant one that meets it: the memories stay in
canonical form and within their spaces (20_memory R40), COEF holds finite words (10_state R26), LUMA sums (R28), and
STATUS one of its six values (R16). No step changes the machine's parameters (00_scope R3). -/
def Obligations.EveryStepKeepsTheInvariant : Prop :=
  ∀ s : State, s.Inv → ∃ t, step s = .next t ∧ t.Inv ∧ t.params = s.params

/-! ### Registers and Host accesses -/

/-- 10_state R14, R17 to R19, R21: a parameter register reads back what was written, and the write changes nothing else: no
other register, no memory, not the command in flight or its result (R20, R23; 70_reset_and_hazards R233), nothing of the
Host's side but that the move is used up. -/
def Obligations.ParameterRegistersReadBack : Prop :=
  ∀ (s : State) (o : Nat) (v : Word) (rest : List Input), o ∈ [0x08, 0x0C, 0x10, 0x14, 0x18, 0x1C] →
    s.transfer = none → s.inputs = .host (.wr o 4 v) :: rest →
    ∃ t, step s = .next t ∧ regRead o 4 t = v ∧ (∀ o', o' ≠ o → regRead o' 4 t = regRead o' 4 s) ∧
      fetch t = fetch s ∧ t.desc = s.desc ∧ t.inMem = s.inMem ∧ t.outMem = s.outMem ∧ t.coef = s.coef ∧
      t.luma = s.luma ∧ t.params = s.params ∧ t.resets = s.resets ∧ t.race = s.race ∧ t.pending = s.pending ∧
      t.earlier = s.earlier ∧ t.transfer = s.transfer ∧ t.replies = s.replies ∧ t.draws = s.draws ∧ t.inputs = rest

/-- 10_state R14, R15, R22, R23; 20_memory R47: STATUS ignores writes, CTRL reads as 0, and an access to a reserved
offset or of a width other than 32 bits reads 0 and writes nothing. -/
def Obligations.OtherRegisterAccessesHaveNoEffect : Prop :=
  (∀ (s : State) (v : Word) (rest : List Input), s.transfer = none → s.inputs = .host (.wr 0x04 4 v) :: rest →
    step s = .next { s with inputs := rest }) ∧
  (∀ (s : State) (o n : Nat) (v : Word) (rest : List Input),
    n ≠ 4 ∨ o ∉ [0x00, 0x04, 0x08, 0x0C, 0x10, 0x14, 0x18, 0x1C] → s.transfer = none →
    s.inputs = .host (.wr o n v) :: rest → step s = .next { s with inputs := rest }) ∧
  (∀ (s : State) (o n : Nat) (rest : List Input),
    n ≠ 4 ∨ o ∉ [0x04, 0x08, 0x0C, 0x10, 0x14, 0x18, 0x1C] → s.transfer = none →
    s.inputs = .host (.rd o n) :: rest → step s = .next { s with inputs := rest, replies := .word 0 :: s.replies })

/-- 10_state R14, R23; 20_memory R47, R48; 30_encoding R77: what every Host read records, and that it changes no register
and no memory. A register read records the register; a read of IN or OUT that no other agent interrupts records its
bytes, lowest index first, one step for each; a read of COEF records the bytes that `coefBytes` gives. (One free value is
drawn for each byte of IN or OUT and one group for COEF, log entry 4.) -/
def Obligations.HostReadsChangeNoPfeState : Prop :=
  (∀ (s : State) (o n : Nat) (rest : List Input), s.transfer = none → s.inputs = .host (.rd o n) :: rest →
    ∃ t, step s = .next t ∧ SamePfe s t ∧ t.replies = .word (regRead o n s) :: s.replies ∧ t.inputs = rest ∧
      t.transfer = none ∧ t.race = s.race) ∧
  (∀ s : State, [0x00, 0x04, 0x08, 0x0C, 0x10, 0x14, 0x18, 0x1C].map (fun o => regRead o 4 s) =
    [0, s.status, s.fsel, s.width, s.height, s.ksize, s.sigmaLo, s.sigmaHi]) ∧
  (∀ (s : State) (i n : Nat) (rest : List Input), s.transfer = none → s.inputs = .host (.ldCoef i n) :: rest →
    ∃ t, step s = .next t ∧ SamePfe s t ∧ t.replies = .bytes (coefBytes i n s) :: s.replies ∧ t.inputs = rest ∧
      t.transfer = none ∧ t.race = s.race ∧ t.pending = s.pending ∧ t.earlier = s.earlier) ∧
  (∀ (s : State) (m : Samples) (i n : Nat) (rest : List Input), s.transfer = none →
    s.inputs = .host (.ld m i n) :: rest → HostNext rest →
    ∃ t, core.run (max 1 n) s = .next t ∧ SamePfe s t ∧
      t.replies = .bytes ((List.range n).map fun k =>
        (loadByte m (i + k) s).getD (Config.anyByte (s.draws + k) 0)) :: s.replies ∧
      t.inputs = rest ∧ t.transfer = none ∧ t.race = s.race ∧ t.pending = s.pending ∧ t.earlier = s.earlier)

/-- 20_memory R47, R48: a wide access to IN or OUT is its single-byte accesses in rising order and is not atomic. Each step
of a read takes one byte as it stands then; between two bytes the Engine may run a command and the platform may reset the
PFE, and the access stays in progress. (The form of an access in progress, and that it outlives a reset of the PFE, are the
model's choices, log entries 11 and 16; that the bytes come in rising order is log entry 17.) -/
def Obligations.WideAccessesAreNotAtomic : Prop :=
  (∀ (s : State) (m : Samples) (i n : Nat) (got : List Byte) (l : List Input), NextLoad s m i (n + 1) got l →
    ∃ t, step s = .next t ∧ SamePfe s t ∧ t.inputs = l ∧ t.race = s.race ∧ t.pending = s.pending ∧
      (n = 0 → t.replies = .bytes (got ++ [readByte m i s]) :: s.replies ∧ t.transfer = none) ∧
      (n ≠ 0 → t.replies = s.replies ∧ t.transfer = some (.load m (i + 1) n (got ++ [readByte m i s])))) ∧
  (∀ (s : State) (rest : List Input), s.inputs = .engine :: rest ∨ s.inputs = .reset :: rest →
    ∃ t, step s = .next t ∧ t.transfer = s.transfer ∧ t.inputs = rest) ∧
  (∀ (s : State) (x : Transfer) (op : HostOp) (rest : List Input), s.transfer = some x → s.inputs = .host op :: rest →
    ∃ t, step s = .next t ∧ t.inputs = s.inputs)

/-- 10_state R25, R26: a Host write to OUT or COEF has no effect. -/
def Obligations.HostWritesToOutAndCoefAreIgnored : Prop :=
  ∀ (s : State) (i : Nat) (bs : List Byte) (rest : List Input) (op : HostOp),
    op = .st .output i bs ∨ op = .stCoef i bs → s.transfer = none → s.inputs = .host op :: rest →
    step s = .next { s with inputs := rest }

/-- 20_memory R47, 10_state R24: each byte of a Host write to IN is a write of its own. It stores the byte if it lies in the
space, has no effect otherwise, and changes no other byte of IN, nor any register, COEF or LUMA. A write that no other
agent interrupts stores all its bytes that lie in the space. (The form of an access in progress is log entry 11, the
rising order of its bytes log entry 17.) -/
def Obligations.InputStoreThenLoad : Prop :=
  (∀ (s : State) (i : Nat) (b : Byte) (bs : List Byte) (l : List Input), NextStore s i (b :: bs) l →
    ∃ t, step s = .next t ∧ (i < s.params.sampleBytes → t.inByte i = b) ∧
      (s.params.sampleBytes ≤ i → SamePfe s t) ∧ (∀ a, a ≠ i → t.inByte a = s.inByte a) ∧
      SamePfe s { t with inMem := s.inMem, outMem := s.outMem } ∧
      (s.pending = false → t.outMem = s.outMem ∧ t.race = s.race) ∧
      t.inputs = l ∧ t.transfer = (if bs = [] then none else some (.store (i + 1) bs)) ∧ t.replies = s.replies) ∧
  (∀ (s : State) (i : Nat) (bs : List Byte) (rest : List Input), s.transfer = none →
    s.inputs = .host (.st .input i bs) :: rest → HostNext rest →
    ∃ t, core.run (max 1 bs.length) s = .next t ∧
      (∀ a, a < s.params.sampleBytes → i ≤ a → ∀ b, bs[a - i]? = some b → t.inByte a = b) ∧
      (∀ a, a < i ∨ i + bs.length ≤ a → t.inByte a = s.inByte a) ∧
      (i + bs.length ≤ s.params.sampleBytes →
        ((List.range bs.length).map fun k => loadByte .input (i + k) t) = bs.map some) ∧
      SamePfe s { t with inMem := s.inMem, outMem := s.outMem } ∧
      (s.pending = false → t.outMem = s.outMem ∧ t.race = s.race) ∧ t.inputs = rest ∧ t.transfer = none)

/-- 20_memory R46, R51 item 3: with no command pending a 64-bit read of a COEF entry gives its eight bytes, the low one
first, and a 32-bit read of a half gives its four, and a read of OUT gives the byte that stands there; a read of IN does
so at any time. -/
def Obligations.IdleOutAndCoefReadAsStored : Prop :=
  (∀ s : State, s.pending = false →
    (∀ i, i < s.params.coefEntries → ∃ b0 b1 b2 b3 b4 b5 b6 b7 : Byte,
      coefBytes (8 * i) 8 s = [b0, b1, b2, b3, b4, b5, b6, b7] ∧
      coefBytes (8 * i) 4 s = [b0, b1, b2, b3] ∧ coefBytes (8 * i + 4) 4 s = [b4, b5, b6, b7] ∧
      b7 ++ b6 ++ b5 ++ b4 ++ b3 ++ b2 ++ b1 ++ b0 = s.coefEntry i) ∧
    (∀ a, a < s.params.sampleBytes → loadByte .output a s = some (s.outByte a))) ∧
  (∀ (s : State) (a : Nat), a < s.params.sampleBytes → loadByte .input a s = some (s.inByte a)) ∧
  (∀ (s : State) (m : Samples) (a : Nat) (b : Byte) (rest : List Input), s.transfer = none →
    s.inputs = .host (.ld m a 1) :: rest → loadByte m a s = some b →
    ∃ t, step s = .next t ∧ t.replies = .bytes [b] :: s.replies)

/-- 20_memory R51 items 2 and 4, R47: an accepted launch begins the time in which results read as any value; the STATUS
read that returns DONE = 1 ends it, and one that returns DONE = 0 does not. In that time a read of OUT or COEF records free
values, and so does at any time a read outside a space or a misaligned read of COEF. (The mark `pending` is the model's,
log entry 6; a free value is `Config.anyByte` of the draw counter, log entry 4; COEF reads of widths other than 32 and 64
bits are log entry 12.) -/
def Obligations.StatusReadReleasesTheResults : Prop :=
  (∀ (s : State) (v : Word) (rest : List Input), s.busy = false → (v.getLsbD 0 = true ∨ v.getLsbD 1 = true) →
    s.transfer = none → s.inputs = .host (.wr 0x00 4 v) :: rest →
    ∃ t, step s = .next t ∧ t.pending = true ∧ t.race = false) ∧
  (∀ (s : State) (rest : List Input), s.transfer = none → s.inputs = .host (.rd 0x04 4) :: rest →
    ∃ t, step s = .next t ∧ t.replies = .word s.status :: s.replies ∧ SamePfe s t ∧
      (s.done = true → t.pending = false) ∧ (s.done = false → t.pending = s.pending)) ∧
  (∀ (s : State) (m : Samples) (a : Nat) (rest : List Input), s.transfer = none →
    s.inputs = .host (.ld m a 1) :: rest → (m = .output ∧ s.pending = true) ∨ s.params.sampleBytes ≤ a →
    ∃ t, step s = .next t ∧ t.replies = .bytes [Config.anyByte s.draws 0] :: s.replies ∧ SamePfe s t) ∧
  (∀ (s : State) (i n : Nat) (rest : List Input), s.transfer = none → s.inputs = .host (.ldCoef i n) :: rest →
    s.pending = true ∨ 8 * s.params.coefEntries ≤ i ∨ (n = 8 ∧ i % 8 ≠ 0) ∨ (n = 4 ∧ i % 4 ≠ 0) ∨ (n ≠ 4 ∧ n ≠ 8) →
    ∃ t, step s = .next t ∧ t.replies = .bytes ((List.range n).map fun k => Config.anyByte s.draws k) :: s.replies ∧
      SamePfe s t)

/-- 20_memory R51 item 5, 70_reset_and_hazards R230: a Host write to a byte of IN[0 .. 4wh-1] while a filter command is in
flight marks its result as disturbed and leaves the command in flight; a write to IN at or above byte 4wh, or while GENK
is in flight, does not disturb the command. Every byte that a disturbed command writes to OUT is any value; a disturbed
command differs from an undisturbed one in the bytes OUT[0 .. 4wh-1] alone. With no command in flight a write to IN changes
bytes of OUT[0 .. 4wh-1] and of earlier results alone. (The mark `race`, and the time after completion, are log entry 7; a
free value is `Config.anyByte` of the draw counter, log entry 4. What a write does to earlier results is the next
statement.) -/
def Obligations.InputRaceAffectsOnlyTheResult : Prop :=
  (∀ (s : State) (i : Nat) (b : Byte) (bs : List Byte) (l : List Input), s.busy = true → s.pending = true →
    s.desc.kind = .filter → i < 4 * s.desc.width.toNat * s.desc.height.toNat → i < s.params.sampleBytes →
    NextStore s i (b :: bs) l →
    ∃ t, step s = .next t ∧ t.race = true ∧ fetch t = fetch s ∧ t.status = s.status ∧ t.coef = s.coef ∧
      ((∀ n ∈ s.earlier, n ≤ i) → t.outMem = s.outMem)) ∧
  (∀ (s : State) (i : Nat) (b : Byte) (bs : List Byte) (l : List Input), s.busy = true →
    4 * s.desc.width.toNat * s.desc.height.toNat ≤ i ∨ s.desc.kind = .generate → NextStore s i (b :: bs) l →
    ∃ t, step s = .next t ∧ t.race = s.race ∧ fetch t = fetch s ∧ t.status = s.status ∧ t.coef = s.coef ∧
      ((∀ n ∈ s.earlier, n ≤ i) → t.outMem = s.outMem)) ∧
  (∀ (s : State) (i : Nat) (b : Byte) (bs : List Byte) (l : List Input), s.busy = false →
    NextStore s i (b :: bs) l →
    ∃ t, step s = .next t ∧ t.race = s.race ∧ t.status = s.status ∧ t.coef = s.coef ∧ t.luma = s.luma ∧
      ((∀ n ∈ s.earlier, n ≤ i) → s.err = true → t.outMem = s.outMem) ∧
      ∀ a, 4 * s.desc.width.toNat * s.desc.height.toNat ≤ a → (∀ n ∈ s.earlier, n ≤ a) → t.outByte a = s.outByte a) ∧
  (∀ (i : Instr) (w h : Word) (s : State), isFilter i w h → s.race = true →
    ∃ t, exec i s = .next t ∧
      (errOf t.status = false → ∀ a, a < 4 * w.toNat * h.toNat → t.outByte a = Config.anyByte s.draws a)) ∧
  (∀ (i : Instr) (w h : Word) (s : State), isFilter i w h →
    ∃ t u, exec i { s with race := false } = .next t ∧ exec i { s with race := true } = .next u ∧
      u.status = t.status ∧ u.coef = t.coef ∧ u.luma = t.luma ∧ u.inMem = t.inMem ∧
      ∀ a, 4 * w.toNat * h.toNat ≤ a → u.outByte a = t.outByte a)

/-- 70_reset_and_hazards R230: the time in which a write to a command's input buffer makes its result any value runs to a
STATUS read of DONE = 1, also when another command is launched before that read. A launch adds the result of the completed
command before it to those that are open, if that was a filter command without fault; a write to IN at `i` makes every byte
any value that an open result of more than `i` bytes holds in OUT, and leaves every other byte of OUT; the STATUS read
that returns DONE = 1 closes them all, and one that returns DONE = 0 none. (A byte that two open results cover belongs to
the later one, which wrote it last; the list is the model's, log entry 7.) -/
def Obligations.EarlierResultsAreOpenUntilDoneIsRead : Prop :=
  (∀ s : State, s.pending = true →
    (s.busy = true ∨ s.err = true ∨ s.desc.kind = .generate → openResults s = s.earlier) ∧
    (s.busy = false → s.err = false → s.desc.kind = .filter →
      openResults s = 4 * s.desc.width.toNat * s.desc.height.toNat :: s.earlier)) ∧
  (∀ (s : State) (v : Word) (rest : List Input), s.busy = false → (v.getLsbD 0 = true ∨ v.getLsbD 1 = true) →
    s.transfer = none → s.inputs = .host (.wr 0x00 4 v) :: rest →
    ∃ t, step s = .next t ∧ (s.pending = true → t.earlier = openResults s) ∧ (s.pending = false → t.earlier = [])) ∧
  (∀ (s : State) (i : Nat) (b : Byte) (bs : List Byte) (l : List Input), s.pending = true → i < s.params.sampleBytes →
    NextStore s i (b :: bs) l →
    ∃ t, step s = .next t ∧ t.earlier = s.earlier ∧
      (∀ a n, a < s.params.sampleBytes → ((openResults s).find? fun m => decide (a < m)) = some n →
        t.outByte a = if i < n then Config.anyByte s.draws a else s.outByte a) ∧
      ∀ a, (∀ n ∈ openResults s, n ≤ a) → t.outByte a = s.outByte a) ∧
  (∀ (s : State) (rest : List Input), s.transfer = none → s.inputs = .host (.rd 0x04 4) :: rest →
    ∃ t, step s = .next t ∧ (s.done = true → t.pending = false ∧ t.earlier = []) ∧
      (s.done = false → t.pending = s.pending ∧ t.earlier = s.earlier))

/-- 20_memory R51 items 2 and 4, 70_reset_and_hazards R230, R231: from a launch on, only a STATUS read that returns DONE = 1
(a WAIT's included) and the platform's reset end the time in which results read as any value and are open to writes of their
input buffers: every other step keeps a command pending and keeps every open result in its place. (The marks are the
model's, log entries 6 and 7.) -/
def Obligations.OnlyADoneReadOrAResetClosesResults : Prop :=
  ∀ s : State, s.pending = true → (∀ rest, s.inputs ≠ .reset :: rest) →
    (s.done = true → s.transfer = none → ∀ rest, s.inputs ≠ .host (.rd 0x04 4) :: rest ∧ s.inputs ≠ .host .wait :: rest) →
    ∃ t, step s = .next t ∧ t.pending = true ∧ ∃ l, openResults t = l ++ openResults s

/-! ### Numbers -/

/-- 10_state R27: the rational value of a binary64 word. -/
def Obligations.BinaryWordValue : Prop :=
  ∀ b : DWord,
    let sgn : ℚ := if b.getLsbD 63 then -1 else 1
    let e : Nat := (b.extractLsb' 52 11).toNat
    let f : Nat := (b.extractLsb' 0 52).toNat
    (e = 0x7FF → val64 b = none) ∧
    (1 ≤ e → e ≤ 0x7FE → val64 b = some (sgn * (2 : ℚ) ^ ((e : Int) - 1075) * (2 ^ 52 + f))) ∧
    (e = 0 → val64 b = some (sgn * (2 : ℚ) ^ (-1074 : Int) * f))

/-- 60_exceptions R192: the bit test of sigma accepts exactly the finite positive values. -/
def Obligations.SigmaValidExactlyWhenPositive : Prop :=
  ∀ b : DWord, sigmaValid b = true ↔ ∃ q : ℚ, val64 b = some q ∧ 0 < q

/-- 00_scope R6, 42_convolution_engine R117: `rne` gives a nearest integer, and the even one of two equally near. -/
def Obligations.RoundingIsToNearestTiesToEven : Prop :=
  ∀ q : ℚ, |q - (rne q : ℚ)| ≤ 1 / 2 ∧ (|q - (rne q : ℚ)| = 1 / 2 → rne q % 2 = 0)

/-- 42_convolution_engine R116: ToByte is monotone, and rounding and clamping commute. -/
def Obligations.ToByteIsMonotoneAndClampCommutes : Prop :=
  (∀ p q : ℚ, p ≤ q → (toByte p).toNat ≤ (toByte q).toNat) ∧
  ∀ q : ℚ, ((toByte q).toNat : Int) = rne (max 0 (min q 255))

/-- 00_scope R6: `isqrt(n)` is the greatest `r` with `r*r <= n`. -/
def Obligations.IntegerSquareRootIsGreatest : Prop :=
  ∀ n : Nat, isqrt n * isqrt n ≤ n ∧ ∀ r : Nat, r * r ≤ n → r ≤ isqrt n

/-- 44_edge_detector R146, R147: the edge magnitude is `min(255, (isqrt(4N) + 3) div 6)` with `N = GX² + GY²`; it is the
real magnitude `sqrt(N)/3` rounded to nearest and saturated at 255, which is never half way between two integers; it is
255 exactly when `N >= 582933`. -/
def Obligations.EdgeMagnitudeIsTheRoundedNorm : Prop :=
  ∀ gx gy : Int,
    (Real.sqrt ((gx : ℝ) ^ 2 + (gy : ℝ) ^ 2) / 3 < 509 / 2 →
      |((edgeMagnitude gx gy).toNat : ℝ) - Real.sqrt ((gx : ℝ) ^ 2 + (gy : ℝ) ^ 2) / 3| < 1 / 2) ∧
    (509 / 2 < Real.sqrt ((gx : ℝ) ^ 2 + (gy : ℝ) ^ 2) / 3 → (edgeMagnitude gx gy).toNat = 255) ∧
    (∀ n : Int, Real.sqrt ((gx : ℝ) ^ 2 + (gy : ℝ) ^ 2) / 3 ≠ n + 1 / 2) ∧
    (edgeMagnitude gx gy).toNat = min 255 ((Nat.sqrt (4 * (gx ^ 2 + gy ^ 2).toNat) + 3) / 6) ∧
    ((edgeMagnitude gx gy).toNat = 255 ↔ 582933 ≤ gx ^ 2 + gy ^ 2)

/-- 45_grayscale R161: `ToByte(S/3) = rne(S/3) = (S + 1) div 3` for every sum of three samples. -/
def Obligations.GrayRounding : Prop :=
  ∀ S : Nat, S ≤ 765 → rne ((S : ℚ) / 3) = ((S + 1) / 3 : Nat) ∧ (toByte ((S : ℚ) / 3)).toNat = (S + 1) / 3

/-! ### The commands -/

/-- 20_memory R49 (the writes), 10_state R14, R24: what each command changes. None changes a parameter register, D, IN
or the Host's side; outside the range it writes every byte of OUT and entry of COEF and LUMA reads as before. -/
def Obligations.CommandsWriteOnlyTheirFootprint : Prop :=
  ∀ (s : State) (w h k f : Word) (g : DWord),
    (∃ t, exec (.identity w h) s = .next t ∧ CommandKeeps s t ∧ OutKeptFrom (4 * w.toNat * h.toNat) s t ∧
      CoefKeptFrom 0 s t ∧ LumaKeptFrom 0 s t) ∧
    (∃ t, exec (.unknown f w h) s = .next t ∧ CommandKeeps s t ∧ OutKeptFrom (4 * w.toNat * h.toNat) s t ∧
      CoefKeptFrom 0 s t ∧ LumaKeptFrom 0 s t) ∧
    (∃ t, exec (.gray w h) s = .next t ∧ CommandKeeps s t ∧ OutKeptFrom (4 * w.toNat * h.toNat) s t ∧
      CoefKeptFrom 0 s t ∧ LumaKeptFrom 0 s t) ∧
    (∃ t, exec (.gaussian w h k g) s = .next t ∧ CommandKeeps s t ∧ OutKeptFrom (4 * w.toNat * h.toNat) s t ∧
      CoefKeptFrom (k.toNat * k.toNat) s t ∧ LumaKeptFrom 0 s t) ∧
    (∃ t, exec (.box w h) s = .next t ∧ CommandKeeps s t ∧ OutKeptFrom (4 * w.toNat * h.toNat) s t ∧
      CoefKeptFrom 25 s t ∧ LumaKeptFrom 0 s t) ∧
    (∃ t, exec (.sharpen w h) s = .next t ∧ CommandKeeps s t ∧ OutKeptFrom (4 * w.toNat * h.toNat) s t ∧
      CoefKeptFrom 9 s t ∧ LumaKeptFrom 0 s t) ∧
    (∃ t, exec (.edge w h) s = .next t ∧ CommandKeeps s t ∧ OutKeptFrom (4 * w.toNat * h.toNat) s t ∧
      CoefKeptFrom 0 s t ∧ LumaKeptFrom (w.toNat * h.toNat) s t) ∧
    (∃ t, exec (.genk k g) s = .next t ∧ CommandKeeps s t ∧ OutKeptFrom 0 s t ∧
      CoefKeptFrom (k.toNat * k.toNat) s t ∧ LumaKeptFrom 0 s t) ∧
    exec .nolaunch s = .next s

/-- 46_dispatcher R176, R178: IDENTITY, and every unknown selector, faults on an oversized buffer and otherwise
completes with OUT a copy of IN byte for byte. -/
def Obligations.IdentityAndUnknownCopyTheBuffer : Prop :=
  ∀ (w h f : Word) (s : State) (i : Instr), i = .identity w h ∨ i = .unknown f w h →
    (s.params.capPix < w.toNat * h.toNat → EndsInFault i s 3) ∧
    (w.toNat * h.toNat ≤ s.params.capPix →
      ∃ t, exec i s = .next t ∧ CompletedStatus s t ∧ CommandKeeps s t ∧
        (s.race = false → ∀ a, a < 4 * w.toNat * h.toNat → s.definedAt a → t.outByte a = s.inByte a) ∧
        OutKeptFrom (4 * w.toNat * h.toNat) s t ∧ CoefKeptFrom 0 s t ∧ LumaKeptFrom 0 s t)

/-- 45_grayscale R160, R161: GRAY faults on an oversized buffer and otherwise completes with `(S+1) div 3` in R, G and
B and the input's alpha. -/
def Obligations.GrayStoresTheRoundedMean : Prop :=
  ∀ (w h : Word) (s : State),
    (s.params.capPix < w.toNat * h.toNat → EndsInFault (.gray w h) s 3) ∧
    (w.toNat * h.toNat ≤ s.params.capPix →
      ∃ t, exec (.gray w h) s = .next t ∧ CompletedStatus s t ∧ CommandKeeps s t ∧
        (s.race = false → ∀ x y, x < w.toNat → y < h.toNat →
          ((∀ c, c < 3 → s.definedAt (idx w.toNat x y c)) →
            ∀ c, c < 3 → (t.outByte (idx w.toNat x y c)).toNat = (s.rgbSum w.toNat x y + 1) / 3) ∧
          (s.definedAt (idx w.toNat x y 3) → t.outByte (idx w.toNat x y 3) = s.inByte (idx w.toNat x y 3))) ∧
        OutKeptFrom (4 * w.toNat * h.toNat) s t ∧ CoefKeptFrom 0 s t ∧ LumaKeptFrom 0 s t)

/-- 45_grayscale R162: GRAY is idempotent. Run on its own output it changes nothing. -/
def Obligations.GrayIsIdempotent : Prop :=
  ∀ (w h : Word) (s s2 : State), w.toNat * h.toNat ≤ s.params.capPix → s2.params = s.params →
    s.race = false → s2.race = false → s.bufferDefined w.toNat h.toNat →
    ∃ t, exec (.gray w h) s = .next t ∧
      ((∀ a, a < 4 * w.toNat * h.toNat → s2.inMem.get? a = some (t.outByte a)) →
        ∃ t2, exec (.gray w h) s2 = .next t2 ∧ ∀ a, a < 4 * w.toNat * h.toNat → t2.outByte a = t.outByte a)

/-- 43_fixed_kernel_filters R132: BOX faults on an oversized buffer; otherwise it writes BOXW to COEF[0..24], stores
`(2S + 25) div 50` of the 25 clamped samples in R, G and B, copies alpha, and completes. -/
def Obligations.BoxStoresTheRoundedMeanOfTwentyFive : Prop :=
  ∀ (w h : Word) (s : State),
    (s.params.capPix < w.toNat * h.toNat → EndsInFault (.box w h) s 3) ∧
    (w.toNat * h.toNat ≤ s.params.capPix →
      ∃ t, exec (.box w h) s = .next t ∧ CompletedStatus s t ∧ CommandKeeps s t ∧
        (∀ i, i < 25 → t.coefEntry i = 0x3FA47AE147AE147B#64) ∧
        (s.race = false → ∀ x y, x < w.toNat → y < h.toNat →
          (∀ c, c < 3 →
            (∀ kx ky : Nat, kx < 5 → ky < 5 →
              s.definedAt (idx w.toNat (edgeClamp (x + kx - 2) w.toNat) (edgeClamp (y + ky - 2) h.toNat) c)) →
            (t.outByte (idx w.toNat x y c)).toNat =
              (2 * (∑ ky ∈ Finset.range 5, ∑ kx ∈ Finset.range 5,
                s.sample w.toNat (edgeClamp (x + kx - 2) w.toNat) (edgeClamp (y + ky - 2) h.toNat) c) + 25) / 50) ∧
          (s.definedAt (idx w.toNat x y 3) → t.outByte (idx w.toNat x y 3) = s.inByte (idx w.toNat x y 3))) ∧
        OutKeptFrom (4 * w.toNat * h.toNat) s t ∧ CoefKeptFrom 25 s t ∧ LumaKeptFrom 0 s t)

/-- 43_fixed_kernel_filters R133, R134, R135: SHARPEN faults on an oversized buffer; otherwise it writes its nine words
to COEF, stores `clampi(5p - n - s - w - e, 0, 255)` with clamped neighbours, copies alpha, and completes. (That the byte
is definite although a corner sample, whose tap has weight 0, is unwritten is the model's reading of 70_reset_and_hazards
R238, log entry 5.) -/
def Obligations.SharpenStoresTheClampedDifference : Prop :=
  ∀ (w h : Word) (s : State),
    (s.params.capPix < w.toNat * h.toNat → EndsInFault (.sharpen w h) s 3) ∧
    (w.toNat * h.toNat ≤ s.params.capPix →
      ∃ t, exec (.sharpen w h) s = .next t ∧ CompletedStatus s t ∧ CommandKeeps s t ∧
        ((List.range 9).map t.coefEntry =
          [0x0000000000000000#64, 0xBFF0000000000000#64, 0x0000000000000000#64, 0xBFF0000000000000#64,
           0x4014000000000000#64, 0xBFF0000000000000#64, 0x0000000000000000#64, 0xBFF0000000000000#64,
           0x0000000000000000#64]) ∧
        (s.race = false → ∀ x y, x < w.toNat → y < h.toNat →
          (∀ c, c < 3 →
            s.definedAt (idx w.toNat x y c) →
            s.definedAt (idx w.toNat x (edgeClamp (y - 1) h.toNat) c) →
            s.definedAt (idx w.toNat x (edgeClamp (y + 1) h.toNat) c) →
            s.definedAt (idx w.toNat (edgeClamp (x - 1) w.toNat) y c) →
            s.definedAt (idx w.toNat (edgeClamp (x + 1) w.toNat) y c) →
            ((t.outByte (idx w.toNat x y c)).toNat : Int) =
              clampi (5 * (s.sample w.toNat x y c : Int)
                - s.sample w.toNat x (edgeClamp (y - 1) h.toNat) c - s.sample w.toNat x (edgeClamp (y + 1) h.toNat) c
                - s.sample w.toNat (edgeClamp (x - 1) w.toNat) y c - s.sample w.toNat (edgeClamp (x + 1) w.toNat) y c)
                0 255) ∧
          (s.definedAt (idx w.toNat x y 3) → t.outByte (idx w.toNat x y 3) = s.inByte (idx w.toNat x y 3))) ∧
        OutKeptFrom (4 * w.toNat * h.toNat) s t ∧ CoefKeptFrom 9 s t ∧ LumaKeptFrom 0 s t)

/-- 46_dispatcher R177, 42_convolution_engine R111, R112: GAUSSIAN checks the geometry, the size and sigma in that
order; with all three good it writes the words of GaussKernel to COEF, stores ToByte of the weighted sum of the clamped
samples, copies alpha, and completes. -/
def Obligations.GaussianStoresTheWeightedSum : Prop :=
  ∀ (w h k : Word) (g : DWord) (s : State),
    (s.params.capPix < w.toNat * h.toNat → EndsInFault (.gaussian w h k g) s 3) ∧
    (w.toNat * h.toNat ≤ s.params.capPix → ¬ GoodSize s.params k → EndsInFault (.gaussian w h k g) s 1) ∧
    (w.toNat * h.toNat ≤ s.params.capPix → GoodSize s.params k → ¬ GoodSigma g →
      EndsInFault (.gaussian w h k g) s 2) ∧
    (w.toNat * h.toNat ≤ s.params.capPix → GoodSize s.params k → GoodSigma g →
      ∃ t, exec (.gaussian w h k g) s = .next t ∧ CompletedStatus s t ∧ CommandKeeps s t ∧
        (∀ i, i < k.toNat * k.toNat → t.coefEntry i = Config.gaussKernel.words k.toNat g i) ∧
        (s.race = false → ∀ x y, x < w.toNat → y < h.toNat →
          (∀ c, c < 3 →
            (∀ kx ky : Nat, kx < k.toNat → ky < k.toNat →
              s.definedAt (idx w.toNat (edgeClamp (x + kx - (k.toNat / 2 : Nat)) w.toNat)
                (edgeClamp (y + ky - (k.toNat / 2 : Nat)) h.toNat) c)) →
            t.outByte (idx w.toNat x y c) =
              toByte (∑ ky ∈ Finset.range k.toNat, ∑ kx ∈ Finset.range k.toNat,
                weightOf (Config.gaussKernel.words k.toNat g (ky * k.toNat + kx)) *
                  (s.sample w.toNat (edgeClamp (x + kx - (k.toNat / 2 : Nat)) w.toNat)
                    (edgeClamp (y + ky - (k.toNat / 2 : Nat)) h.toNat) c : ℚ))) ∧
          (s.definedAt (idx w.toNat x y 3) → t.outByte (idx w.toNat x y 3) = s.inByte (idx w.toNat x y 3))) ∧
        OutKeptFrom (4 * w.toNat * h.toNat) s t ∧ CoefKeptFrom (k.toNat * k.toNat) s t ∧ LumaKeptFrom 0 s t)

/-- 46_dispatcher R177 (corner case), 41_kernel_generator R98: with size 1 GAUSSIAN leaves OUT equal to IN. -/
def Obligations.GaussianOfSizeOneCopiesTheBuffer : Prop :=
  ∀ (w h : Word) (g : DWord) (s : State), w.toNat * h.toNat ≤ s.params.capPix → GoodSize s.params 1 → GoodSigma g →
    s.race = false → s.bufferDefined w.toNat h.toNat →
    ∃ t, exec (.gaussian w h 1 g) s = .next t ∧ t.coefEntry 0 = 0x3FF0000000000000#64 ∧
      ∀ a, a < 4 * w.toNat * h.toNat → t.outByte a = s.inByte a

/-- 44_edge_detector R140, R141, R144, R145, R147, R148: EDGE faults on an oversized buffer; otherwise every ring pixel
is (0,0,0,0), every interior pixel has the magnitude `min(255, (isqrt(4N) + 3) div 6)` in R, G and B and alpha 255, and
LUMA holds the sums `R+G+B`. (That the magnitude is definite although the centre pixel, whose two weights are 0, is
unwritten is the model's reading of 70_reset_and_hazards R238, log entry 5.) -/
def Obligations.EdgeStoresTheSobelMagnitude : Prop :=
  ∀ (w h : Word) (s : State),
    (s.params.capPix < w.toNat * h.toNat → EndsInFault (.edge w h) s 3) ∧
    (w.toNat * h.toNat ≤ s.params.capPix →
      ∃ t, exec (.edge w h) s = .next t ∧ CompletedStatus s t ∧ CommandKeeps s t ∧
        (∀ x y, x < w.toNat → y < h.toNat → (∀ c, c < 3 → s.definedAt (idx w.toNat x y c)) →
          ∃ l, t.luma.get? (y * w.toNat + x) = some l ∧ l.toNat = s.rgbSum w.toNat x y) ∧
        (s.race = false → ∀ x y, x < w.toNat → y < h.toNat →
          ((x = 0 ∨ y = 0 ∨ x + 1 = w.toNat ∨ y + 1 = h.toNat) →
            ∀ c, c < 4 → t.outByte (idx w.toNat x y c) = 0) ∧
          (1 ≤ x → x + 1 < w.toNat → 1 ≤ y → y + 1 < h.toNat →
            t.outByte (idx w.toNat x y 3) = 255 ∧
            ((∀ x' y' c, x ≤ x' + 1 → x' ≤ x + 1 → y ≤ y' + 1 → y' ≤ y + 1 → (x', y') ≠ (x, y) → c < 3 →
                s.definedAt (idx w.toNat x' y' c)) →
              let L : Nat → Nat → Int := fun x y => (s.rgbSum w.toNat x y : Int)
              let GX : Int := (L (x + 1) (y - 1) + 2 * L (x + 1) y + L (x + 1) (y + 1))
                - (L (x - 1) (y - 1) + 2 * L (x - 1) y + L (x - 1) (y + 1))
              let GY : Int := (L (x - 1) (y + 1) + 2 * L x (y + 1) + L (x + 1) (y + 1))
                - (L (x - 1) (y - 1) + 2 * L x (y - 1) + L (x + 1) (y - 1))
              ∀ c, c < 3 → (t.outByte (idx w.toNat x y c)).toNat =
                min 255 ((Nat.sqrt (4 * (GX ^ 2 + GY ^ 2).toNat) + 3) / 6)))) ∧
        OutKeptFrom (4 * w.toNat * h.toNat) s t ∧ CoefKeptFrom 0 s t ∧ LumaKeptFrom (w.toNat * h.toNat) s t)

/-- 70_reset_and_hazards R238: a byte of OUT whose rule depends on a byte of IN that nothing has written since reset is any
value, for every filter command that completes: the same byte for IDENTITY, UNKNOWN and every alpha byte but EDGE's; a
colour byte of the pixel for GRAY; a byte under a tap of non-zero weight for BOX, SHARPEN and GAUSSIAN; a colour byte of one
of the eight neighbours for EDGE's magnitude. (That a byte depends on IN through the taps of non-zero weight, saturated or
not, is log entry 5; a free value is `Config.anyByte` of the draw counter, log entry 4.) -/
def Obligations.BytesOverUnwrittenInputAreAnyValue : Prop :=
  ∀ (w h : Word) (s : State), w.toNat * h.toNat ≤ s.params.capPix → s.race = false →
    (∀ (i : Instr) (f : Word), i = .identity w h ∨ i = .unknown f w h →
      ∃ t, exec i s = .next t ∧
        ∀ a, a < 4 * w.toNat * h.toNat → ¬ s.definedAt a → t.outByte a = Config.anyByte s.draws a) ∧
    (∃ t, exec (.gray w h) s = .next t ∧ ∀ x y, x < w.toNat → y < h.toNat →
      (∀ d, d < 3 → ¬ s.definedAt (idx w.toNat x y d) → ∀ c, c < 3 →
        t.outByte (idx w.toNat x y c) = Config.anyByte s.draws (idx w.toNat x y c)) ∧
      (¬ s.definedAt (idx w.toNat x y 3) → t.outByte (idx w.toNat x y 3) = Config.anyByte s.draws (idx w.toNat x y 3))) ∧
    (∃ t, exec (.box w h) s = .next t ∧ ∀ x y, x < w.toNat → y < h.toNat →
      (∀ c, c < 3 → ∀ kx ky : Nat, kx < 5 → ky < 5 →
        ¬ s.definedAt (idx w.toNat (edgeClamp (x + kx - 2) w.toNat) (edgeClamp (y + ky - 2) h.toNat) c) →
        t.outByte (idx w.toNat x y c) = Config.anyByte s.draws (idx w.toNat x y c)) ∧
      (¬ s.definedAt (idx w.toNat x y 3) → t.outByte (idx w.toNat x y 3) = Config.anyByte s.draws (idx w.toNat x y 3))) ∧
    (∃ t, exec (.sharpen w h) s = .next t ∧ ∀ x y, x < w.toNat → y < h.toNat →
      (∀ c, c < 3 →
        ¬ s.definedAt (idx w.toNat x y c) ∨
        ¬ s.definedAt (idx w.toNat x (edgeClamp (y - 1) h.toNat) c) ∨
        ¬ s.definedAt (idx w.toNat x (edgeClamp (y + 1) h.toNat) c) ∨
        ¬ s.definedAt (idx w.toNat (edgeClamp (x - 1) w.toNat) y c) ∨
        ¬ s.definedAt (idx w.toNat (edgeClamp (x + 1) w.toNat) y c) →
        t.outByte (idx w.toNat x y c) = Config.anyByte s.draws (idx w.toNat x y c)) ∧
      (¬ s.definedAt (idx w.toNat x y 3) → t.outByte (idx w.toNat x y 3) = Config.anyByte s.draws (idx w.toNat x y 3))) ∧
    (∀ (k : Word) (g : DWord), GoodSize s.params k → GoodSigma g →
      ∃ t, exec (.gaussian w h k g) s = .next t ∧ ∀ x y, x < w.toNat → y < h.toNat →
        (∀ c, c < 3 → ∀ kx ky : Nat, kx < k.toNat → ky < k.toNat →
          weightOf (Config.gaussKernel.words k.toNat g (ky * k.toNat + kx)) ≠ 0 →
          ¬ s.definedAt (idx w.toNat (edgeClamp (x + kx - (k.toNat / 2 : Nat)) w.toNat)
            (edgeClamp (y + ky - (k.toNat / 2 : Nat)) h.toNat) c) →
          t.outByte (idx w.toNat x y c) = Config.anyByte s.draws (idx w.toNat x y c)) ∧
        (¬ s.definedAt (idx w.toNat x y 3) →
          t.outByte (idx w.toNat x y 3) = Config.anyByte s.draws (idx w.toNat x y 3))) ∧
    (∃ t, exec (.edge w h) s = .next t ∧ ∀ x y, 1 ≤ x → x + 1 < w.toNat → 1 ≤ y → y + 1 < h.toNat →
      ∀ x' y' d, x ≤ x' + 1 → x' ≤ x + 1 → y ≤ y' + 1 → y' ≤ y + 1 → (x', y') ≠ (x, y) → d < 3 →
        ¬ s.definedAt (idx w.toNat x' y' d) → ∀ c, c < 3 →
          t.outByte (idx w.toNat x y c) = Config.anyByte s.draws (idx w.toNat x y c))

/-- 41_kernel_generator R90: GENK checks the size, then sigma; with both good it writes exactly the words of
GaussKernel to COEF[0 .. s*s-1] and completes; those words meet the contract of R93 to R98. -/
def Obligations.GenkWritesAKernelWithinTheContract : Prop :=
  ∀ (k : Word) (g : DWord) (s : State),
    (¬ GoodSize s.params k → EndsInFault (.genk k g) s 1) ∧
    (GoodSize s.params k → ¬ GoodSigma g → EndsInFault (.genk k g) s 2) ∧
    (GoodSize s.params k → GoodSigma g →
      ∃ t, exec (.genk k g) s = .next t ∧ CompletedStatus s t ∧ CommandKeeps s t ∧
        (∀ i, i < k.toNat * k.toNat → t.coefEntry i = Config.gaussKernel.words k.toNat g i) ∧
        KernelContract k.toNat g t.coefEntry ∧
        CoefKeptFrom (k.toNat * k.toNat) s t ∧ OutKeptFrom 0 s t ∧ LumaKeptFrom 0 s t)

/-- 41_kernel_generator R95, R96: the kernel that GENK leaves in COEF is unchanged by transposition and by both flips,
and no weight exceeds the centre's or is below a corner's. -/
def Obligations.GeneratedKernelIsSymmetricAndFallsOff : Prop :=
  ∀ (k : Word) (g : DWord) (s : State), GoodSize s.params k → GoodSigma g →
    ∃ t, exec (.genk k g) s = .next t ∧
      ∀ x y, x < k.toNat → y < k.toNat →
        t.coefEntry (y * k.toNat + x) = t.coefEntry (x * k.toNat + y) ∧
        t.coefEntry (y * k.toNat + x) = t.coefEntry (y * k.toNat + (k.toNat - 1 - x)) ∧
        t.coefEntry (y * k.toNat + x) = t.coefEntry ((k.toNat - 1 - y) * k.toNat + x) ∧
        weightOf (t.coefEntry (y * k.toNat + x)) ≤
          weightOf (t.coefEntry (k.toNat / 2 * k.toNat + k.toNat / 2)) ∧
        weightOf (t.coefEntry 0) ≤ weightOf (t.coefEntry (y * k.toNat + x)) ∧
        0 ≤ weightOf (t.coefEntry (y * k.toNat + x))

/-- 41_kernel_generator R97: the weights of a generated kernel, of a size in [1, KMAX] of a machine with any parameters,
sum to 1 within `size*size*2^-40`, which for every size up to 21 is below `4.02e-10`. -/
def Obligations.GeneratedKernelSumsToOne : Prop :=
  ∀ (p : Params) (k : Nat) (g : DWord), k % 2 = 1 → k ≤ p.kmax → GoodSigma g →
    |(∑ y ∈ Finset.range k, ∑ x ∈ Finset.range k, weightOf (Config.gaussKernel.words k g (y * k + x))) - 1|
      ≤ (k * k : Nat) * (1 / 2 ^ 40 : ℚ) ∧
    (k ≤ 21 → (k * k : Nat) * (1 / 2 ^ 40 : ℚ) < 402 / 10 ^ 12)

/-- 42_convolution_engine R121: BOX, SHARPEN and GAUSSIAN leave a channel that is uniform over the image unchanged;
GAUSSIAN for every size whose bound of 41_kernel_generator R97 keeps the sum within 1/2, which holds up to size 46431 and so
for every size up to 21, of which R121 gives its figure. -/
def Obligations.UniformChannelsAreUnchanged : Prop :=
  ∀ (w h : Word) (s : State) (c v : Nat), w.toNat * h.toNat ≤ s.params.capPix → s.race = false → c < 3 →
    (∀ x y, x < w.toNat → y < h.toNat → s.definedAt (idx w.toNat x y c) ∧ s.sample w.toNat x y c = v) →
    ∀ i : Instr,
      (i = .box w h ∨ i = .sharpen w h ∨ ∃ (k : Word) (g : DWord), i = .gaussian w h k g ∧ GoodSize s.params k ∧
        GoodSigma g ∧ 510 * (k.toNat * k.toNat) < 2 ^ 40) →
      ∃ t, exec i s = .next t ∧
        ∀ x y, x < w.toNat → y < h.toNat → (t.outByte (idx w.toNat x y c)).toNat = v

/-- 20_memory R56, 10_state R29: two commands with equal operands and equal defined input bytes give equal bytes in
OUT[0 .. 4wh-1], and equal COEF entries where they write COEF, whatever else the states hold. -/
def Obligations.ResultsDependOnOperandsAndInputOnly : Prop :=
  ∀ (i : Instr) (w h : Word) (s1 s2 : State), isFilter i w h → s2.params = s1.params → s1.status = 0x00000001#32 →
    s2.status = 0x00000001#32 → s1.race = false → s2.race = false → s1.bufferDefined w.toNat h.toNat →
    (∀ a, a < 4 * w.toNat * h.toNat → s2.inMem.get? a = s1.inMem.get? a) →
    ∃ t1 t2, exec i s1 = .next t1 ∧ exec i s2 = .next t2 ∧ t1.status = t2.status ∧
      (t1.status = 0x00000002#32 →
        (∀ a, a < 4 * w.toNat * h.toNat → t1.outByte a = t2.outByte a) ∧
        ∀ n, t1.coefEntry n = t2.coefEntry n ∨
          (t1.coefEntry n = s1.coefEntry n ∧ t2.coefEntry n = s2.coefEntry n))

/-- 20_memory R43: every filter gives the same output under the transposed layout with WIDTH and HEIGHT exchanged. -/
def Obligations.EveryFilterCommutesWithTransposition : Prop :=
  ∀ (i : Instr) (w h : Word) (s t : State), isFilter i w h → t.params = s.params → s.status = 0x00000001#32 →
    t.status = 0x00000001#32 → s.race = false → t.race = false → s.bufferDefined w.toNat h.toNat →
    TransposedInput w.toNat h.toNat s t →
    ∃ s' t', exec i s = .next s' ∧ exec (transposed i) t = .next t' ∧ s'.status = t'.status ∧
      (s'.status = 0x00000002#32 → ∀ x y c, x < w.toNat → y < h.toNat → c < 4 →
        t'.outByte (idx h.toNat y x c) = s'.outByte (idx w.toNat x y c))

/-- 46_dispatcher R178: a selector from 6 up behaves exactly as IDENTITY, the geometry check included. -/
def Obligations.UnknownSelectorBehavesAsIdentity : Prop :=
  ∀ (c : CommandWords) (s : State), c.launch.getLsbD 0 = true → 6 ≤ c.fsel.toNat →
    exec (decode c) s = exec (decode { c with fsel := 0 }) s

/-- 43_fixed_kernel_filters R131, R133: the Box word is the binary64 word nearest 1/25, of value `1/25 + 3/(25*2^57)`,
and the 25 of them sum to `1 + 3*2^-57`; the Sharpen words are those of 5, four times -1 and four times +0, and sum
to 1. -/
def Obligations.FixedKernelWeights : Prop :=
  boxWeight = 0x3FA47AE147AE147B#64 ∧ fl64 (1 / 25) = boxWeight ∧
  val64 boxWeight = some (1 / 25 + 3 / (25 * 2 ^ 57)) ∧ 25 * weightOf boxWeight = 1 + 3 / 2 ^ 57 ∧
  (List.range 9).map sharpenWeight =
    [0x0000000000000000#64, 0xBFF0000000000000#64, 0x0000000000000000#64, 0xBFF0000000000000#64,
     0x4014000000000000#64, 0xBFF0000000000000#64, 0x0000000000000000#64, 0xBFF0000000000000#64,
     0x0000000000000000#64] ∧
  (List.range 9).map (fun i => weightOf (sharpenWeight i)) = [0, -1, 0, -1, 5, -1, 0, -1, 0] ∧
  ((List.range 9).map fun i => weightOf (sharpenWeight i)).sum = 1

/-- 41_kernel_generator R100: for a sigma outside `2^-500` to `2^500` the reference realisation gives the special-case
words, the centre 1 and all others +0 below, `fl64(1/(size*size))` above, and they meet the contract R93 to R98, for every
odd size that KSIZE can hold; within the range it is GaussKernelRef as written. (That the special cases begin exactly at
the two ends of the range is log entry 19.) -/
def Obligations.ReferenceSpecialCasesMeetTheContract : Prop :=
  ∀ (exp64 : DWord → DWord) (k : Nat) (g : DWord) (σ : ℚ), k % 2 = 1 → k < 2 ^ 32 → val64 g = some σ → 0 < σ →
    (σ < 1 / 2 ^ 500 → ∃ K, referenceKernel exp64 k g = some K ∧ K.length = k * k ∧
      (∀ x y, x < k → y < k → K[y * k + x]? =
        some (if x = k / 2 ∧ y = k / 2 then 0x3FF0000000000000#64 else 0x0000000000000000#64)) ∧
      KernelContract k g fun i => K.getD i 0) ∧
    (2 ^ 500 < σ → ∃ K, referenceKernel exp64 k g = some K ∧ K.length = k * k ∧
      (∀ i, i < k * k → K[i]? = some (fl64 (1 / (k * k : Nat)))) ∧
      KernelContract k g fun i => K.getD i 0) ∧
    (1 / 2 ^ 500 ≤ σ → σ ≤ 2 ^ 500 → referenceKernel exp64 k g = gaussKernelRef exp64 k g)
end

