-- ==== Sys2Proof/Laws/Memory.lean ====
section
/-! SUPPORT. What the memory operations do to a read, and that each keeps the canonical form and the bounds. -/
namespace Sys2Proof.Machine
variable {α : Type}

@[simp] theorem Memory.get?_nil (a : Nat) : Memory.get? ([] : Memory α) a = none := rfl

theorem Memory.get?_cons (b : Nat) (v : α) (r : Memory α) (a : Nat) :
    Memory.get? ((b, v) :: r) a = if a = b then some v else Memory.get? r a := rfl

/-- A read after a write: the value written at its index, the earlier value elsewhere. -/
theorem Memory.get?_write (a : Nat) (v : α) (m : Memory α) (x : Nat) :
    (Memory.write a v m).get? x = if x = a then some v else m.get? x := by
  induction m with
  | nil => rfl
  | cons c r ih =>
    obtain ⟨b, u⟩ := c
    unfold Memory.write
    split
    · rfl
    · split
      next hab =>
        subst hab
        simp only [Memory.get?_cons]
        split <;> rfl
      next hlt hne =>
        simp only [Memory.get?_cons, ih]
        split
        next hx => subst hx; rw [if_neg (by omega)]
        next => rfl

/-- Every index of `m` is above `a`. -/
def Memory.above (a : Nat) (m : Memory α) : Prop := ∀ c ∈ m, a < c.1

theorem Memory.wf_cons (b : Nat) (v : α) (r : Memory α) :
    Memory.wf ((b, v) :: r) = true ↔ Memory.above b r ∧ Memory.wf r = true := by
  induction r generalizing b v with
  | nil => simp [Memory.wf, Memory.above]
  | cons c t ih =>
    obtain ⟨d, w⟩ := c
    simp only [Memory.wf, Bool.and_eq_true, decide_eq_true_eq]
    rw [ih d w]
    constructor
    · rintro ⟨hbd, ha, ht⟩
      refine ⟨?_, ha, ht⟩
      intro c hc
      rcases List.mem_cons.1 hc with rfl | hc
      · exact hbd
      · exact hbd.trans (ha c hc)
    · rintro ⟨hb, ha, ht⟩
      exact ⟨hb _ (List.mem_cons_self ..), ha, ht⟩

theorem Memory.mem_write {a : Nat} {v : α} {m : Memory α} {c : Nat × α} (h : c ∈ Memory.write a v m) :
    c = (a, v) ∨ c ∈ m := by
  induction m with
  | nil => simpa [Memory.write] using h
  | cons d r ih =>
    obtain ⟨b, u⟩ := d
    unfold Memory.write at h
    split at h
    · simpa using h
    · split at h
      · rcases List.mem_cons.1 h with h | h
        · exact .inl h
        · exact .inr (List.mem_cons_of_mem _ h)
      · rcases List.mem_cons.1 h with h | h
        · exact .inr (h ▸ List.mem_cons_self ..)
        · rcases ih h with h | h
          · exact .inl h
          · exact .inr (List.mem_cons_of_mem _ h)

/-- A write keeps the canonical form. -/
theorem Memory.wf_write (a : Nat) (v : α) (m : Memory α) (h : m.wf = true) : (Memory.write a v m).wf = true := by
  induction m with
  | nil => rfl
  | cons c r ih =>
    obtain ⟨b, u⟩ := c
    obtain ⟨hb, hr⟩ := (Memory.wf_cons b u r).1 h
    unfold Memory.write
    split
    next hab =>
      refine (Memory.wf_cons ..).2 ⟨?_, h⟩
      intro c hc
      rcases List.mem_cons.1 hc with rfl | hc
      · exact hab
      · exact hab.trans (hb c hc)
    next hab =>
      split
      next he => subst he; exact (Memory.wf_cons ..).2 ⟨hb, hr⟩
      next he =>
        refine (Memory.wf_cons ..).2 ⟨?_, ih hr⟩
        intro c hc
        rcases Memory.mem_write hc with rfl | hc
        · exact Nat.lt_of_le_of_ne (Nat.le_of_not_lt hab) (Ne.symm he)
        · exact hb c hc

theorem Memory.below_iff (n : Nat) (m : Memory α) : m.below n = true ↔ ∀ c ∈ m, c.1 < n := by
  simp [Memory.below]

theorem Memory.below_write {n a : Nat} {v : α} {m : Memory α} (h : m.below n = true) (ha : a < n) :
    (Memory.write a v m).below n = true := by
  rw [Memory.below_iff] at h ⊢
  intro c hc
  rcases Memory.mem_write hc with rfl | hc
  · exact ha
  · exact h c hc

theorem Memory.mem_block {n : Nat} {f : Nat → Option α} {c : Nat × α} :
    c ∈ Memory.block n f ↔ c.1 < n ∧ f c.1 = some c.2 := by
  obtain ⟨a, v⟩ := c
  simp only [Memory.block, List.mem_filterMap, List.mem_range, Option.map_eq_some_iff, Prod.mk.injEq]
  constructor
  · rintro ⟨b, hb, w, hw, rfl, rfl⟩; exact ⟨hb, hw⟩
  · rintro ⟨h, hf⟩; exact ⟨a, h, v, hf, rfl, rfl⟩

theorem Memory.mem_fill {n : Nat} {f : Nat → Option α} {m : Memory α} {c : Nat × α} :
    c ∈ Memory.fill n f m ↔ (c.1 < n ∧ f c.1 = some c.2) ∨ (c ∈ m ∧ n ≤ c.1) := by
  simp [Memory.fill, Memory.mem_block]

theorem Memory.wf_of_sorted {m : Memory α} (h : m.Pairwise fun c d => c.1 < d.1) : m.wf = true := by
  induction m with
  | nil => rfl
  | cons c r ih =>
    obtain ⟨b, v⟩ := c
    rw [List.pairwise_cons] at h
    exact (Memory.wf_cons ..).2 ⟨h.1, ih h.2⟩

theorem Memory.sorted_of_wf {m : Memory α} (h : m.wf = true) : m.Pairwise fun c d => c.1 < d.1 := by
  induction m with
  | nil => exact List.Pairwise.nil
  | cons c r ih =>
    obtain ⟨b, v⟩ := c
    obtain ⟨h1, h2⟩ := (Memory.wf_cons ..).1 h
    exact List.pairwise_cons.2 ⟨h1, ih h2⟩

theorem Memory.sorted_block (n : Nat) (f : Nat → Option α) :
    (Memory.block n f).Pairwise fun c d => c.1 < d.1 := by
  unfold Memory.block
  rw [List.pairwise_filterMap]
  refine List.Pairwise.imp ?_ (List.pairwise_lt_range (n := n))
  intro a b hab c hc d hd
  simp only [Option.map_eq_some_iff] at hc hd
  obtain ⟨_, _, rfl⟩ := hc
  obtain ⟨_, _, rfl⟩ := hd
  exact hab

/-- Filling a prefix keeps the canonical form. -/
theorem Memory.wf_fill (n : Nat) (f : Nat → Option α) (m : Memory α) (h : m.wf = true) :
    (Memory.fill n f m).wf = true := by
  refine Memory.wf_of_sorted (List.pairwise_append.2 ⟨Memory.sorted_block n f, (Memory.sorted_of_wf h).filter _, ?_⟩)
  intro c hc d hd
  have h1 := (Memory.mem_block.1 hc).1
  have h2 := of_decide_eq_true (List.mem_filter.1 hd).2
  omega

theorem Memory.get?_append (m r : Memory α) (a : Nat) :
    Memory.get? (m ++ r : List (Nat × α)) a = (Memory.get? m a).or (Memory.get? r a) := by
  induction m with
  | nil => rfl
  | cons c t ih =>
    obtain ⟨b, v⟩ := c
    simp only [List.cons_append, Memory.get?_cons]
    split
    · rfl
    · exact ih

theorem Memory.get?_filterMap_range (l : List Nat) (f : Nat → Option α) (a : Nat) :
    Memory.get? (l.filterMap fun a => (f a).map fun v => (a, v)) a = if a ∈ l then f a else none := by
  induction l with
  | nil => rfl
  | cons b r ih =>
    rw [List.filterMap_cons]
    cases hb : f b with
    | none =>
      simp only [Option.map_none]
      rw [ih]
      by_cases hab : a = b
      · subst hab; simp [hb]
      · simp [hab]
    | some v =>
      simp only [Option.map_some, Memory.get?_cons, ih]
      by_cases hab : a = b
      · subst hab; simp [hb]
      · simp [hab]

theorem Memory.get?_filter_ge (n : Nat) (m : Memory α) (a : Nat) :
    Memory.get? (m.filter fun c => decide (n ≤ c.1)) a = if n ≤ a then m.get? a else none := by
  induction m with
  | nil => simp
  | cons c r ih =>
    obtain ⟨b, v⟩ := c
    rw [List.filter_cons]
    by_cases hb : n ≤ b
    · simp only [hb, decide_true, if_true, Memory.get?_cons, ih]
      by_cases hab : a = b
      · subst hab; simp [hb]
      · simp [hab]
    · simp only [hb, decide_false, Bool.false_eq_true, if_false, Memory.get?_cons, ih]
      by_cases hab : a = b
      · subst hab; simp [hb]
      · simp [hab]

/-- A read after filling a prefix: `f` below `n`, the earlier value from `n` up. -/
theorem Memory.get?_fill (n : Nat) (f : Nat → Option α) (m : Memory α) (a : Nat) :
    (Memory.fill n f m).get? a = if a < n then f a else m.get? a := by
  unfold Memory.fill
  rw [Memory.get?_append, Memory.get?_filter_ge]
  unfold Memory.block
  rw [Memory.get?_filterMap_range]
  by_cases h : a < n
  · have : ¬ n ≤ a := by omega
    simp [h, this]
  · have : n ≤ a := by omega
    simp [h, this]

theorem Memory.below_fill {n k : Nat} {f : Nat → Option α} {m : Memory α} (h : m.below n = true) (hk : k ≤ n) :
    (Memory.fill k f m).below n = true := by
  rw [Memory.below_iff] at h ⊢
  intro c hc
  rcases Memory.mem_fill.1 hc with ⟨h1, _⟩ | ⟨h1, _⟩
  · omega
  · exact h c h1

theorem Memory.all_fill {n : Nat} {f : Nat → Option α} {m : Memory α} {p : α → Bool}
    (h : m.all (fun c => p c.2) = true) (hf : ∀ a v, a < n → f a = some v → p v = true) :
    (Memory.fill n f m).all (fun c => p c.2) = true := by
  rw [List.all_eq_true] at h ⊢
  intro c hc
  rcases Memory.mem_fill.1 hc with ⟨h1, h2⟩ | ⟨h1, _⟩
  · exact hf c.1 c.2 h1 h2
  · exact h c h1

end Sys2Proof.Machine
end

