-- ==== Sys2Proof/Laws/State.lean ====
section
/-! SUPPORT. One lemma per field per update of the state: what each shared operation does to each field, so that no
proof unfolds a record update. -/
namespace Sys2Proof.Machine
variable (s : State)

/-! ### writeOut -/

@[simp] theorem writeOut_status (n : Nat) (f : Nat → Option Byte) : (writeOut n f s).status = s.status := rfl
@[simp] theorem writeOut_fsel (n : Nat) (f : Nat → Option Byte) : (writeOut n f s).fsel = s.fsel := rfl
@[simp] theorem writeOut_width (n : Nat) (f : Nat → Option Byte) : (writeOut n f s).width = s.width := rfl
@[simp] theorem writeOut_height (n : Nat) (f : Nat → Option Byte) : (writeOut n f s).height = s.height := rfl
@[simp] theorem writeOut_ksize (n : Nat) (f : Nat → Option Byte) : (writeOut n f s).ksize = s.ksize := rfl
@[simp] theorem writeOut_sigmaLo (n : Nat) (f : Nat → Option Byte) : (writeOut n f s).sigmaLo = s.sigmaLo := rfl
@[simp] theorem writeOut_sigmaHi (n : Nat) (f : Nat → Option Byte) : (writeOut n f s).sigmaHi = s.sigmaHi := rfl
@[simp] theorem writeOut_desc (n : Nat) (f : Nat → Option Byte) : (writeOut n f s).desc = s.desc := rfl
@[simp] theorem writeOut_inMem (n : Nat) (f : Nat → Option Byte) : (writeOut n f s).inMem = s.inMem := rfl
@[simp] theorem writeOut_outMem (n : Nat) (f : Nat → Option Byte) : (writeOut n f s).outMem = s.outMem.fill n fun a => some ((if s.race then none else f a).getD (Config.anyByte s.draws a)) := rfl
@[simp] theorem writeOut_coef (n : Nat) (f : Nat → Option Byte) : (writeOut n f s).coef = s.coef := rfl
@[simp] theorem writeOut_luma (n : Nat) (f : Nat → Option Byte) : (writeOut n f s).luma = s.luma := rfl
@[simp] theorem writeOut_inputs (n : Nat) (f : Nat → Option Byte) : (writeOut n f s).inputs = s.inputs := rfl
@[simp] theorem writeOut_replies (n : Nat) (f : Nat → Option Byte) : (writeOut n f s).replies = s.replies := rfl
@[simp] theorem writeOut_pending (n : Nat) (f : Nat → Option Byte) : (writeOut n f s).pending = s.pending := rfl
@[simp] theorem writeOut_race (n : Nat) (f : Nat → Option Byte) : (writeOut n f s).race = s.race := rfl
@[simp] theorem writeOut_earlier (n : Nat) (f : Nat → Option Byte) : (writeOut n f s).earlier = s.earlier := rfl
@[simp] theorem writeOut_draws (n : Nat) (f : Nat → Option Byte) : (writeOut n f s).draws = s.draws + 1 := rfl
@[simp] theorem writeOut_resets (n : Nat) (f : Nat → Option Byte) : (writeOut n f s).resets = s.resets := rfl
@[simp] theorem writeOut_params (n : Nat) (f : Nat → Option Byte) : (writeOut n f s).params = s.params := rfl
@[simp] theorem writeOut_transfer (n : Nat) (f : Nat → Option Byte) : (writeOut n f s).transfer = s.transfer := rfl

/-! ### writeCoef -/

@[simp] theorem writeCoef_status (n : Nat) (k : Nat → DWord) : (writeCoef n k s).status = s.status := rfl
@[simp] theorem writeCoef_fsel (n : Nat) (k : Nat → DWord) : (writeCoef n k s).fsel = s.fsel := rfl
@[simp] theorem writeCoef_width (n : Nat) (k : Nat → DWord) : (writeCoef n k s).width = s.width := rfl
@[simp] theorem writeCoef_height (n : Nat) (k : Nat → DWord) : (writeCoef n k s).height = s.height := rfl
@[simp] theorem writeCoef_ksize (n : Nat) (k : Nat → DWord) : (writeCoef n k s).ksize = s.ksize := rfl
@[simp] theorem writeCoef_sigmaLo (n : Nat) (k : Nat → DWord) : (writeCoef n k s).sigmaLo = s.sigmaLo := rfl
@[simp] theorem writeCoef_sigmaHi (n : Nat) (k : Nat → DWord) : (writeCoef n k s).sigmaHi = s.sigmaHi := rfl
@[simp] theorem writeCoef_desc (n : Nat) (k : Nat → DWord) : (writeCoef n k s).desc = s.desc := rfl
@[simp] theorem writeCoef_inMem (n : Nat) (k : Nat → DWord) : (writeCoef n k s).inMem = s.inMem := rfl
@[simp] theorem writeCoef_outMem (n : Nat) (k : Nat → DWord) : (writeCoef n k s).outMem = s.outMem := rfl
@[simp] theorem writeCoef_coef (n : Nat) (k : Nat → DWord) : (writeCoef n k s).coef = s.coef.fill n fun i => some (k i) := rfl
@[simp] theorem writeCoef_luma (n : Nat) (k : Nat → DWord) : (writeCoef n k s).luma = s.luma := rfl
@[simp] theorem writeCoef_inputs (n : Nat) (k : Nat → DWord) : (writeCoef n k s).inputs = s.inputs := rfl
@[simp] theorem writeCoef_replies (n : Nat) (k : Nat → DWord) : (writeCoef n k s).replies = s.replies := rfl
@[simp] theorem writeCoef_pending (n : Nat) (k : Nat → DWord) : (writeCoef n k s).pending = s.pending := rfl
@[simp] theorem writeCoef_race (n : Nat) (k : Nat → DWord) : (writeCoef n k s).race = s.race := rfl
@[simp] theorem writeCoef_earlier (n : Nat) (k : Nat → DWord) : (writeCoef n k s).earlier = s.earlier := rfl
@[simp] theorem writeCoef_draws (n : Nat) (k : Nat → DWord) : (writeCoef n k s).draws = s.draws := rfl
@[simp] theorem writeCoef_resets (n : Nat) (k : Nat → DWord) : (writeCoef n k s).resets = s.resets := rfl
@[simp] theorem writeCoef_params (n : Nat) (k : Nat → DWord) : (writeCoef n k s).params = s.params := rfl
@[simp] theorem writeCoef_transfer (n : Nat) (k : Nat → DWord) : (writeCoef n k s).transfer = s.transfer := rfl

/-! ### writeLuma -/

@[simp] theorem writeLuma_status (n : Nat) (f : Nat → Option LumaWord) : (writeLuma n f s).status = s.status := rfl
@[simp] theorem writeLuma_fsel (n : Nat) (f : Nat → Option LumaWord) : (writeLuma n f s).fsel = s.fsel := rfl
@[simp] theorem writeLuma_width (n : Nat) (f : Nat → Option LumaWord) : (writeLuma n f s).width = s.width := rfl
@[simp] theorem writeLuma_height (n : Nat) (f : Nat → Option LumaWord) : (writeLuma n f s).height = s.height := rfl
@[simp] theorem writeLuma_ksize (n : Nat) (f : Nat → Option LumaWord) : (writeLuma n f s).ksize = s.ksize := rfl
@[simp] theorem writeLuma_sigmaLo (n : Nat) (f : Nat → Option LumaWord) : (writeLuma n f s).sigmaLo = s.sigmaLo := rfl
@[simp] theorem writeLuma_sigmaHi (n : Nat) (f : Nat → Option LumaWord) : (writeLuma n f s).sigmaHi = s.sigmaHi := rfl
@[simp] theorem writeLuma_desc (n : Nat) (f : Nat → Option LumaWord) : (writeLuma n f s).desc = s.desc := rfl
@[simp] theorem writeLuma_inMem (n : Nat) (f : Nat → Option LumaWord) : (writeLuma n f s).inMem = s.inMem := rfl
@[simp] theorem writeLuma_outMem (n : Nat) (f : Nat → Option LumaWord) : (writeLuma n f s).outMem = s.outMem := rfl
@[simp] theorem writeLuma_coef (n : Nat) (f : Nat → Option LumaWord) : (writeLuma n f s).coef = s.coef := rfl
@[simp] theorem writeLuma_luma (n : Nat) (f : Nat → Option LumaWord) : (writeLuma n f s).luma = s.luma.fill n f := rfl
@[simp] theorem writeLuma_inputs (n : Nat) (f : Nat → Option LumaWord) : (writeLuma n f s).inputs = s.inputs := rfl
@[simp] theorem writeLuma_replies (n : Nat) (f : Nat → Option LumaWord) : (writeLuma n f s).replies = s.replies := rfl
@[simp] theorem writeLuma_pending (n : Nat) (f : Nat → Option LumaWord) : (writeLuma n f s).pending = s.pending := rfl
@[simp] theorem writeLuma_race (n : Nat) (f : Nat → Option LumaWord) : (writeLuma n f s).race = s.race := rfl
@[simp] theorem writeLuma_earlier (n : Nat) (f : Nat → Option LumaWord) : (writeLuma n f s).earlier = s.earlier := rfl
@[simp] theorem writeLuma_draws (n : Nat) (f : Nat → Option LumaWord) : (writeLuma n f s).draws = s.draws := rfl
@[simp] theorem writeLuma_resets (n : Nat) (f : Nat → Option LumaWord) : (writeLuma n f s).resets = s.resets := rfl
@[simp] theorem writeLuma_params (n : Nat) (f : Nat → Option LumaWord) : (writeLuma n f s).params = s.params := rfl
@[simp] theorem writeLuma_transfer (n : Nat) (f : Nat → Option LumaWord) : (writeLuma n f s).transfer = s.transfer := rfl

/-! ### beginCommand -/

@[simp] theorem beginCommand_status (d : Descriptor) : (beginCommand d s).status = statusLaunched s.status := rfl
@[simp] theorem beginCommand_fsel (d : Descriptor) : (beginCommand d s).fsel = s.fsel := rfl
@[simp] theorem beginCommand_width (d : Descriptor) : (beginCommand d s).width = s.width := rfl
@[simp] theorem beginCommand_height (d : Descriptor) : (beginCommand d s).height = s.height := rfl
@[simp] theorem beginCommand_ksize (d : Descriptor) : (beginCommand d s).ksize = s.ksize := rfl
@[simp] theorem beginCommand_sigmaLo (d : Descriptor) : (beginCommand d s).sigmaLo = s.sigmaLo := rfl
@[simp] theorem beginCommand_sigmaHi (d : Descriptor) : (beginCommand d s).sigmaHi = s.sigmaHi := rfl
@[simp] theorem beginCommand_desc (d : Descriptor) : (beginCommand d s).desc = d := rfl
@[simp] theorem beginCommand_inMem (d : Descriptor) : (beginCommand d s).inMem = s.inMem := rfl
@[simp] theorem beginCommand_outMem (d : Descriptor) : (beginCommand d s).outMem = s.outMem := rfl
@[simp] theorem beginCommand_coef (d : Descriptor) : (beginCommand d s).coef = s.coef := rfl
@[simp] theorem beginCommand_luma (d : Descriptor) : (beginCommand d s).luma = s.luma := rfl
@[simp] theorem beginCommand_inputs (d : Descriptor) : (beginCommand d s).inputs = s.inputs := rfl
@[simp] theorem beginCommand_replies (d : Descriptor) : (beginCommand d s).replies = s.replies := rfl
@[simp] theorem beginCommand_pending (d : Descriptor) : (beginCommand d s).pending = true := rfl
@[simp] theorem beginCommand_race (d : Descriptor) : (beginCommand d s).race = false := rfl
@[simp] theorem beginCommand_earlier (d : Descriptor) : (beginCommand d s).earlier = openResults s := rfl
@[simp] theorem beginCommand_draws (d : Descriptor) : (beginCommand d s).draws = s.draws := rfl
@[simp] theorem beginCommand_resets (d : Descriptor) : (beginCommand d s).resets = s.resets := rfl
@[simp] theorem beginCommand_params (d : Descriptor) : (beginCommand d s).params = s.params := rfl
@[simp] theorem beginCommand_transfer (d : Descriptor) : (beginCommand d s).transfer = s.transfer := rfl

/-! ### complete -/

@[simp] theorem complete_status : (complete s).status = statusCompleted s.status := rfl
@[simp] theorem complete_fsel : (complete s).fsel = s.fsel := rfl
@[simp] theorem complete_width : (complete s).width = s.width := rfl
@[simp] theorem complete_height : (complete s).height = s.height := rfl
@[simp] theorem complete_ksize : (complete s).ksize = s.ksize := rfl
@[simp] theorem complete_sigmaLo : (complete s).sigmaLo = s.sigmaLo := rfl
@[simp] theorem complete_sigmaHi : (complete s).sigmaHi = s.sigmaHi := rfl
@[simp] theorem complete_desc : (complete s).desc = s.desc := rfl
@[simp] theorem complete_inMem : (complete s).inMem = s.inMem := rfl
@[simp] theorem complete_outMem : (complete s).outMem = s.outMem := rfl
@[simp] theorem complete_coef : (complete s).coef = s.coef := rfl
@[simp] theorem complete_luma : (complete s).luma = s.luma := rfl
@[simp] theorem complete_inputs : (complete s).inputs = s.inputs := rfl
@[simp] theorem complete_replies : (complete s).replies = s.replies := rfl
@[simp] theorem complete_pending : (complete s).pending = s.pending := rfl
@[simp] theorem complete_race : (complete s).race = s.race := rfl
@[simp] theorem complete_earlier : (complete s).earlier = s.earlier := rfl
@[simp] theorem complete_draws : (complete s).draws = s.draws := rfl
@[simp] theorem complete_resets : (complete s).resets = s.resets := rfl
@[simp] theorem complete_params : (complete s).params = s.params := rfl
@[simp] theorem complete_transfer : (complete s).transfer = s.transfer := rfl

/-! ### raiseInvalidParameter -/

@[simp] theorem raiseInvalidParameter_status (e : ParamError) : (raiseInvalidParameter e s).status = statusFaulted (ecodeOf e) s.status := rfl
@[simp] theorem raiseInvalidParameter_fsel (e : ParamError) : (raiseInvalidParameter e s).fsel = s.fsel := rfl
@[simp] theorem raiseInvalidParameter_width (e : ParamError) : (raiseInvalidParameter e s).width = s.width := rfl
@[simp] theorem raiseInvalidParameter_height (e : ParamError) : (raiseInvalidParameter e s).height = s.height := rfl
@[simp] theorem raiseInvalidParameter_ksize (e : ParamError) : (raiseInvalidParameter e s).ksize = s.ksize := rfl
@[simp] theorem raiseInvalidParameter_sigmaLo (e : ParamError) : (raiseInvalidParameter e s).sigmaLo = s.sigmaLo := rfl
@[simp] theorem raiseInvalidParameter_sigmaHi (e : ParamError) : (raiseInvalidParameter e s).sigmaHi = s.sigmaHi := rfl
@[simp] theorem raiseInvalidParameter_desc (e : ParamError) : (raiseInvalidParameter e s).desc = s.desc := rfl
@[simp] theorem raiseInvalidParameter_inMem (e : ParamError) : (raiseInvalidParameter e s).inMem = s.inMem := rfl
@[simp] theorem raiseInvalidParameter_outMem (e : ParamError) : (raiseInvalidParameter e s).outMem = s.outMem := rfl
@[simp] theorem raiseInvalidParameter_coef (e : ParamError) : (raiseInvalidParameter e s).coef = s.coef := rfl
@[simp] theorem raiseInvalidParameter_luma (e : ParamError) : (raiseInvalidParameter e s).luma = s.luma := rfl
@[simp] theorem raiseInvalidParameter_inputs (e : ParamError) : (raiseInvalidParameter e s).inputs = s.inputs := rfl
@[simp] theorem raiseInvalidParameter_replies (e : ParamError) : (raiseInvalidParameter e s).replies = s.replies := rfl
@[simp] theorem raiseInvalidParameter_pending (e : ParamError) : (raiseInvalidParameter e s).pending = s.pending := rfl
@[simp] theorem raiseInvalidParameter_race (e : ParamError) : (raiseInvalidParameter e s).race = s.race := rfl
@[simp] theorem raiseInvalidParameter_earlier (e : ParamError) : (raiseInvalidParameter e s).earlier = s.earlier := rfl
@[simp] theorem raiseInvalidParameter_draws (e : ParamError) : (raiseInvalidParameter e s).draws = s.draws := rfl
@[simp] theorem raiseInvalidParameter_resets (e : ParamError) : (raiseInvalidParameter e s).resets = s.resets := rfl
@[simp] theorem raiseInvalidParameter_params (e : ParamError) : (raiseInvalidParameter e s).params = s.params := rfl
@[simp] theorem raiseInvalidParameter_transfer (e : ParamError) : (raiseInvalidParameter e s).transfer = s.transfer := rfl

/-! ### reply -/

@[simp] theorem reply_status (r : Reply) : (reply r s).status = s.status := rfl
@[simp] theorem reply_fsel (r : Reply) : (reply r s).fsel = s.fsel := rfl
@[simp] theorem reply_width (r : Reply) : (reply r s).width = s.width := rfl
@[simp] theorem reply_height (r : Reply) : (reply r s).height = s.height := rfl
@[simp] theorem reply_ksize (r : Reply) : (reply r s).ksize = s.ksize := rfl
@[simp] theorem reply_sigmaLo (r : Reply) : (reply r s).sigmaLo = s.sigmaLo := rfl
@[simp] theorem reply_sigmaHi (r : Reply) : (reply r s).sigmaHi = s.sigmaHi := rfl
@[simp] theorem reply_desc (r : Reply) : (reply r s).desc = s.desc := rfl
@[simp] theorem reply_inMem (r : Reply) : (reply r s).inMem = s.inMem := rfl
@[simp] theorem reply_outMem (r : Reply) : (reply r s).outMem = s.outMem := rfl
@[simp] theorem reply_coef (r : Reply) : (reply r s).coef = s.coef := rfl
@[simp] theorem reply_luma (r : Reply) : (reply r s).luma = s.luma := rfl
@[simp] theorem reply_inputs (r : Reply) : (reply r s).inputs = s.inputs := rfl
@[simp] theorem reply_replies (r : Reply) : (reply r s).replies = r :: s.replies := rfl
@[simp] theorem reply_pending (r : Reply) : (reply r s).pending = s.pending := rfl
@[simp] theorem reply_race (r : Reply) : (reply r s).race = s.race := rfl
@[simp] theorem reply_earlier (r : Reply) : (reply r s).earlier = s.earlier := rfl
@[simp] theorem reply_draws (r : Reply) : (reply r s).draws = s.draws := rfl
@[simp] theorem reply_resets (r : Reply) : (reply r s).resets = s.resets := rfl
@[simp] theorem reply_params (r : Reply) : (reply r s).params = s.params := rfl
@[simp] theorem reply_transfer (r : Reply) : (reply r s).transfer = s.transfer := rfl

/-! ### observeStatus -/

@[simp] theorem observeStatus_status : (observeStatus s).status = s.status := rfl
@[simp] theorem observeStatus_fsel : (observeStatus s).fsel = s.fsel := rfl
@[simp] theorem observeStatus_width : (observeStatus s).width = s.width := rfl
@[simp] theorem observeStatus_height : (observeStatus s).height = s.height := rfl
@[simp] theorem observeStatus_ksize : (observeStatus s).ksize = s.ksize := rfl
@[simp] theorem observeStatus_sigmaLo : (observeStatus s).sigmaLo = s.sigmaLo := rfl
@[simp] theorem observeStatus_sigmaHi : (observeStatus s).sigmaHi = s.sigmaHi := rfl
@[simp] theorem observeStatus_desc : (observeStatus s).desc = s.desc := rfl
@[simp] theorem observeStatus_inMem : (observeStatus s).inMem = s.inMem := rfl
@[simp] theorem observeStatus_outMem : (observeStatus s).outMem = s.outMem := rfl
@[simp] theorem observeStatus_coef : (observeStatus s).coef = s.coef := rfl
@[simp] theorem observeStatus_luma : (observeStatus s).luma = s.luma := rfl
@[simp] theorem observeStatus_inputs : (observeStatus s).inputs = s.inputs := rfl
@[simp] theorem observeStatus_replies : (observeStatus s).replies = s.replies := rfl
@[simp] theorem observeStatus_pending : (observeStatus s).pending = (s.pending && !s.done) := rfl
@[simp] theorem observeStatus_race : (observeStatus s).race = s.race := rfl
@[simp] theorem observeStatus_earlier : (observeStatus s).earlier = (if s.done then [] else s.earlier) := rfl
@[simp] theorem observeStatus_draws : (observeStatus s).draws = s.draws := rfl
@[simp] theorem observeStatus_resets : (observeStatus s).resets = s.resets := rfl
@[simp] theorem observeStatus_params : (observeStatus s).params = s.params := rfl
@[simp] theorem observeStatus_transfer : (observeStatus s).transfer = s.transfer := rfl

/-! ### platformReset -/

@[simp] theorem platformReset_status : (platformReset s).status = 0 := rfl
@[simp] theorem platformReset_fsel : (platformReset s).fsel = 0 := rfl
@[simp] theorem platformReset_width : (platformReset s).width = 0 := rfl
@[simp] theorem platformReset_height : (platformReset s).height = 0 := rfl
@[simp] theorem platformReset_ksize : (platformReset s).ksize = 0 := rfl
@[simp] theorem platformReset_sigmaLo : (platformReset s).sigmaLo = 0 := rfl
@[simp] theorem platformReset_sigmaHi : (platformReset s).sigmaHi = 0 := rfl
@[simp] theorem platformReset_desc : (platformReset s).desc = Descriptor.zero := rfl
@[simp] theorem platformReset_inMem : (platformReset s).inMem = [] := rfl
@[simp] theorem platformReset_outMem : (platformReset s).outMem = [] := rfl
@[simp] theorem platformReset_coef : (platformReset s).coef = [] := rfl
@[simp] theorem platformReset_luma : (platformReset s).luma = [] := rfl
@[simp] theorem platformReset_inputs : (platformReset s).inputs = s.inputs := rfl
@[simp] theorem platformReset_replies : (platformReset s).replies = s.replies := rfl
@[simp] theorem platformReset_pending : (platformReset s).pending = false := rfl
@[simp] theorem platformReset_race : (platformReset s).race = false := rfl
@[simp] theorem platformReset_earlier : (platformReset s).earlier = [] := rfl
@[simp] theorem platformReset_draws : (platformReset s).draws = s.draws := rfl
@[simp] theorem platformReset_resets : (platformReset s).resets = s.resets + 1 := rfl
@[simp] theorem platformReset_params : (platformReset s).params = s.params := rfl
@[simp] theorem platformReset_transfer : (platformReset s).transfer = s.transfer := rfl

/-! ### disturbResults, disturb, storeByte, afterLoad, hostLoadCoef -/

@[simp] theorem disturbResults_status (i : Nat) : (disturbResults i s).status = s.status := by
  unfold disturbResults; dsimp only; split <;> rfl
@[simp] theorem disturbResults_fsel (i : Nat) : (disturbResults i s).fsel = s.fsel := by
  unfold disturbResults; dsimp only; split <;> rfl
@[simp] theorem disturbResults_width (i : Nat) : (disturbResults i s).width = s.width := by
  unfold disturbResults; dsimp only; split <;> rfl
@[simp] theorem disturbResults_height (i : Nat) : (disturbResults i s).height = s.height := by
  unfold disturbResults; dsimp only; split <;> rfl
@[simp] theorem disturbResults_ksize (i : Nat) : (disturbResults i s).ksize = s.ksize := by
  unfold disturbResults; dsimp only; split <;> rfl
@[simp] theorem disturbResults_sigmaLo (i : Nat) : (disturbResults i s).sigmaLo = s.sigmaLo := by
  unfold disturbResults; dsimp only; split <;> rfl
@[simp] theorem disturbResults_sigmaHi (i : Nat) : (disturbResults i s).sigmaHi = s.sigmaHi := by
  unfold disturbResults; dsimp only; split <;> rfl
@[simp] theorem disturbResults_desc (i : Nat) : (disturbResults i s).desc = s.desc := by
  unfold disturbResults; dsimp only; split <;> rfl
@[simp] theorem disturbResults_inMem (i : Nat) : (disturbResults i s).inMem = s.inMem := by
  unfold disturbResults; dsimp only; split <;> rfl
@[simp] theorem disturbResults_coef (i : Nat) : (disturbResults i s).coef = s.coef := by
  unfold disturbResults; dsimp only; split <;> rfl
@[simp] theorem disturbResults_luma (i : Nat) : (disturbResults i s).luma = s.luma := by
  unfold disturbResults; dsimp only; split <;> rfl
@[simp] theorem disturbResults_inputs (i : Nat) : (disturbResults i s).inputs = s.inputs := by
  unfold disturbResults; dsimp only; split <;> rfl
@[simp] theorem disturbResults_transfer (i : Nat) : (disturbResults i s).transfer = s.transfer := by
  unfold disturbResults; dsimp only; split <;> rfl
@[simp] theorem disturbResults_replies (i : Nat) : (disturbResults i s).replies = s.replies := by
  unfold disturbResults; dsimp only; split <;> rfl
@[simp] theorem disturbResults_pending (i : Nat) : (disturbResults i s).pending = s.pending := by
  unfold disturbResults; dsimp only; split <;> rfl
@[simp] theorem disturbResults_earlier (i : Nat) : (disturbResults i s).earlier = s.earlier := by
  unfold disturbResults; dsimp only; split <;> rfl
@[simp] theorem disturbResults_resets (i : Nat) : (disturbResults i s).resets = s.resets := by
  unfold disturbResults; dsimp only; split <;> rfl
@[simp] theorem disturbResults_params (i : Nat) : (disturbResults i s).params = s.params := by
  unfold disturbResults; dsimp only; split <;> rfl
@[simp] theorem disturbResults_race (i : Nat) : (disturbResults i s).race = s.race := by
  unfold disturbResults; dsimp only; split <;> rfl

@[simp] theorem disturb_status (i : Nat) : (disturb i s).status = s.status := by simp [disturb]
@[simp] theorem disturb_fsel (i : Nat) : (disturb i s).fsel = s.fsel := by simp [disturb]
@[simp] theorem disturb_width (i : Nat) : (disturb i s).width = s.width := by simp [disturb]
@[simp] theorem disturb_height (i : Nat) : (disturb i s).height = s.height := by simp [disturb]
@[simp] theorem disturb_ksize (i : Nat) : (disturb i s).ksize = s.ksize := by simp [disturb]
@[simp] theorem disturb_sigmaLo (i : Nat) : (disturb i s).sigmaLo = s.sigmaLo := by simp [disturb]
@[simp] theorem disturb_sigmaHi (i : Nat) : (disturb i s).sigmaHi = s.sigmaHi := by simp [disturb]
@[simp] theorem disturb_desc (i : Nat) : (disturb i s).desc = s.desc := by simp [disturb]
@[simp] theorem disturb_inMem (i : Nat) : (disturb i s).inMem = s.inMem := by simp [disturb]
@[simp] theorem disturb_coef (i : Nat) : (disturb i s).coef = s.coef := by simp [disturb]
@[simp] theorem disturb_luma (i : Nat) : (disturb i s).luma = s.luma := by simp [disturb]
@[simp] theorem disturb_inputs (i : Nat) : (disturb i s).inputs = s.inputs := by simp [disturb]
@[simp] theorem disturb_transfer (i : Nat) : (disturb i s).transfer = s.transfer := by simp [disturb]
@[simp] theorem disturb_replies (i : Nat) : (disturb i s).replies = s.replies := by simp [disturb]
@[simp] theorem disturb_pending (i : Nat) : (disturb i s).pending = s.pending := by simp [disturb]
@[simp] theorem disturb_earlier (i : Nat) : (disturb i s).earlier = s.earlier := by simp [disturb]
@[simp] theorem disturb_resets (i : Nat) : (disturb i s).resets = s.resets := by simp [disturb]
@[simp] theorem disturb_params (i : Nat) : (disturb i s).params = s.params := by simp [disturb]
@[simp] theorem disturb_race (i : Nat) : (disturb i s).race = (s.race || breachesInFlight i s) := rfl
@[simp] theorem disturb_outMem (i : Nat) : (disturb i s).outMem = (disturbResults i s).outMem := rfl

@[simp] theorem storeByte_status (i : Nat) (b : Byte) : (storeByte i b s).status = s.status := by
  unfold storeByte; split <;> simp
@[simp] theorem storeByte_fsel (i : Nat) (b : Byte) : (storeByte i b s).fsel = s.fsel := by
  unfold storeByte; split <;> simp
@[simp] theorem storeByte_width (i : Nat) (b : Byte) : (storeByte i b s).width = s.width := by
  unfold storeByte; split <;> simp
@[simp] theorem storeByte_height (i : Nat) (b : Byte) : (storeByte i b s).height = s.height := by
  unfold storeByte; split <;> simp
@[simp] theorem storeByte_ksize (i : Nat) (b : Byte) : (storeByte i b s).ksize = s.ksize := by
  unfold storeByte; split <;> simp
@[simp] theorem storeByte_sigmaLo (i : Nat) (b : Byte) : (storeByte i b s).sigmaLo = s.sigmaLo := by
  unfold storeByte; split <;> simp
@[simp] theorem storeByte_sigmaHi (i : Nat) (b : Byte) : (storeByte i b s).sigmaHi = s.sigmaHi := by
  unfold storeByte; split <;> simp
@[simp] theorem storeByte_desc (i : Nat) (b : Byte) : (storeByte i b s).desc = s.desc := by
  unfold storeByte; split <;> simp
@[simp] theorem storeByte_coef (i : Nat) (b : Byte) : (storeByte i b s).coef = s.coef := by
  unfold storeByte; split <;> simp
@[simp] theorem storeByte_luma (i : Nat) (b : Byte) : (storeByte i b s).luma = s.luma := by
  unfold storeByte; split <;> simp
@[simp] theorem storeByte_inputs (i : Nat) (b : Byte) : (storeByte i b s).inputs = s.inputs := by
  unfold storeByte; split <;> simp
@[simp] theorem storeByte_transfer (i : Nat) (b : Byte) : (storeByte i b s).transfer = s.transfer := by
  unfold storeByte; split <;> simp
@[simp] theorem storeByte_replies (i : Nat) (b : Byte) : (storeByte i b s).replies = s.replies := by
  unfold storeByte; split <;> simp
@[simp] theorem storeByte_pending (i : Nat) (b : Byte) : (storeByte i b s).pending = s.pending := by
  unfold storeByte; split <;> simp
@[simp] theorem storeByte_earlier (i : Nat) (b : Byte) : (storeByte i b s).earlier = s.earlier := by
  unfold storeByte; split <;> simp
@[simp] theorem storeByte_resets (i : Nat) (b : Byte) : (storeByte i b s).resets = s.resets := by
  unfold storeByte; split <;> simp
@[simp] theorem storeByte_params (i : Nat) (b : Byte) : (storeByte i b s).params = s.params := by
  unfold storeByte; split <;> simp

@[simp] theorem afterLoad_status (m : Samples) (i n : Nat) (got : List Byte) : (afterLoad m i n got s).status = s.status := by
  cases n <;> rfl
@[simp] theorem afterLoad_fsel (m : Samples) (i n : Nat) (got : List Byte) : (afterLoad m i n got s).fsel = s.fsel := by
  cases n <;> rfl
@[simp] theorem afterLoad_width (m : Samples) (i n : Nat) (got : List Byte) : (afterLoad m i n got s).width = s.width := by
  cases n <;> rfl
@[simp] theorem afterLoad_height (m : Samples) (i n : Nat) (got : List Byte) : (afterLoad m i n got s).height = s.height := by
  cases n <;> rfl
@[simp] theorem afterLoad_ksize (m : Samples) (i n : Nat) (got : List Byte) : (afterLoad m i n got s).ksize = s.ksize := by
  cases n <;> rfl
@[simp] theorem afterLoad_sigmaLo (m : Samples) (i n : Nat) (got : List Byte) : (afterLoad m i n got s).sigmaLo = s.sigmaLo := by
  cases n <;> rfl
@[simp] theorem afterLoad_sigmaHi (m : Samples) (i n : Nat) (got : List Byte) : (afterLoad m i n got s).sigmaHi = s.sigmaHi := by
  cases n <;> rfl
@[simp] theorem afterLoad_desc (m : Samples) (i n : Nat) (got : List Byte) : (afterLoad m i n got s).desc = s.desc := by
  cases n <;> rfl
@[simp] theorem afterLoad_inMem (m : Samples) (i n : Nat) (got : List Byte) : (afterLoad m i n got s).inMem = s.inMem := by
  cases n <;> rfl
@[simp] theorem afterLoad_outMem (m : Samples) (i n : Nat) (got : List Byte) : (afterLoad m i n got s).outMem = s.outMem := by
  cases n <;> rfl
@[simp] theorem afterLoad_coef (m : Samples) (i n : Nat) (got : List Byte) : (afterLoad m i n got s).coef = s.coef := by
  cases n <;> rfl
@[simp] theorem afterLoad_luma (m : Samples) (i n : Nat) (got : List Byte) : (afterLoad m i n got s).luma = s.luma := by
  cases n <;> rfl
@[simp] theorem afterLoad_inputs (m : Samples) (i n : Nat) (got : List Byte) : (afterLoad m i n got s).inputs = s.inputs := by
  cases n <;> rfl
@[simp] theorem afterLoad_pending (m : Samples) (i n : Nat) (got : List Byte) : (afterLoad m i n got s).pending = s.pending := by
  cases n <;> rfl
@[simp] theorem afterLoad_race (m : Samples) (i n : Nat) (got : List Byte) : (afterLoad m i n got s).race = s.race := by
  cases n <;> rfl
@[simp] theorem afterLoad_earlier (m : Samples) (i n : Nat) (got : List Byte) : (afterLoad m i n got s).earlier = s.earlier := by
  cases n <;> rfl
@[simp] theorem afterLoad_draws (m : Samples) (i n : Nat) (got : List Byte) : (afterLoad m i n got s).draws = s.draws := by
  cases n <;> rfl
@[simp] theorem afterLoad_resets (m : Samples) (i n : Nat) (got : List Byte) : (afterLoad m i n got s).resets = s.resets := by
  cases n <;> rfl
@[simp] theorem afterLoad_params (m : Samples) (i n : Nat) (got : List Byte) : (afterLoad m i n got s).params = s.params := by
  cases n <;> rfl

@[simp] theorem hostLoadCoef_status (i n : Nat) : (hostLoadCoef i n s).status = s.status := rfl
@[simp] theorem hostLoadCoef_fsel (i n : Nat) : (hostLoadCoef i n s).fsel = s.fsel := rfl
@[simp] theorem hostLoadCoef_width (i n : Nat) : (hostLoadCoef i n s).width = s.width := rfl
@[simp] theorem hostLoadCoef_height (i n : Nat) : (hostLoadCoef i n s).height = s.height := rfl
@[simp] theorem hostLoadCoef_ksize (i n : Nat) : (hostLoadCoef i n s).ksize = s.ksize := rfl
@[simp] theorem hostLoadCoef_sigmaLo (i n : Nat) : (hostLoadCoef i n s).sigmaLo = s.sigmaLo := rfl
@[simp] theorem hostLoadCoef_sigmaHi (i n : Nat) : (hostLoadCoef i n s).sigmaHi = s.sigmaHi := rfl
@[simp] theorem hostLoadCoef_desc (i n : Nat) : (hostLoadCoef i n s).desc = s.desc := rfl
@[simp] theorem hostLoadCoef_inMem (i n : Nat) : (hostLoadCoef i n s).inMem = s.inMem := rfl
@[simp] theorem hostLoadCoef_outMem (i n : Nat) : (hostLoadCoef i n s).outMem = s.outMem := rfl
@[simp] theorem hostLoadCoef_coef (i n : Nat) : (hostLoadCoef i n s).coef = s.coef := rfl
@[simp] theorem hostLoadCoef_luma (i n : Nat) : (hostLoadCoef i n s).luma = s.luma := rfl
@[simp] theorem hostLoadCoef_inputs (i n : Nat) : (hostLoadCoef i n s).inputs = s.inputs := rfl
@[simp] theorem hostLoadCoef_transfer (i n : Nat) : (hostLoadCoef i n s).transfer = s.transfer := rfl
@[simp] theorem hostLoadCoef_pending (i n : Nat) : (hostLoadCoef i n s).pending = s.pending := rfl
@[simp] theorem hostLoadCoef_race (i n : Nat) : (hostLoadCoef i n s).race = s.race := rfl
@[simp] theorem hostLoadCoef_earlier (i n : Nat) : (hostLoadCoef i n s).earlier = s.earlier := rfl
@[simp] theorem hostLoadCoef_resets (i n : Nat) : (hostLoadCoef i n s).resets = s.resets := rfl
@[simp] theorem hostLoadCoef_params (i n : Nat) : (hostLoadCoef i n s).params = s.params := rfl

/-- A write to IN changes the one byte, and nothing beyond the space. -/
theorem storeByte_inMem (i : Nat) (b : Byte) :
    (storeByte i b s).inMem = if i < s.params.sampleBytes then s.inMem.write i b else s.inMem := by
  unfold storeByte
  split <;> rfl

/-! ### Reads through an update -/

@[simp] theorem writeOut_inByte (n : Nat) (f : Nat → Option Byte) (a : Nat) : (writeOut n f s).inByte a = s.inByte a := rfl
@[simp] theorem writeCoef_inByte (n : Nat) (k : Nat → DWord) (a : Nat) : (writeCoef n k s).inByte a = s.inByte a := rfl
@[simp] theorem writeLuma_inByte (n : Nat) (f : Nat → Option LumaWord) (a : Nat) :
    (writeLuma n f s).inByte a = s.inByte a := rfl
@[simp] theorem complete_outByte (a : Nat) : (complete s).outByte a = s.outByte a := rfl
@[simp] theorem complete_coefEntry (a : Nat) : (complete s).coefEntry a = s.coefEntry a := rfl
@[simp] theorem writeCoef_outByte (n : Nat) (k : Nat → DWord) (a : Nat) : (writeCoef n k s).outByte a = s.outByte a := rfl
@[simp] theorem writeLuma_outByte (n : Nat) (f : Nat → Option LumaWord) (a : Nat) :
    (writeLuma n f s).outByte a = s.outByte a := rfl
@[simp] theorem writeOut_coefEntry (n : Nat) (f : Nat → Option Byte) (i : Nat) :
    (writeOut n f s).coefEntry i = s.coefEntry i := rfl
@[simp] theorem writeLuma_coefEntry (n : Nat) (f : Nat → Option LumaWord) (i : Nat) :
    (writeLuma n f s).coefEntry i = s.coefEntry i := rfl

end Sys2Proof.Machine
end

