-- ==== Sys2Proof/Laws/Ops.lean ====
section
/-! SUPPORT. What each shared operation can do, said once: the reads after a command's writes, the two ends of a
checked command, that every command has a next state, and what one step can be. -/
namespace Sys2Proof.Machine

/-! ### Reads after writes -/

/-- OUT after a command's write: below `n` the defined byte, or the free value where it is undefined or the Host raced;
from `n` up the earlier byte. -/
theorem outByte_writeOut (n : Nat) (f : Nat → Option Byte) (s : State) (a : Nat) :
    (writeOut n f s).outByte a =
      if a < n then (if s.race then none else f a).getD (Config.anyByte s.draws a) else s.outByte a := by
  simp only [State.outByte, writeOut_outMem, writeOut_resets, Memory.get?_fill]
  split <;> rfl

theorem outByte_writeOut_of_some {n : Nat} {f : Nat → Option Byte} {s : State} {a : Nat} {b : Byte} (ha : a < n)
    (hr : s.race = false) (hf : f a = some b) : (writeOut n f s).outByte a = b := by
  rw [outByte_writeOut, if_pos ha, hr, hf]; rfl

/-- A byte that the command leaves undefined is the free value of its draw. -/
theorem outByte_writeOut_of_none {n : Nat} {f : Nat → Option Byte} {s : State} {a : Nat} (ha : a < n) (hf : f a = none) :
    (writeOut n f s).outByte a = Config.anyByte s.draws a := by
  rw [outByte_writeOut, if_pos ha, hf]; split <;> rfl

theorem outByte_writeOut_of_le {n : Nat} {f : Nat → Option Byte} {s : State} {a : Nat} (ha : n ≤ a) :
    (writeOut n f s).outByte a = s.outByte a := by
  rw [outByte_writeOut, if_neg (by omega)]

theorem coefEntry_writeCoef (n : Nat) (k : Nat → DWord) (s : State) (i : Nat) :
    (writeCoef n k s).coefEntry i = if i < n then k i else s.coefEntry i := by
  simp only [State.coefEntry, writeCoef_coef, writeCoef_resets, Memory.get?_fill]
  split <;> rfl

theorem coef_get?_writeCoef (n : Nat) (k : Nat → DWord) (s : State) (i : Nat) :
    (writeCoef n k s).coef.get? i = if i < n then some (k i) else s.coef.get? i := by
  rw [writeCoef_coef, Memory.get?_fill]

theorem luma_get?_writeLuma (n : Nat) (f : Nat → Option LumaWord) (s : State) (i : Nat) :
    (writeLuma n f s).luma.get? i = if i < n then f i else s.luma.get? i := by
  rw [writeLuma_luma, Memory.get?_fill]

/-! ### The two ends of a checked command -/

@[simp] theorem runChecked_none (run : State → State) (s : State) : runChecked none run s = complete (run s) := rfl
@[simp] theorem runChecked_some (e : ParamError) (run : State → State) (s : State) :
    runChecked (some e) run s = raiseInvalidParameter e s := rfl

theorem checkGeometry_eq_none {p : Params} {w h : Word} :
    checkGeometry p w h = none ↔ w.toNat * h.toNat ≤ p.capPix := by
  simp [checkGeometry, geomValid]

theorem checkGeometry_eq_some {p : Params} {w h : Word} (hc : p.capPix < w.toNat * h.toNat) :
    checkGeometry p w h = some .geometry := by
  simp [checkGeometry, geomValid, hc]

theorem checkKernel_eq_none {p : Params} {k : Word} {g : DWord} :
    checkKernel p k g = none ↔ (k.toNat % 2 = 1 ∧ k.toNat ≤ p.kmax) ∧ sigmaValid g = true := by
  by_cases h1 : k.toNat % 2 = 1 <;> by_cases h2 : k.toNat ≤ p.kmax <;> by_cases h3 : sigmaValid g = true <;>
    simp [checkKernel, ksizeValid, h1, h2, h3]

/-! ### Every command has a next state -/

/-- The state a command ends in. -/
def result (i : Instr) (s : State) : State :=
  match i with
  | .identity w h => runChecked (checkGeometry s.params w h) (copyBuffer w.toNat h.toNat) s
  | .gaussian w h k g =>
    runChecked ((checkGeometry s.params w h).or (checkKernel s.params k g)) (runGaussian w.toNat h.toNat k.toNat g) s
  | .box w h => runChecked (checkGeometry s.params w h) (runBox w.toNat h.toNat) s
  | .sharpen w h => runChecked (checkGeometry s.params w h) (runSharpen w.toNat h.toNat) s
  | .edge w h => runChecked (checkGeometry s.params w h) (runEdge w.toNat h.toNat) s
  | .gray w h => runChecked (checkGeometry s.params w h) (runGray w.toNat h.toNat) s
  | .unknown _ w h => runChecked (checkGeometry s.params w h) (copyBuffer w.toNat h.toNat) s
  | .genk k g => runChecked (checkKernel s.params k g) (generateKernel k.toNat g) s
  | .nolaunch => s

theorem exec_eq_result (i : Instr) (s : State) : exec i s = .next (result i s) := by cases i <;> rfl

/-! ### What one step is -/

theorem step_of_run {s t : State} {i : Instr} (h : turn s = .run i t) : step s = .next (result i t) := by
  simp only [step, h, exec_eq_result]

theorem step_of_move {s t : State} (h : turn s = .move t) : step s = .next t := by simp only [step, h]

/-- Every step answers a next state: the machine never stops (93, end of part 1). -/
theorem step_next (s : State) : ∃ t, step s = .next t := by
  cases h : turn s with
  | run i t => exact ⟨_, step_of_run h⟩
  | move t => exact ⟨_, step_of_move h⟩

theorem engineTurn_of_idle {s : State} (h : s.busy = false) : engineTurn s = .move s := by
  simp [engineTurn, fetch, h]

theorem engineTurn_of_busy {s : State} (h : s.busy = true) : engineTurn s = .run (decode s.desc.words) s := by
  simp [engineTurn, fetch, h]

end Sys2Proof.Machine
end

