-- ==== Sys2Proof/Laws/Access.lean ====
section
/-! SUPPORT. What one byte of a Host access can do: the reads after a write to IN, what a write to IN disturbs, and the
fields that no byte of an access changes. -/
namespace Sys2Proof.Machine

/-- IN after a single-byte write. -/
theorem inByte_storeByte (i : Nat) (b : Byte) (s : State) (a : Nat) :
    (storeByte i b s).inByte a = if a = i ∧ i < s.params.sampleBytes then b else s.inByte a := by
  simp only [State.inByte, storeByte_inMem, storeByte_resets]
  by_cases hi : i < s.params.sampleBytes
  · rw [if_pos hi, Memory.get?_write]
    by_cases ha : a = i
    · simp [ha, hi]
    · simp [ha]
  · simp [hi]

/-- OUT after a write to IN at `i`: a byte of an open result whose command's input buffer holds `i` is any value, every
other byte is as before. -/
theorem outByte_disturbResults {s : State} {i a : Nat} (ha : a < s.params.sampleBytes) :
    (disturbResults i s).outByte a =
      if disturbs i (openResults s) a then Config.anyByte s.draws a else s.outByte a := by
  have bound (l : List Nat) (h : disturbs i l a = true) : (l.any fun n => decide (i < n)) = true ∧ a < l.foldr max 0 := by
    unfold disturbs at h
    split at h
    · rename_i n hn
      have hm := List.mem_of_find?_eq_some hn
      have hlt := List.find?_some hn
      simp only [decide_eq_true_eq] at hlt h
      have hle : n ≤ l.foldr max 0 := by
        clear hn
        induction l with
        | nil => simp at hm
        | cons x r ih =>
          simp only [List.foldr_cons]
          rcases List.mem_cons.1 hm with rfl | hr
          · exact le_max_left _ _
          · exact (ih hr).trans (le_max_right _ _)
      exact ⟨List.any_eq_true.2 ⟨n, hm, by simpa using h⟩, by omega⟩
    · exact absurd h (by simp)
  unfold disturbResults
  simp only
  split
  · simp only [State.outByte, Memory.get?_fill]
    by_cases hd : disturbs i (openResults s) a = true
    · rw [if_pos (lt_min (bound _ hd).2 ha), if_pos hd, if_pos hd]; rfl
    · rw [if_neg hd, if_neg hd, ite_self]
  · rename_i hn
    rw [if_neg]
    exact fun hd => hn (bound _ hd).1

/-- A write to IN that no open result's input buffer holds leaves every result as it is. -/
theorem disturbResults_of_none {s : State} {i : Nat} (h : ∀ n ∈ openResults s, n ≤ i) : disturbResults i s = s := by
  unfold disturbResults
  simp only
  rw [if_neg]
  simpa using h

/-- With no command pending no result is open. -/
theorem openResults_of_not_pending {s : State} (h : s.pending = false) : openResults s = [] := by simp [openResults, h]

/-- With no command pending a write to IN disturbs nothing. -/
theorem disturb_of_not_pending {s : State} (i : Nat) (h : s.pending = false) : disturb i s = s := by
  unfold disturb
  rw [disturbResults_of_none (by simp [openResults_of_not_pending h]),
    show breachesInFlight i s = false by simp [breachesInFlight, h], Bool.or_false]

/-- With a command in flight the results that are open are the earlier ones. -/
theorem openResults_of_busy {s : State} (hb : s.busy = true) (hp : s.pending = true) : openResults s = s.earlier := by
  simp [openResults, hb, hp]

/-- Every step of an access keeps the moves left, and everything that only a register access, a launch or a command
changes. -/
theorem advance_keeps (t : Transfer) (s : State) :
    (advance t s).inputs = s.inputs ∧ (advance t s).status = s.status ∧ (advance t s).fsel = s.fsel ∧
      (advance t s).width = s.width ∧ (advance t s).height = s.height ∧ (advance t s).ksize = s.ksize ∧
      (advance t s).sigmaLo = s.sigmaLo ∧ (advance t s).sigmaHi = s.sigmaHi ∧ (advance t s).desc = s.desc ∧
      (advance t s).coef = s.coef ∧ (advance t s).luma = s.luma ∧ (advance t s).pending = s.pending ∧
      (advance t s).resets = s.resets ∧ (advance t s).params = s.params ∧ (advance t s).earlier = s.earlier := by
  cases t with
  | store i left => cases left <;> simp [advance]
  | load m i n got => cases n <;> simp [advance]

/-- A byte of a read changes no register and no memory. -/
theorem samePfe_advance_load (m : Samples) (i n : Nat) (got : List Byte) (s : State) :
    SamePfe s (advance (.load m i n got) s) := by
  cases n <;> simp [advance, SamePfe]

end Sys2Proof.Machine
end

