-- ==== Sys2Proof/Laws/Flags.lean ====
section
/-! SUPPORT. Each bit of STATUS after a launch, a completion and a fault. -/
namespace Sys2Proof.Machine

/-- The bits after one bit is written. -/
theorem getLsbD_withBit {i : Nat} (hi : i < 32) (b : Bool) (st : Word) (j : Nat) :
    (withBit i b st).getLsbD j = if j = i then b else st.getLsbD j := by
  have one : ((1#32) <<< i).getLsbD j = decide (j = i) := by
    rw [BitVec.getLsbD_shiftLeft, BitVec.getLsbD_one]
    by_cases hj : j = i
    · subst hj; simp [hi]
    · by_cases hlt : j < i
      · simp [hlt, hj]
      · have : j - i ≠ 0 := by omega
        simp [hj, this]
  unfold withBit
  cases b with
  | true => simp only [if_true, BitVec.getLsbD_or, one]; by_cases hj : j = i <;> simp [hj]
  | false =>
    simp only [Bool.false_eq_true, if_false, BitVec.getLsbD_and, BitVec.getLsbD_not, one]
    by_cases hj : j = i
    · simp [hj]
    · by_cases h32 : j < 32
      · simp [hj, h32]
      · simp [hj, BitVec.getLsbD_of_ge _ _ (Nat.le_of_not_lt h32)]

/-- The bits after ECODE is written. -/
theorem getLsbD_withEcode (c : Byte) (st : Word) (j : Nat) :
    (withEcode c st).getLsbD j = if 8 ≤ j ∧ j < 16 then c.getLsbD (j - 8) else st.getLsbD j := by
  have mask : (0x0000FF00#32).getLsbD j = decide (8 ≤ j ∧ j < 16) := by
    by_cases h : j < 32
    · interval_cases j <;> decide
    · rw [BitVec.getLsbD_of_ge _ _ (Nat.le_of_not_lt h)]
      exact (decide_eq_false (by omega)).symm
  unfold withEcode
  rw [BitVec.getLsbD_or, BitVec.getLsbD_and, BitVec.getLsbD_not, mask, BitVec.getLsbD_shiftLeft,
    BitVec.getLsbD_setWidth]
  by_cases h32 : j < 32
  · by_cases h8 : j < 8
    · simp [h32, h8, Nat.not_le_of_lt h8]
    · by_cases h16 : j < 16
      · have : j - 8 < 32 := by omega
        simp [h32, h8, h16, this, Nat.le_of_not_lt h8]
      · have : c.getLsbD (j - 8) = false := BitVec.getLsbD_of_ge _ _ (by omega)
        simp [h32, h16, this]
  · have h16 : ¬ j < 16 := by omega
    simp [h32, h16, BitVec.getLsbD_of_ge _ _ (Nat.le_of_not_lt h32)]

theorem ecodeField_withEcode (c : Byte) (st : Word) : ecodeField (withEcode c st) = c := by
  unfold ecodeField
  ext j hj
  rw [BitVec.getElem_extractLsb', getLsbD_withEcode, if_pos (by omega), Nat.add_sub_cancel_left,
    BitVec.getLsbD_eq_getElem hj]

@[simp] theorem busyOf_statusLaunched (st : Word) : busyOf (statusLaunched st) = true := by
  unfold busyOf statusLaunched
  rw [getLsbD_withEcode, getLsbD_withBit (by omega), getLsbD_withBit (by omega), getLsbD_withBit (by omega)]
  rfl
@[simp] theorem doneOf_statusLaunched (st : Word) : doneOf (statusLaunched st) = false := by
  unfold doneOf statusLaunched
  rw [getLsbD_withEcode, getLsbD_withBit (by omega), getLsbD_withBit (by omega), getLsbD_withBit (by omega)]
  rfl
@[simp] theorem errOf_statusLaunched (st : Word) : errOf (statusLaunched st) = false := by
  unfold errOf statusLaunched
  rw [getLsbD_withEcode, getLsbD_withBit (by omega), getLsbD_withBit (by omega), getLsbD_withBit (by omega)]
  rfl
@[simp] theorem ecodeField_statusLaunched (st : Word) : ecodeField (statusLaunched st) = 0 :=
  ecodeField_withEcode ..
theorem getLsbD_statusLaunched (st : Word) {j : Nat} (h : 3 ≤ j ∧ j < 8 ∨ 16 ≤ j) :
    (statusLaunched st).getLsbD j = st.getLsbD j := by
  unfold statusLaunched
  rw [getLsbD_withEcode, if_neg (by omega), getLsbD_withBit (by omega), if_neg (by omega),
    getLsbD_withBit (by omega), if_neg (by omega), getLsbD_withBit (by omega), if_neg (by omega)]

@[simp] theorem busyOf_statusCompleted (st : Word) : busyOf (statusCompleted st) = false := by
  unfold busyOf statusCompleted
  rw [getLsbD_withBit (by omega), getLsbD_withBit (by omega)]
  rfl
@[simp] theorem doneOf_statusCompleted (st : Word) : doneOf (statusCompleted st) = true := by
  unfold doneOf statusCompleted
  rw [getLsbD_withBit (by omega), getLsbD_withBit (by omega)]
  rfl
theorem getLsbD_statusCompleted (st : Word) {j : Nat} (h : 2 ≤ j) :
    (statusCompleted st).getLsbD j = st.getLsbD j := by
  unfold statusCompleted
  rw [getLsbD_withBit (by omega), if_neg (by omega), getLsbD_withBit (by omega), if_neg (by omega)]

@[simp] theorem busyOf_statusFaulted (c : Byte) (st : Word) : busyOf (statusFaulted c st) = false := by
  unfold busyOf statusFaulted
  rw [getLsbD_withEcode, getLsbD_withBit (by omega), getLsbD_withBit (by omega), getLsbD_withBit (by omega)]
  rfl
@[simp] theorem doneOf_statusFaulted (c : Byte) (st : Word) : doneOf (statusFaulted c st) = true := by
  unfold doneOf statusFaulted
  rw [getLsbD_withEcode, getLsbD_withBit (by omega), getLsbD_withBit (by omega), getLsbD_withBit (by omega)]
  rfl
@[simp] theorem errOf_statusFaulted (c : Byte) (st : Word) : errOf (statusFaulted c st) = true := by
  unfold errOf statusFaulted
  rw [getLsbD_withEcode, getLsbD_withBit (by omega), getLsbD_withBit (by omega), getLsbD_withBit (by omega)]
  rfl
@[simp] theorem ecodeField_statusFaulted (c : Byte) (st : Word) : ecodeField (statusFaulted c st) = c :=
  ecodeField_withEcode ..
theorem getLsbD_statusFaulted (c : Byte) (st : Word) {j : Nat} (h : 3 ≤ j ∧ j < 8 ∨ 16 ≤ j) :
    (statusFaulted c st).getLsbD j = st.getLsbD j := by
  unfold statusFaulted
  rw [getLsbD_withEcode, if_neg (by omega), getLsbD_withBit (by omega), if_neg (by omega),
    getLsbD_withBit (by omega), if_neg (by omega), getLsbD_withBit (by omega), if_neg (by omega)]

end Sys2Proof.Machine
end

