-- ==== Sys2Proof/Laws/Commands.lean ====
section
/-! SUPPORT. What every command keeps, and the two ends it can reach. -/
namespace Sys2Proof.Machine

/-- A checked command either ends in its failing check or completes. -/
theorem runChecked_cases (failed : Option ParamError) (run : State → State) (s : State) :
    (∃ e, failed = some e ∧ runChecked failed run s = raiseInvalidParameter e s) ∨
      (failed = none ∧ runChecked failed run s = complete (run s)) := by
  cases failed with
  | none => exact .inr ⟨rfl, rfl⟩
  | some e => exact .inl ⟨e, rfl, rfl⟩

theorem CommandKeeps.refl (s : State) : CommandKeeps s s := by constructor <;> intros <;> rfl

theorem CommandKeeps.trans {s t u : State} (h : CommandKeeps s t) (g : CommandKeeps t u) : CommandKeeps s u :=
  ⟨g.params.trans h.params, g.fsel.trans h.fsel, g.width.trans h.width, g.height.trans h.height, g.ksize.trans h.ksize,
    g.sigmaLo.trans h.sigmaLo, g.sigmaHi.trans h.sigmaHi, g.desc.trans h.desc,
    fun a => (g.input a).trans (h.input a), g.inputs.trans h.inputs, g.transfer.trans h.transfer, g.replies.trans h.replies,
    g.pending.trans h.pending, g.race.trans h.race, g.earlier.trans h.earlier, g.resets.trans h.resets⟩

theorem commandKeeps_raise (e : ParamError) (s : State) : CommandKeeps s (raiseInvalidParameter e s) := by
  constructor <;> intros <;> rfl
theorem commandKeeps_complete (s : State) : CommandKeeps s (complete s) := by constructor <;> intros <;> rfl
theorem commandKeeps_writeOut (n : Nat) (f : Nat → Option Byte) (s : State) : CommandKeeps s (writeOut n f s) := by
  constructor <;> intros <;> rfl
theorem commandKeeps_writeCoef (n : Nat) (k : Nat → DWord) (s : State) : CommandKeeps s (writeCoef n k s) := by
  constructor <;> intros <;> rfl
theorem commandKeeps_writeLuma (n : Nat) (f : Nat → Option LumaWord) (s : State) :
    CommandKeeps s (writeLuma n f s) := by
  constructor <;> intros <;> rfl

theorem commandKeeps_runChecked {failed : Option ParamError} {run : State → State} {s : State}
    (h : CommandKeeps s (run s)) : CommandKeeps s (runChecked failed run s) := by
  rcases runChecked_cases failed run s with ⟨e, -, he⟩ | ⟨-, he⟩ <;> rw [he]
  · exact commandKeeps_raise e s
  · exact h.trans (commandKeeps_complete _)

/-- No command changes a parameter register, D, IN or the Host's side. -/
theorem commandKeeps_result (i : Instr) (s : State) : CommandKeeps s (result i s) := by
  cases i with
  | identity w h => exact commandKeeps_runChecked (commandKeeps_writeOut ..)
  | gaussian w h k g =>
    exact commandKeeps_runChecked ((commandKeeps_writeCoef ..).trans (commandKeeps_writeOut ..))
  | box w h => exact commandKeeps_runChecked ((commandKeeps_writeCoef ..).trans (commandKeeps_writeOut ..))
  | sharpen w h => exact commandKeeps_runChecked ((commandKeeps_writeCoef ..).trans (commandKeeps_writeOut ..))
  | edge w h => exact commandKeeps_runChecked ((commandKeeps_writeLuma ..).trans (commandKeeps_writeOut ..))
  | gray w h => exact commandKeeps_runChecked (commandKeeps_writeOut ..)
  | unknown f w h => exact commandKeeps_runChecked (commandKeeps_writeOut ..)
  | genk k g => exact commandKeeps_runChecked (commandKeeps_writeCoef ..)
  | nolaunch => exact CommandKeeps.refl s

/-- A launched command ends in InvalidParameter with nothing but STATUS changed, or with STATUS completed. -/
theorem result_ends {i : Instr} (s : State) (hi : i ≠ .nolaunch) :
    (∃ e, result i s = raiseInvalidParameter e s) ∨ (result i s).status = statusCompleted s.status := by
  have key : ∀ failed run, (run s).status = s.status →
      (∃ e, runChecked failed run s = raiseInvalidParameter e s) ∨
        (runChecked failed run s).status = statusCompleted s.status := by
    intro failed run h
    rcases runChecked_cases failed run s with ⟨e, -, he⟩ | ⟨-, he⟩ <;> rw [he]
    · exact .inl ⟨e, rfl⟩
    · exact .inr (by rw [complete_status, h])
  cases i with
  | nolaunch => exact absurd rfl hi
  | identity w h => exact key _ _ rfl
  | gaussian w h k g => exact key _ _ rfl
  | box w h => exact key _ _ rfl
  | sharpen w h => exact key _ _ rfl
  | edge w h => exact key _ _ rfl
  | gray w h => exact key _ _ rfl
  | unknown f w h => exact key _ _ rfl
  | genk k g => exact key _ _ rfl

end Sys2Proof.Machine
end

