-- ==== Sys2Proof/Laws/Numbers.lean ====
section
/-! SUPPORT. The integer and rational functions of the operands: `clampi`, `rne`, `toByte`, `isqrt`, `sumDefined`, the
sample indices, and the values of the fixed weights. -/
namespace Sys2Proof.Machine

theorem clampi_bounds {v lo hi : Int} (h : lo ≤ hi) : lo ≤ clampi v lo hi ∧ clampi v lo hi ≤ hi := by
  unfold clampi; split <;> (try split) <;> omega

theorem clampi_of_mem {v lo hi : Int} (h1 : lo ≤ v) (h2 : v ≤ hi) : clampi v lo hi = v := by
  unfold clampi; split <;> (try split) <;> omega

/-- A clamped tap coordinate lies in the buffer. -/
theorem tapCoord_lt (x kx hs : Nat) {w : Nat} (hw : 0 < w) : tapCoord x kx hs w < w := by
  have := clampi_bounds (v := (x : Int) + kx - hs) (lo := 0) (hi := (w : Int) - 1) (by omega)
  unfold tapCoord; omega

theorem idx_lt {w h x y c : Nat} (hx : x < w) (hy : y < h) (hc : c < 4) : idx w x y c < 4 * w * h := by
  unfold idx
  have h2 : (y + 1) * w ≤ h * w := Nat.mul_le_mul_right w (by omega)
  have h3 : (y + 1) * w = y * w + w := by ring
  have h4 : h * w = w * h := by ring
  rw [Nat.mul_assoc]
  omega

@[simp] theorem pixelX_idx {w x y c : Nat} (hx : x < w) (hc : c < 4) : pixelX w (idx w x y c) = x := by
  have h4 : (4 * (y * w + x) + c) / 4 = y * w + x := by omega
  rw [pixelX, idx, h4, Nat.mul_comm, Nat.mul_add_mod, Nat.mod_eq_of_lt hx]

@[simp] theorem pixelY_idx {w x y c : Nat} (hx : x < w) (hc : c < 4) : pixelY w (idx w x y c) = y := by
  have h4 : (4 * (y * w + x) + c) / 4 = y * w + x := by omega
  rw [pixelY, idx, h4, Nat.mul_comm, Nat.mul_add_div (by omega), Nat.div_eq_of_lt hx, Nat.add_zero]

@[simp] theorem channelOf_idx {w x y c : Nat} (hc : c < 4) : channelOf (idx w x y c) = c := by
  unfold channelOf idx; omega

/-- Every byte index of a buffer is that of a pixel and a channel. -/
theorem exists_idx {w h a : Nat} (ha : a < 4 * w * h) :
    ∃ x y c, x < w ∧ y < h ∧ c < 4 ∧ a = idx w x y c := by
  have hw : 0 < w := by
    rcases Nat.eq_zero_or_pos w with rfl | hw
    · simp at ha
    · exact hw
  refine ⟨a / 4 % w, a / 4 / w, a % 4, Nat.mod_lt _ hw, ?_, Nat.mod_lt _ (by omega), ?_⟩
  · apply Nat.div_lt_of_lt_mul
    rw [Nat.mul_assoc] at ha
    omega
  · have h1 := Nat.div_add_mod (a / 4) w
    have h2 : a / 4 / w * w = w * (a / 4 / w) := Nat.mul_comm ..
    unfold idx
    omega

/-! ### Rounding -/

theorem floorQ_le (q : ℚ) : (floorQ q : ℚ) ≤ q := Rat.floor_le q
theorem lt_floorQ_add_one (q : ℚ) : q < (floorQ q : ℚ) + 1 := by
  exact_mod_cast Rat.lt_floor_add_one q

theorem floorQ_eq {q : ℚ} {n : Int} (h1 : (n : ℚ) ≤ q) (h2 : q < (n : ℚ) + 1) : floorQ q = n := by
  have a1 := floorQ_le q
  have a2 := lt_floorQ_add_one q
  have b1 : (n : ℚ) < (floorQ q : ℚ) + 1 := by linarith
  have b2 : (floorQ q : ℚ) < (n : ℚ) + 1 := by linarith
  have c1 : n < floorQ q + 1 := by exact_mod_cast b1
  have c2 : floorQ q < n + 1 := by exact_mod_cast b2
  omega

/-- A rational closer than one half to an integer rounds to it. -/
theorem rne_eq_of_near {q : ℚ} {n : Int} (h1 : (n : ℚ) - 1 / 2 < q) (h2 : q < (n : ℚ) + 1 / 2) : rne q = n := by
  by_cases h : (n : ℚ) ≤ q
  · have hf : floorQ q = n := floorQ_eq h (by linarith)
    simp only [rne, hf]
    rw [if_pos (by linarith)]
  · have hf : floorQ q = n - 1 := floorQ_eq (by push_cast; linarith) (by push_cast; linarith)
    simp only [rne, hf]
    push_cast
    rw [if_neg (by linarith), if_pos (by linarith)]
    omega

@[simp] theorem rne_intCast (n : Int) : rne (n : ℚ) = n := rne_eq_of_near (by linarith) (by linarith)

theorem toNat_toByte (q : ℚ) : ((toByte q).toNat : Int) = clampi (rne q) 0 255 := by
  have := clampi_bounds (v := rne q) (lo := 0) (hi := 255) (by omega)
  unfold toByte
  rw [BitVec.toNat_ofNat]
  omega

/-! ### The integer square root -/

theorem isqrtBits_spec (n : Nat) : ∀ k r, r * r ≤ n → n < (r + 2 ^ k) * (r + 2 ^ k) →
    isqrtBits n k r * isqrtBits n k r ≤ n ∧ n < (isqrtBits n k r + 1) * (isqrtBits n k r + 1) := by
  intro k
  induction k with
  | zero => intro r h1 h2; exact ⟨h1, by simpa [isqrtBits] using h2⟩
  | succ k ih =>
    intro r h1 h2
    unfold isqrtBits
    split
    next h => exact ih _ h (by rw [pow_succ] at h2; convert h2 using 2 <;> ring)
    next h => exact ih _ h1 (by omega)

/-! ### Sums of values that may be undefined -/

theorem sumDefined_map_some {ι : Type} {α : Type} [AddCommMonoid α] (l : List ι) (f : ι → Option α) (g : ι → α)
    (h : ∀ i ∈ l, f i = some (g i)) : sumDefined (l.map f) = some ((l.map g).sum) := by
  induction l with
  | nil => rfl
  | cons i r ih =>
    rw [List.map_cons, List.map_cons, h i (List.mem_cons_self ..), List.sum_cons]
    simp only [sumDefined, ih fun j hj => h j (List.mem_cons_of_mem _ hj)]

/-- One undefined term leaves the sum undefined. -/
theorem sumDefined_of_none {α : Type} [Add α] [OfNat α 0] {l : List (Option α)} (h : none ∈ l) : sumDefined l = none := by
  induction l with
  | nil => simp at h
  | cons a r ih =>
    cases a with
    | none => rfl
    | some a => simp only [sumDefined, ih (by simpa using h)]

theorem mem_cells {s kx ky : Nat} : (kx, ky) ∈ cells s ↔ kx < s ∧ ky < s := by
  simp only [cells, List.mem_flatMap, List.mem_range, List.mem_map, Prod.mk.injEq]
  constructor
  · rintro ⟨y, hy, x, hx, rfl, rfl⟩; exact ⟨hx, hy⟩
  · rintro ⟨hx, hy⟩; exact ⟨ky, hy, kx, hx, rfl, rfl⟩

theorem list_sum_flatMap {ι α : Type} [AddCommMonoid α] (l : List ι) (f : ι → List α) :
    (l.flatMap f).sum = (l.map fun i => (f i).sum).sum := by
  induction l with
  | nil => rfl
  | cons i r ih => rw [List.flatMap_cons, List.sum_append, ih, List.map_cons, List.sum_cons]

/-- The sum over the cells, row by row, as a double sum. -/
theorem sum_cells {α : Type} [AddCommMonoid α] (s : Nat) (g : Nat → Nat → α) :
    ((cells s).map fun p => g p.1 p.2).sum = ∑ ky ∈ Finset.range s, ∑ kx ∈ Finset.range s, g kx ky := by
  have hrow : ∀ ky, ((List.range s).map fun kx => g kx ky).sum = ∑ kx ∈ Finset.range s, g kx ky := fun ky => by
    rw [Finset.sum_range, ← List.sum_ofFn, List.ofFn_eq_map]
    simp [← List.map_coe_finRange_eq_range, Function.comp_def]
  have hall : ∀ f : Nat → α, ((List.range s).map f).sum = ∑ k ∈ Finset.range s, f k := fun f => by
    rw [Finset.sum_range, ← List.sum_ofFn, List.ofFn_eq_map]
    simp [← List.map_coe_finRange_eq_range, Function.comp_def]
  unfold cells
  rw [List.map_flatMap, list_sum_flatMap]
  simp only [List.map_map, Function.comp_def, hrow, hall]

/-! ### Rounding to binary64 -/

/-- `log2Q` is the exponent of the greatest power of two that is at most `q`. -/
theorem log2Q_spec {q : ℚ} (hq : 0 < q) : (2 : ℚ) ^ log2Q q ≤ q ∧ q < (2 : ℚ) ^ (log2Q q + 1) := by
  have hn : 0 < q.num := Rat.num_pos.2 hq
  obtain ⟨n, hn'⟩ : ∃ n : Nat, q.num = n := ⟨q.num.toNat, by omega⟩
  have hn0 : n ≠ 0 := by omega
  have hd0 : q.den ≠ 0 := q.den_nz
  have hqe : q = (n : ℚ) / (q.den : ℚ) := by
    have := Rat.num_div_den q
    rw [hn', Int.cast_natCast] at this
    exact this.symm
  have a1 : ((2 : ℚ) ^ n.log2) ≤ n := by exact_mod_cast Nat.log2_self_le hn0
  have a2 : (n : ℚ) < 2 ^ (n.log2 + 1) := by exact_mod_cast Nat.lt_log2_self
  have b1 : ((2 : ℚ) ^ q.den.log2) ≤ q.den := by exact_mod_cast Nat.log2_self_le hd0
  have b2 : (q.den : ℚ) < 2 ^ (q.den.log2 + 1) := by exact_mod_cast Nat.lt_log2_self
  have hdp : (0 : ℚ) < q.den := by exact_mod_cast Nat.pos_of_ne_zero hd0
  unfold log2Q
  generalize q.den = d at *
  have hup : q < (2 : ℚ) ^ (((n.log2 : Int) - (d.log2 : Int)) + 1) := by
    refine lt_of_eq_of_lt hqe ((div_lt_iff₀ hdp).2 ?_)
    calc (n : ℚ) < 2 ^ (n.log2 + 1) := a2
      _ = (2 : ℚ) ^ (((n.log2 : Int) - (d.log2 : Int)) + 1) * 2 ^ d.log2 := by
        rw [← zpow_natCast, ← zpow_natCast, ← zpow_add₀ (by norm_num)]; congr 1; push_cast; ring
      _ ≤ _ := by gcongr
  have hlow : (2 : ℚ) ^ (((n.log2 : Int) - (d.log2 : Int)) - 1) ≤ q := by
    refine le_of_le_of_eq ((le_div_iff₀ hdp).2 ?_) hqe.symm
    calc (2 : ℚ) ^ (((n.log2 : Int) - (d.log2 : Int)) - 1) * (d : ℚ)
        ≤ (2 : ℚ) ^ (((n.log2 : Int) - (d.log2 : Int)) - 1) * 2 ^ (d.log2 + 1) := by gcongr
      _ = 2 ^ n.log2 := by
        rw [← zpow_natCast, ← zpow_natCast, ← zpow_add₀ (by norm_num)]; congr 1; push_cast; ring
      _ ≤ n := a1
  simp only [hn', Int.toNat_natCast, scaleTwo_eq, Nat.cast_one, one_mul]
  split
  · exact ⟨by assumption, hup⟩
  · rename_i h; exact ⟨hlow, by rw [sub_add_cancel]; exact lt_of_not_ge h⟩

/-- Rounding to binary64 in the normal range up to 1: the word is finite, its sign is 0, and its value is within one part in
`2^53` of `q` (00_scope R6). -/
theorem val64_fl64 {q : ℚ} (h1 : (2 : ℚ) ^ (-1000 : Int) ≤ q) (h2 : q ≤ 1) :
    ∃ v : ℚ, val64 (fl64 q) = some v ∧ |v - q| ≤ q / 2 ^ 53 ∧ signBit (fl64 q) = false := by
  have hq : 0 < q := lt_of_lt_of_le (by positivity) h1
  obtain ⟨l1, l2⟩ := log2Q_spec hq
  generalize hL : log2Q q = L at *
  have two : (1 : ℚ) < 2 := by norm_num
  have hL0 : L ≤ 0 := by
    by_contra h
    have : (2 : ℚ) ^ (1 : Int) ≤ 2 ^ L := zpow_le_zpow_right₀ two.le (by omega)
    norm_num at this; linarith
  have hLm : -1001 ≤ L := by
    by_contra h
    have : (2 : ℚ) ^ (L + 1) ≤ 2 ^ (-1000 : Int) := zpow_le_zpow_right₀ two.le (by omega)
    linarith
  have hu : max (L - 52) (-1074) = L - 52 := max_eq_left (by omega)
  have hpos : (0 : ℚ) < 2 ^ (-(L - 52)) := by positivity
  have e1 : (2 : ℚ) ^ L * 2 ^ (-(L - 52)) = 2 ^ 52 := by
    rw [← zpow_add₀ (by norm_num), show L + -(L - 52) = ((52 : ℕ) : ℤ) by push_cast; ring, zpow_natCast]
  have e2 : (2 : ℚ) ^ (L + 1) * 2 ^ (-(L - 52)) = 2 ^ 53 := by
    rw [← zpow_add₀ (by norm_num), show L + 1 + -(L - 52) = ((53 : ℕ) : ℤ) by push_cast; ring, zpow_natCast]
  have e3 : (2 : ℚ) ^ (-(L - 52)) * 2 ^ (L - 52) = 1 := by rw [← zpow_add₀ (by norm_num)]; simp
  have r1 : |q * 2 ^ (-(L - 52)) - (rne (q * 2 ^ (-(L - 52))) : ℚ)| ≤ 1 / 2 := by
    have h1 := floorQ_le (q * 2 ^ (-(L - 52)))
    have h2 := lt_floorQ_add_one (q * 2 ^ (-(L - 52)))
    unfold rne
    rw [abs_le]
    simp only
    split
    · constructor <;> linarith
    · split
      · push_cast; constructor <;> linarith
      · split
        · constructor <;> linarith
        · push_cast; constructor <;> linarith
  generalize hr : rne (q * 2 ^ (-(L - 52))) = r at *
  have s1 : (2 : ℚ) ^ 52 ≤ q * 2 ^ (-(L - 52)) := by rw [← e1]; gcongr
  have s2 : q * 2 ^ (-(L - 52)) < 2 ^ 53 := by rw [← e2]; gcongr
  rw [abs_le] at r1
  have m1 : 2 ^ 52 ≤ r := by
    have : ((2 ^ 52 - 1 : ℤ) : ℚ) < r := by push_cast; linarith
    have := Int.cast_lt.1 this; omega
  have m2 : r ≤ 2 ^ 53 := by
    have : (r : ℚ) < ((2 ^ 53 + 1 : ℤ) : ℚ) := by push_cast; linarith
    have := Int.cast_lt.1 this; omega
  obtain ⟨m, rfl⟩ : ∃ m : Nat, r = m := ⟨r.toNat, by omega⟩
  have m1' : 2 ^ 52 ≤ m := by exact_mod_cast m1
  have m2' : m ≤ 2 ^ 53 := by exact_mod_cast m2
  obtain ⟨E, hE⟩ : ∃ E : Nat, (L - 52 + 1075) = E := ⟨(L - 52 + 1075).toNat, by omega⟩
  have hE1 : 22 ≤ E := by omega
  have hE2 : E ≤ 1023 := by omega
  have hw : (fl64 q).toNat = E * 2 ^ 52 + (m - 2 ^ 52) := by
    unfold fl64
    rw [if_neg (by linarith)]
    unfold fl64Magnitude
    rw [if_neg (by linarith)]
    simp only [hL, hu, scaleTwo_eq, Nat.cast_one, one_mul, hr, Int.toNat_natCast, hE]
    rw [if_neg (by omega), BitVec.toNat_ofNat]
    omega
  have hs : signBit (fl64 q) = false := by rw [signBit_toNat, hw]; simp; omega
  have err : |(m : ℚ) * 2 ^ (L - 52) - q| ≤ q / 2 ^ 53 := by
    have hp : (0 : ℚ) < 2 ^ (L - 52) := by positivity
    have e4 : q = q * 2 ^ (-(L - 52)) * 2 ^ (L - 52) := by rw [mul_assoc, e3, mul_one]
    have e5 : (2 : ℚ) ^ (L - 52) * 2 ^ 52 = 2 ^ L := by
      rw [← zpow_natCast, ← zpow_add₀ (by norm_num)]; simp
    have : |(m : ℚ) * 2 ^ (L - 52) - q| ≤ 1 / 2 * 2 ^ (L - 52) := by
      conv_lhs => rw [e4, ← sub_mul, abs_mul, abs_of_pos hp, abs_sub_comm]
      gcongr
      rw [abs_le]; exact_mod_cast r1
    refine this.trans ?_
    rw [le_div_iff₀ (by positivity)]
    calc (1 / 2 * 2 ^ (L - 52) * 2 ^ 53 : ℚ) = 2 ^ (L - 52) * 2 ^ 52 := by ring
      _ = 2 ^ L := e5
      _ ≤ q := l1
  refine ⟨(m : ℚ) * 2 ^ (L - 52), ?_, err, hs⟩
  have hmag : magnitude64 (fl64 q) = (m : ℚ) * 2 ^ (L - 52) ∧ isFinite64 (fl64 q) = true := by
    rcases Nat.lt_or_ge m (2 ^ 53) with hm | hm
    · have be : biasedExp (fl64 q) = E := by rw [biasedExp_toNat, hw]; omega
      have fr : fraction (fl64 q) = m - 2 ^ 52 := by rw [fraction_toNat, hw]; omega
      refine ⟨?_, by simp [isFinite64, be]; omega⟩
      unfold magnitude64
      rw [be, fr, if_neg (by omega), scaleTwo_eq, Nat.add_sub_cancel' m1', ← hE]
      congr 2; ring
    · have hm : m = 2 ^ 53 := le_antisymm m2' hm
      have be : biasedExp (fl64 q) = E + 1 := by rw [biasedExp_toNat, hw, hm]; omega
      have fr : fraction (fl64 q) = 0 := by rw [fraction_toNat, hw, hm]; omega
      refine ⟨?_, by simp [isFinite64, be]; omega⟩
      unfold magnitude64
      rw [be, fr, if_neg (by omega), scaleTwo_eq, hm]
      push_cast
      rw [show ((E : ℤ) + 1 - 1075) = (L - 52) + 1 by omega, zpow_add₀ (by norm_num)]
      norm_num; ring
  simp only [val64, hmag.2, hs, hmag.1, if_true, Bool.false_eq_true, if_false]

end Sys2Proof.Machine
end

