-- ==== Sys2Proof/Laws/Convolution.lean ====
section
/-! SUPPORT. What CONV stores at one pixel: the weighted double sum over the kernel's cells, the alpha byte. -/
namespace Sys2Proof.Machine

/-- A defined byte as it reads. -/
theorem get?_of_definedAt {s : State} {a : Nat} (h : s.definedAt a) : s.inMem.get? a = some (s.inByte a) := by
  obtain ⟨b, hb⟩ := Option.isSome_iff_exists.1 h
  simp [State.inByte, hb]

theorem get?_of_not_definedAt {s : State} {a : Nat} (h : ¬ s.definedAt a) : s.inMem.get? a = none := by
  simpa [State.definedAt] using h

/-- The weighted sum is undefined when a tap of nonzero weight reads an undefined byte. -/
theorem convSum_eq_none {w h k : Nat} {s : State} {x y c kx ky : Nat} {weight : ℚ} (hx : kx < k) (hy : ky < k)
    (hw : weightAt s (ky * k + kx) = some weight) (h0 : weight ≠ 0) (hd : ¬ s.definedAt (tapIndex w h k x y c kx ky)) :
    convSum w h k s x y c = none := by
  refine sumDefined_of_none (List.mem_map.2 ⟨(kx, ky), mem_cells.2 ⟨hx, hy⟩, ?_⟩)
  simp [hw, tapProduct, h0, get?_of_not_definedAt hd]

/-- The weighted sum, when every tap of nonzero weight reads a defined byte. -/
theorem convSum_eq {w h k : Nat} {s : State} {x y c : Nat} (weight : Nat → Nat → ℚ)
    (hw : ∀ kx ky, kx < k → ky < k → weightAt s (ky * k + kx) = some (weight kx ky))
    (hd : ∀ kx ky, kx < k → ky < k → weight kx ky ≠ 0 → s.definedAt (tapIndex w h k x y c kx ky)) :
    convSum w h k s x y c = some (∑ ky ∈ Finset.range k, ∑ kx ∈ Finset.range k,
      weight kx ky * ((s.inByte (tapIndex w h k x y c kx ky)).toNat : ℚ)) := by
  unfold convSum
  rw [sumDefined_map_some _ _ fun p => weight p.1 p.2 * ((s.inByte (tapIndex w h k x y c p.1 p.2)).toNat : ℚ)]
  · rw [sum_cells k fun kx ky => weight kx ky * ((s.inByte (tapIndex w h k x y c kx ky)).toNat : ℚ)]
  · rintro ⟨kx, ky⟩ hp
    obtain ⟨hx, hy⟩ := mem_cells.1 hp
    simp only [hw kx ky hx hy, tapProduct]
    by_cases h0 : weight kx ky = 0
    · simp [h0]
    · rw [if_neg h0, get?_of_definedAt (hd kx ky hx hy h0)]; rfl

/-- CONV's byte of a colour channel. -/
theorem convByte_colour {w h k : Nat} {s : State} {x y c : Nat} (hx : x < w) (hc : c < 3) :
    convByte w h k s (idx w x y c) = (convSum w h k s x y c).map toByte := by
  have h4 : c < 4 := by omega
  unfold convByte
  rw [channelOf_idx h4, if_neg (by omega), pixelX_idx hx h4, pixelY_idx hx h4]

/-- CONV's alpha byte. -/
theorem convByte_alpha {w h k : Nat} {s : State} {x y : Nat} :
    convByte w h k s (idx w x y 3) = s.inMem.get? (idx w x y 3) := by
  unfold convByte
  rw [channelOf_idx (by omega), if_pos rfl]

end Sys2Proof.Machine
end

