-- ==== Sys2Proof/Laws/Decode.lean ====
section
/-! SUPPORT. Words and their bytes, sigma and its halves, and which commands a filter launch decodes to. -/
namespace Sys2Proof

/-- The four bytes of a word give it back. -/
theorem wordOfBytes_bytesOfWord (w : Word) :
    wordOfBytes (w.extractLsb' 0 8) (w.extractLsb' 8 8) (w.extractLsb' 16 8) (w.extractLsb' 24 8) = w := by
  unfold wordOfBytes
  ext i hi
  simp only [BitVec.getElem_append, BitVec.getElem_extractLsb']
  split
  · simp [BitVec.getLsbD_eq_getElem hi]
  · split
    · rw [← BitVec.getLsbD_eq_getElem hi]; congr 1; omega
    · split
      · rw [← BitVec.getLsbD_eq_getElem hi]; congr 1; omega
      · rw [← BitVec.getLsbD_eq_getElem hi]; congr 1; omega

/-- The 28 bytes of seven words decode as those words. -/
theorem decodeBytes_bytesOfWords (c : CommandWords) : decodeBytes (bytesOfWords c) = .ok (decode c) := by
  simp [decodeBytes, bytesOfWords, bytesOfWord, wordsOfBytes, wordOfBytes_bytesOfWord]

/-- The halves of sigma give it back. -/
@[simp] theorem sigmaWord_halves (g : DWord) : sigmaWord (sigmaHigh g) (sigmaLow g) = g := by
  unfold sigmaWord sigmaHigh sigmaLow
  ext i hi
  simp only [BitVec.getElem_append, BitVec.getElem_extractLsb']
  split
  · simp [BitVec.getLsbD_eq_getElem hi]
  · rw [← BitVec.getLsbD_eq_getElem hi]; congr 1; omega

@[simp] theorem sigmaLow_sigmaWord (hi lo : Word) : sigmaLow (sigmaWord hi lo) = lo := by
  unfold sigmaLow sigmaWord
  ext i h
  simp only [BitVec.getElem_extractLsb', BitVec.getLsbD_append]
  rw [if_pos (by omega), Nat.zero_add, BitVec.getLsbD_eq_getElem h]

@[simp] theorem sigmaHigh_sigmaWord (hi lo : Word) : sigmaHigh (sigmaWord hi lo) = hi := by
  unfold sigmaHigh sigmaWord
  ext i h
  simp only [BitVec.getElem_extractLsb', BitVec.getLsbD_append]
  rw [if_neg (by omega), Nat.add_sub_cancel_left, BitVec.getLsbD_eq_getElem h]

/-- A filter launch decodes to a filter command. -/
theorem decodeFilter_ne (c : CommandWords) :
    decodeFilter c ≠ .nolaunch ∧ ∀ k g, decodeFilter c ≠ .genk k g := by
  unfold decodeFilter
  split <;> [simp; split <;> [simp; split <;> [simp; split <;> [simp; split <;> [simp; split <;> simp]]]]]

theorem decode_of_start {c : CommandWords} (h : c.launch.getLsbD 0 = true) : decode c = decodeFilter c := by
  unfold decode; rw [h]; rfl

theorem decode_of_genk {c : CommandWords} (h0 : c.launch.getLsbD 0 = false) (h1 : c.launch.getLsbD 1 = true) :
    decode c = .genk c.ksize (sigmaWord c.sigmaHi c.sigmaLo) := by
  unfold decode; rw [h0, h1]; rfl

theorem decode_of_neither {c : CommandWords} (h0 : c.launch.getLsbD 0 = false) (h1 : c.launch.getLsbD 1 = false) :
    decode c = .nolaunch := by
  unfold decode; rw [h0, h1]; rfl

end Sys2Proof
end

