-- ==== Sys2Proof/Laws/PerInstr.lean ====
section
/-! SUPPORT. Families of laws stated per command, one lemma for each constructor. -/

/-- The command reads the dimensions (30_encoding R73). -/
def Sys2Proof.Laws.readsDimensions (i : Sys2Proof.Instr) : Bool :=
  match i with
  | .identity _ _ => true
  | .gaussian _ _ _ _ => true
  | .box _ _ => true
  | .sharpen _ _ => true
  | .edge _ _ => true
  | .gray _ _ => true
  | .unknown _ _ _ => true
  | .genk _ _ => false
  | .nolaunch => false

/-- The command reads the kernel size and sigma (30_encoding R73). -/
def Sys2Proof.Laws.readsKernelParameters (i : Sys2Proof.Instr) : Bool :=
  match i with
  | .identity _ _ => false
  | .gaussian _ _ _ _ => true
  | .box _ _ => false
  | .sharpen _ _ => false
  | .edge _ _ => false
  | .gray _ _ => false
  | .unknown _ _ _ => false
  | .genk _ _ => true
  | .nolaunch => false

/-- What the encoder writes (30_encoding R71, R75): bits 31:2 of the launch word are 0, START and GENK are never both
set, and the words that the command does not read are 0. -/
def Sys2Proof.Laws.EncodedForm.Statement (i : Sys2Proof.Instr) : Prop :=
  (Sys2Proof.encode i).launch.toNat < 3 ∧
  (Sys2Proof.Laws.readsDimensions i = false →
    (Sys2Proof.encode i).width = 0 ∧ (Sys2Proof.encode i).height = 0) ∧
  (Sys2Proof.Laws.readsKernelParameters i = false →
    (Sys2Proof.encode i).ksize = 0 ∧ (Sys2Proof.encode i).sigmaLo = 0 ∧ (Sys2Proof.encode i).sigmaHi = 0)

namespace Sys2Proof.Laws.EncodedForm

theorem identity (w h : Word) : Statement (.identity w h) :=
  ⟨(by decide : startWord.toNat < 3), nofun, fun _ => ⟨rfl, rfl, rfl⟩⟩
theorem gaussian (w h k : Word) (g : DWord) : Statement (.gaussian w h k g) :=
  ⟨(by decide : startWord.toNat < 3), nofun, nofun⟩
theorem box (w h : Word) : Statement (.box w h) :=
  ⟨(by decide : startWord.toNat < 3), nofun, fun _ => ⟨rfl, rfl, rfl⟩⟩
theorem sharpen (w h : Word) : Statement (.sharpen w h) :=
  ⟨(by decide : startWord.toNat < 3), nofun, fun _ => ⟨rfl, rfl, rfl⟩⟩
theorem edge (w h : Word) : Statement (.edge w h) :=
  ⟨(by decide : startWord.toNat < 3), nofun, fun _ => ⟨rfl, rfl, rfl⟩⟩
theorem gray (w h : Word) : Statement (.gray w h) :=
  ⟨(by decide : startWord.toNat < 3), nofun, fun _ => ⟨rfl, rfl, rfl⟩⟩
theorem unknown (f w h : Word) : Statement (.unknown f w h) :=
  ⟨(by decide : startWord.toNat < 3), nofun, fun _ => ⟨rfl, rfl, rfl⟩⟩
theorem genk (k : Word) (g : DWord) : Statement (.genk k g) :=
  ⟨(by decide : genkWord.toNat < 3), fun _ => ⟨rfl, rfl⟩, nofun⟩
theorem nolaunch : Statement .nolaunch := ⟨(by decide : (0 : Word).toNat < 3), fun _ => ⟨rfl, rfl⟩, fun _ => ⟨rfl, rfl, rfl⟩⟩

end Sys2Proof.Laws.EncodedForm
end

