-- ==== Sys2Proof/Laws/Turn.lean ====
section
/-! SUPPORT. Whose move a step is, said once per kind of move, and what a launch puts in flight. -/
namespace Sys2Proof.Machine

/-- With no access in progress the Host's next transaction is begun. -/
theorem turn_of_op {s : State} {op : HostOp} {rest : List Input} (ht : s.transfer = none)
    (h : s.inputs = .host op :: rest) : turn s = opTurn op rest s := by
  unfold turn; rw [h]; simp only [ht]

/-- With no access in progress a Host transaction other than WAIT is the step's move. -/
theorem turn_of_host {s : State} {op : HostOp} {rest : List Input} (ht : s.transfer = none)
    (h : s.inputs = .host op :: rest) (hw : op ≠ .wait) : turn s = hostTurn op { s with inputs := rest } := by
  rw [turn_of_op ht h]; cases op <;> first | rfl | exact absurd rfl hw

theorem turn_of_wait {s : State} {rest : List Input} (ht : s.transfer = none) (h : s.inputs = .host .wait :: rest) :
    turn s = waitTurn rest s := by
  rw [turn_of_op ht h]; rfl

theorem turn_of_ctrl {s : State} {v : Word} {rest : List Input} (ht : s.transfer = none)
    (h : s.inputs = .host (.wr 0x00 4 v) :: rest) : turn s = ctrlTurn v { s with inputs := rest } := by
  rw [turn_of_host ht h (by simp)]; rfl

theorem turn_of_engine {s : State} {rest : List Input} (h : s.inputs = .engine :: rest) :
    turn s = engineTurn { s with inputs := rest } := by
  unfold turn; rw [h]

theorem turn_of_reset {s : State} {rest : List Input} (h : s.inputs = .reset :: rest) :
    turn s = .move (platformReset { s with inputs := rest }) := by
  unfold turn; rw [h]

theorem turn_of_nil {s : State} (ht : s.transfer = none) (h : s.inputs = []) : turn s = engineTurn s := by
  unfold turn; rw [h, ht]

/-- The access in progress goes on with its next byte. -/
theorem turn_of_transfer {s : State} {t : Transfer} (ht : s.transfer = some t) (h : HostContinues s.inputs) :
    turn s = .move (advance t { s with inputs := afterByte s.inputs }) := by
  have stay (hi : turn s = .move (advance t s)) (he : afterByte s.inputs = s.inputs) :
      turn s = .move (advance t { s with inputs := afterByte s.inputs }) := by rw [hi, he]
  cases hi : s.inputs with
  | nil => rw [← hi]; exact stay (by unfold turn; rw [hi]; simp only [ht]) (by rw [hi]; rfl)
  | cons m r =>
    rw [hi] at h
    cases m with
    | host op => rw [← hi]; exact stay (by unfold turn; rw [hi]; simp only [ht]) (by rw [hi]; rfl)
    | resume => unfold turn; rw [hi]; simp only [resumeTransfer, ht, afterByte]
    | engine => exact absurd h (by simp [HostContinues])
    | reset => exact absurd h (by simp [HostContinues])

/-- The step that writes the first of `bytes`, as the beginning of an access or inside one. -/
theorem step_of_nextStore {s : State} {i : Nat} {bytes : List Byte} {l : List Input} (h : NextStore s i bytes l) :
    step s = .next (advance (.store i bytes) { s with inputs := l }) := by
  rcases h with ⟨ht, h⟩ | ⟨ht, hc, rfl⟩
  · exact step_of_move (by rw [turn_of_host ht h (by simp)]; rfl)
  · exact step_of_move (turn_of_transfer ht hc)

/-- The step that reads the next byte of an access, as its beginning or inside one. -/
theorem step_of_nextLoad {s : State} {m : Samples} {i n : Nat} {got : List Byte} {l : List Input}
    (h : NextLoad s m i n got l) : step s = .next (advance (.load m i n got) { s with inputs := l }) := by
  rcases h with ⟨ht, rfl, h⟩ | ⟨ht, hc, rfl⟩
  · exact step_of_move (by rw [turn_of_host ht h (by simp)]; rfl)
  · exact step_of_move (turn_of_transfer ht hc)

/-- A CTRL write is dropped while a command is in flight. -/
theorem ctrlTurn_of_busy {s : State} (v : Word) (h : s.busy = true) : ctrlTurn v s = .move s := by
  simp [ctrlTurn, h]

/-- A CTRL write with the Engine idle: START wins, then GENK, and with neither nothing is launched. -/
theorem ctrlTurn_of_idle {s : State} (v : Word) (h : s.busy = false) :
    ctrlTurn v s = if v.getLsbD 0 = true then .move (launch .filter s)
      else if v.getLsbD 1 = true then .move (launch .generate s) else .run .nolaunch s := by
  unfold ctrlTurn
  rw [h]
  simp only [Bool.false_eq_true, if_false]
  cases h0 : v.getLsbD 0 with
  | true =>
    rw [decode_of_start (c := wordsAt v s) h0, if_pos rfl]
    have := decodeFilter_ne (wordsAt v s)
    split
    · exact absurd ‹_› this.1
    · exact absurd ‹_› (this.2 _ _)
    · rfl
  | false =>
    rw [if_neg (by simp)]
    cases h1 : v.getLsbD 1 with
    | true => rw [decode_of_genk (c := wordsAt v s) h0 h1, if_pos rfl]
    | false => rw [decode_of_neither (c := wordsAt v s) h0 h1, if_neg (by simp)]

@[simp] theorem busy_beginCommand (d : Descriptor) (s : State) : (beginCommand d s).busy = true :=
  busyOf_statusLaunched _

/-- A command's descriptor never decodes to "no launch". -/
theorem decode_descriptor_ne (d : Descriptor) : decode d.words ≠ .nolaunch := by
  cases hk : d.kind with
  | filter =>
    rw [decode_of_start (by simp [Descriptor.words, hk, startWord])]
    exact (decodeFilter_ne _).1
  | generate =>
    rw [decode_of_genk (by simp [Descriptor.words, hk, genkWord]) (by simp [Descriptor.words, hk, genkWord])]
    simp

/-- The descriptor that START latches holds the command that the CTRL write encodes. -/
theorem decode_latched_filter {v : Word} (s : State) (h : v.getLsbD 0 = true) :
    decode (latched .filter s).words = decode (wordsAt v s) := by
  rw [decode_of_start (c := wordsAt v s) h, decode_of_start (by simp [Descriptor.words, latched, startWord])]
  simp only [decodeFilter, Descriptor.words, latched, wordsAt, sigmaLow_sigmaWord, sigmaHigh_sigmaWord]
  rfl

/-- The descriptor that GENK latches holds the command that the CTRL write encodes. -/
theorem decode_latched_generate {v : Word} (s : State) (h0 : v.getLsbD 0 = false) (h1 : v.getLsbD 1 = true) :
    decode (latched .generate s).words = decode (wordsAt v s) := by
  rw [decode_of_genk (c := wordsAt v s) h0 h1,
    decode_of_genk (by simp [Descriptor.words, latched, genkWord]) (by simp [Descriptor.words, latched, genkWord])]
  simp only [Descriptor.words, latched, wordsAt, sigmaLow_sigmaWord, sigmaHigh_sigmaWord]

/-! ### Runs -/

theorem core_run_zero (s : State) : core.run 0 s = .next s := rfl

/-- A run of one step more. -/
theorem core_run_succ {s t : State} (n : Nat) (h : step s = .next t) : core.run (n + 1) s = core.run n t := by
  have h' : core.step s = .next t := h
  simp only [Host.Core.run]
  rw [h']

/-- A write to a register other than CTRL. -/
theorem step_of_write {s : State} {o : Nat} {v : Word} {rest : List Input} (ht : s.transfer = none)
    (h : s.inputs = .host (.wr o 4 v) :: rest) (ho : o ≠ 0x00) :
    step s = .next (regWrite o 4 v { s with inputs := rest }) := by
  refine step_of_move ?_
  rw [turn_of_host ht h (by simp)]
  simp [hostTurn, ho]

end Sys2Proof.Machine
end

