-- ==== Sys2Proof/Tests/Slice0.lean ====
section
/-! SUPPORT. Tests whose expected results come from the spec's tables and worked examples, and a witness for the
hypotheses of each obligation. -/
namespace Sys2Proof.Tests
open Sys2Proof Sys2Proof.Machine

/-! ### Well-formed terms -/

/-- The one ill-formed kind of term: UNKNOWN with the selector of a named command (30_encoding R72). -/
theorem test_unknown_with_named_selector_is_ill_formed :
    Instr.wellFormed (.unknown 5 1 1) = false ∧ Instr.wellFormed (.unknown 0 1 1) = false ∧
      Instr.wellFormed (.unknown 6 1 1) = true ∧ Instr.wellFormed (.unknown 0xFFFFFFFF#32 1 1) = true := by decide

/-! ### Decoding: words written out from 30_encoding R71 to R73 -/

/-- CTRL 1, FSEL 0, WIDTH 2, HEIGHT 3; KSIZE and SIGMA are not read. -/
theorem test_decode_identity : decodeBytes
    [0x01, 0, 0, 0,  0, 0, 0, 0,  2, 0, 0, 0,  3, 0, 0, 0,  9, 0, 0, 0,  8, 0, 0, 0,  7, 0, 0, 0] =
    .ok (.identity 2 3) := by decide
/-- CTRL 1, FSEL 1, WIDTH 0x0102, HEIGHT 0x03000000, KSIZE 3, SIGMA 1.0 as SIGMA_LO 0, SIGMA_HI 0x3FF00000. -/
theorem test_decode_gaussian : decodeBytes
    [0x01, 0, 0, 0,  1, 0, 0, 0,  2, 1, 0, 0,  0, 0, 0, 3,  3, 0, 0, 0,  0, 0, 0, 0,  0, 0, 0xF0, 0x3F] =
    .ok (.gaussian 0x0102#32 0x03000000#32 3 0x3FF0000000000000#64) := by decide
/-- CTRL 3, FSEL 2: START wins over GENK (95 section 2.2). -/
theorem test_decode_box : decodeBytes
    [0x03, 0, 0, 0,  2, 0, 0, 0,  2, 0, 0, 0,  1, 0, 0, 0,  0, 0, 0, 0,  0, 0, 0, 0,  0, 0, 0, 0] =
    .ok (.box 2 1) := by decide
theorem test_decode_sharpen : decodeBytes
    [0x01, 0, 0, 0,  3, 0, 0, 0,  3, 0, 0, 0,  1, 0, 0, 0,  0, 0, 0, 0,  0, 0, 0, 0,  0, 0, 0, 0] =
    .ok (.sharpen 3 1) := by decide
theorem test_decode_edge : decodeBytes
    [0x01, 0, 0, 0,  4, 0, 0, 0,  6, 0, 0, 0,  3, 0, 0, 0,  0, 0, 0, 0,  0, 0, 0, 0,  0, 0, 0, 0] =
    .ok (.edge 6 3) := by decide
/-- CTRL 0xFFFFFFFF, FSEL 5: bits 31:2 are ignored (95 section 2.2). -/
theorem test_decode_gray : decodeBytes
    [0xFF, 0xFF, 0xFF, 0xFF,  5, 0, 0, 0,  6, 0, 0, 0,  1, 0, 0, 0,  0, 0, 0, 0,  0, 0, 0, 0,  0, 0, 0, 0] =
    .ok (.gray 6 1) := by decide
/-- CTRL 1, FSEL 0x80000002: all 32 bits are compared, so not BOX (95 section 2.2). -/
theorem test_decode_unknown : decodeBytes
    [0x01, 0, 0, 0,  2, 0, 0, 0x80,  2, 0, 0, 0,  1, 0, 0, 0,  0, 0, 0, 0,  0, 0, 0, 0,  0, 0, 0, 0] =
    .ok (.unknown 0x80000002#32 2 1) := by decide
/-- CTRL 0xFFFFFFFE: bits 1:0 are 10 (95 section 2.2); SIGMA_LO is the low half of sigma. -/
theorem test_decode_genk : decodeBytes
    [0xFE, 0xFF, 0xFF, 0xFF,  2, 0, 0, 0,  9, 0, 0, 0,  9, 0, 0, 0,  5, 0, 0, 0,  1, 0, 0, 0,  0, 0, 0x24, 0x40] =
    .ok (.genk 5 0x4024000000000001#64) := by decide
/-- CTRL 0xFFFFFFFC: bits 1:0 are 00 (95 section 2.2). -/
theorem test_decode_nolaunch : decodeBytes
    [0xFC, 0xFF, 0xFF, 0xFF,  2, 0, 0, 0,  9, 0, 0, 0,  9, 0, 0, 0,  5, 0, 0, 0,  1, 0, 0, 0,  0, 0, 0x24, 0x40] =
    .ok .nolaunch := by decide
/-- A command has one length: seven words (30_encoding R71). -/
theorem test_decode_wrong_length :
    decodeBytes (List.replicate 27 0) = .error (.notSevenWords 27) ∧
      decodeBytes (List.replicate 29 0) = .error (.notSevenWords 29) ∧ decodeTableWord 72 1 = none := by decide
/-- `OpcodeRow` patterns of the table: the row of 6 and 7, and of the selectors with highest bit 31. -/
theorem test_opcode_rows :
    opcodeRows[6]? = some ⟨"UNKNOWN", 0x0000000600000001, 0xFFFFFFFE00000001⟩ ∧
      opcodeRows[35]? = some ⟨"UNKNOWN", 0x8000000000000001, 0x8000000000000001⟩ ∧
      opcodeRows[36]? = some ⟨"GENK", 0x2, 0x3⟩ ∧ opcodeRows[37]? = some ⟨"NOLAUNCH", 0x0, 0x3⟩ := by decide

/-! ### States for the tests -/

/-- An image in IN, a command in flight. -/
def inFlight (image : List Byte) : State :=
  { State.reset with status := 1, pending := true, inMem := (List.range image.length).zip image }

/-- The state a command ends in, read as STATUS and the first bytes of OUT. -/
def ending (r : Host.Outcome State Fault Refusal) : Option (Word × List Byte) :=
  match r with
  | .next t => some (t.status, t.outMem.map Prod.snd)
  | .fault _ => none
  | .refused _ => none

/-- A part of the state after a step or a run. -/
def endingAs {α : Type} (f : State → α) (r : Host.Outcome State Fault Refusal) : Option α :=
  match r with
  | .next t => some (f t)
  | .fault _ => none
  | .refused _ => none

/-- The number 1.0 as sigma. -/
def one64 : DWord := 0x3FF0000000000000#64

/-- The state a command ends in, read as the words of COEF. -/
def endingCoef (r : Host.Outcome State Fault Refusal) : Option (List DWord) :=
  match r with
  | .next t => some (t.coef.map Prod.snd)
  | .fault _ => none
  | .refused _ => none

/-! ### One command each -/

/-- 46_dispatcher R176, the example. -/
theorem test_identity_copies :
    ending (exec (.identity 2 1) (inFlight [10, 20, 30, 40, 110, 120, 130, 140])) =
      some (2, [10, 20, 30, 40, 110, 120, 130, 140]) := by decide +kernel
/-- 95 section 2.3: the exact product is compared, not a wrapped one. -/
theorem test_identity_geometry :
    ending (exec (.identity 0xFFFFFFFF#32 0xFFFFFFFF#32) (inFlight [1, 2, 3, 4])) = some (0x306, []) := by
  decide +kernel
/-- 46_dispatcher R178, the example. -/
theorem test_unknown_copies :
    ending (exec (.unknown 0xFFFFFFFF#32 1 1) (inFlight [1, 2, 3, 4])) = some (2, [1, 2, 3, 4]) := by decide +kernel
/-- 95 section 2.3: geometry is checked for every filter command. -/
theorem test_unknown_geometry :
    ending (exec (.unknown 6 1281 720) (inFlight [1, 2, 3, 4])) = some (0x306, []) := by decide +kernel
/-- 42_convolution_engine R125 (vector B2). -/
theorem test_box_two_by_one :
    ending (exec (.box 2 1) (inFlight [10, 20, 30, 40, 110, 120, 130, 140])) =
      some (2, [50, 60, 70, 40, 70, 80, 90, 140]) := by decide +kernel
/-- 95 vector B6: a column, one row repeated three times by the clamp. -/
theorem test_box_column :
    ending (exec (.box 1 3) (inFlight [10, 10, 10, 1, 100, 100, 100, 2, 30, 30, 30, 3])) =
      some (2, [32, 32, 32, 1, 36, 36, 36, 2, 40, 40, 40, 3]) := by decide +kernel
/-- 95 vector H5: both clamps. -/
theorem test_sharpen_column :
    ending (exec (.sharpen 1 3) (inFlight [10, 10, 10, 1, 100, 100, 100, 2, 30, 30, 30, 3])) =
      some (2, [0, 0, 0, 1, 255, 255, 255, 2, 0, 0, 0, 3]) := by decide +kernel
/-- 95 vector H6: three channels that differ. -/
theorem test_sharpen_row :
    ending (exec (.sharpen 3 1) (inFlight [10, 200, 30, 7, 50, 100, 150, 8, 90, 0, 255, 9])) =
      some (2, [0, 255, 0, 7, 50, 100, 165, 8, 130, 0, 255, 9]) := by decide +kernel
/-- 44_edge_detector R152: the second example, as gray pixels of a third of each sum where it divides, else split. -/
theorem test_edge_three_by_three :
    ending (exec (.edge 3 3) (inFlight
      [2, 2, 2, 0, 5, 5, 5, 0, 8, 8, 8, 0,  20, 20, 20, 0, 50, 50, 50, 0, 80, 80, 80, 0,
       0, 0, 0, 0, 100, 0, 0, 0, 255, 0, 0, 0])) =
      some (2, [0, 0, 0, 0, 0, 0, 0, 0, 0, 0, 0, 0,  0, 0, 0, 0, 249, 249, 249, 255, 0, 0, 0, 0,
        0, 0, 0, 0, 0, 0, 0, 0, 0, 0, 0, 0]) := by decide +kernel
/-- 44_edge_detector R149: no interior pixel, all zero, alpha included. -/
theorem test_edge_small :
    ending (exec (.edge 2 1) (inFlight [9, 9, 9, 9, 8, 8, 8, 8])) = some (2, [0, 0, 0, 0, 0, 0, 0, 0]) := by
  decide +kernel
/-- 95 section 2.9: six pixels as one command. -/
theorem test_gray_six_pixels :
    ending (exec (.gray 6 1) (inFlight
      [10, 20, 30, 40, 255, 255, 254, 0, 0, 0, 1, 7, 0, 0, 2, 8, 1, 1, 0, 9, 255, 0, 0, 255])) =
      some (2, [20, 20, 20, 40, 255, 255, 255, 0, 0, 0, 0, 7, 1, 1, 1, 8, 1, 1, 1, 9, 85, 85, 85, 255]) := by
  decide +kernel
/-- 95 section 2.3: parameters are checked even for an empty buffer. -/
theorem test_gaussian_empty_even_size :
    ending (exec (.gaussian 0 7 2 0x3FF0000000000000#64) (inFlight [])) = some (0x106, []) := by decide +kernel
/-- 95 section 2.3: geometry first, then size, then sigma. -/
theorem test_gaussian_check_order :
    ending (exec (.gaussian 1281 720 4 0x7FF8000000000000#64) (inFlight [])) = some (0x306, []) ∧
      ending (exec (.gaussian 3 3 4 0xBFF0000000000000#64) (inFlight [])) = some (0x106, []) ∧
      ending (exec (.gaussian 3 3 3 0xBFF0000000000000#64) (inFlight [])) = some (0x206, []) := by decide +kernel
/-- 95 section 2.3: GENK with size 23 and sigma +0 reports the size; with size 21 and +infinity it reports sigma. -/
theorem test_genk_faults :
    ending (exec (.genk 23 0) (inFlight [])) = some (0x106, []) ∧
      ending (exec (.genk 21 0x7FF0000000000000#64) (inFlight [])) = some (0x206, []) := by decide +kernel
/-- 95 section 2.4: size 1 writes exactly 1.0, for every admissible GaussKernel (41_kernel_generator R98). -/
theorem test_genk_size_one :
    endingCoef (exec (.genk 1 0x401C000000000000#64) (inFlight [])) = some [0x3FF0000000000000#64] := by
  have h := (Config.gaussKernel.contract 1 0x401C000000000000#64 (by decide) (by decide)).sizeOne rfl
  have e : endingCoef (exec (.genk 1 0x401C000000000000#64) (inFlight [])) =
      some [Config.gaussKernel.words 1 0x401C000000000000#64 0] := rfl
  rw [e, h]
/-- 43_fixed_kernel_filters R133: the nine words. -/
theorem test_sharpen_coef :
    endingCoef (exec (.sharpen 0 5) (inFlight [])) = some
      [0x0000000000000000#64, 0xBFF0000000000000#64, 0x0000000000000000#64, 0xBFF0000000000000#64,
       0x4014000000000000#64, 0xBFF0000000000000#64, 0x0000000000000000#64, 0xBFF0000000000000#64,
       0x0000000000000000#64] := by decide +kernel
/-- P5 line 16: a CTRL write with bits 1:0 = 00 leaves the sticky fault. -/
theorem test_nolaunch_keeps_status :
    ending (step { State.reset with status := 0x306, inputs := [.host (.wr 0x00 4 0xFFFFFFFC#32)] }) =
      some (0x306, []) := by decide +kernel

/-- Table words run as the first instruction after reset: the operand words are 0, so BOX runs on an empty buffer and
GENK faults on KSIZE (70_reset_and_hazards R223). -/
theorem test_fetch_word :
    ending (step (State.reset.withFetchWord 64 0x0000000200000001)) = some (2, []) ∧
      ending (step (State.reset.withFetchWord 64 0x0000000000000002)) = some (0x106, []) ∧
      ending (step (State.reset.withFetchWord 64 0x0000000700000000)) = some (0, []) := by decide

/-! ### Numbers -/

/-- 42_convolution_engine R116, the examples. -/
theorem test_to_byte :
    [toByte (255 / 2), toByte (257 / 2), toByte (1 / 2), toByte (3 / 2), toByte (509 / 2), toByte (511 / 2),
      toByte (-1 / 2), toByte (-37), toByte 300, toByte (25450001 / 100000)] =
      [128, 128, 0, 2, 254, 255, 0, 0, 255, 255] := by decide +kernel
/-- 42_convolution_engine R117: negative ties. -/
theorem test_rne_negative : [rne (-1 / 2), rne (-3 / 2), rne (-5 / 2)] = [0, -2, -2] := by decide +kernel
/-- 44_edge_detector R147 and 95 vector E11: the saturation boundary. -/
theorem test_isqrt : [isqrt (4 * 582932), isqrt (4 * 582933), isqrt 0, isqrt 3, isqrt 4] = [1526, 1527, 0, 1, 2] := by
  decide
/-- 95 section 2.3: sigma. -/
theorem test_sigma_valid :
    [0x3FF0000000000000#64, 0x0000000000000001#64, 0x000FFFFFFFFFFFFF#64, 0x7FEFFFFFFFFFFFFF#64].all sigmaValid = true ∧
      [0x0000000000000000#64, 0x8000000000000000#64, 0x8000000000000001#64, 0xBFF0000000000000#64,
       0x7FF0000000000000#64, 0xFFF0000000000000#64, 0x7FF8000000000000#64, 0x7FF0000000000001#64].any sigmaValid =
        false := by decide
/-- 95 section 2.3: the sizes. -/
theorem test_ksize_valid :
    [0#32, 1, 2, 3, 4, 21, 22, 23, 0x7FFFFFFF, 0xFFFFFFFF].map (ksizeValid Config.defaults) =
      [false, true, false, true, false, true, false, false, false, false] := by decide
/-- 95 section 2.3: the dimensions. -/
theorem test_geom_valid :
    geomValid Config.defaults 0 0xFFFFFFFF#32 = true ∧ geomValid Config.defaults 960 960 = true ∧ geomValid Config.defaults 921600 1 = true ∧
      geomValid Config.defaults 961 960 = false ∧ geomValid Config.defaults 0x00010000#32 0x00010000#32 = false := by decide
/-- 41_kernel_generator R104: the reference realisation's words for size 3 and sigma 1.0, with the two values of the
exponential that it uses beside exp64(0) = 1. -/
theorem test_reference_kernel :
    gaussKernelRef (fun e =>
        if e = 0xBFE0000000000000#64 then 0x3FE368B2FC6F960A#64
        else if e = 0xBFF0000000000000#64 then 0x3FD78B56362CEF38#64 else 0x3FF0000000000000#64)
      3 0x3FF0000000000000#64 = some
      [0x3FB33AA539A5C0E2#64, 0x3FBFB411F86ECA50#64, 0x3FB33AA539A5C0E2#64, 0x3FBFB411F86ECA50#64,
       0x3FCA22919BD6E99F#64, 0x3FBFB411F86ECA50#64, 0x3FB33AA539A5C0E2#64, 0x3FBFB411F86ECA50#64,
       0x3FB33AA539A5C0E2#64] := by decide +kernel

/-- 41_kernel_generator R100, the special cases: with sigma 2^-501 the centre weight is 1 and all others +0; with sigma
2^501 every weight is fl64(1/9), the word of 0.1111... rounded to nearest. -/
theorem test_reference_kernel_special_cases :
    referenceKernel (fun _ => 0) 3 0x20A0000000000000#64 =
      some [0, 0, 0, 0, 0x3FF0000000000000#64, 0, 0, 0, 0] ∧
    referenceKernel (fun _ => 0) 3 0x5F40000000000000#64 = some (List.replicate 9 0x3FBC71C71C71C71C#64) ∧
    referenceKernel (fun _ => 0) 3 0x8000000000000001#64 = none := by decide +kernel

/-! ### The Host's accesses -/

/-- 95 section 2.11: the bytes of a COEF entry, and its halves. -/
theorem test_coef_bytes :
    coefBytes 32 8 { State.reset with coef := [(4, 0x3FCA22919BD6E99F#64)] } =
      [0x9F, 0xE9, 0xD6, 0x9B, 0x91, 0x22, 0xCA, 0x3F] ∧
    coefBytes 36 4 { State.reset with coef := [(4, 0x3FCA22919BD6E99F#64)] } = [0x91, 0x22, 0xCA, 0x3F] := by
  decide +kernel
/-- 10_state R14, R15: a parameter register holds its value; CTRL reads as 0. -/
theorem test_registers :
    [0x00, 0x08, 0x0C, 0x10, 0x14, 0x18, 0x1C, 0x20].map
      (fun o => regRead o 4 (regWrite 0x18 4 7 (regWrite 0x08 4 5 State.reset))) = [0, 5, 0, 0, 0, 7, 0, 0] := by
  decide
/-- 20_memory R47: bytes of a write beyond the space have no effect. -/
theorem test_store_at_the_edge :
    endingAs State.inMem (core.run 2 { State.reset with inputs := [.host (.st .input 3686399 [1, 2])] }) = some [(3686399, 1)] := by
  decide +kernel
/-- 20_memory R48: the Engine runs its command between the two bytes of a write to IN, and the write then goes on. -/
theorem test_engine_between_bytes :
    ending (core.run 2 { inFlight [10, 20, 30, 40] with
      desc := ⟨0, 1, 1, 0, 0, .filter⟩, inputs := [.host (.st .input 4 [1, 2]), .engine, .resume] }) =
        some (2, [10, 20, 30, 40]) ∧
    endingAs State.inMem (core.run 3 { inFlight [10, 20, 30, 40] with
      desc := ⟨0, 1, 1, 0, 0, .filter⟩, inputs := [.host (.st .input 4 [1, 2]), .engine, .resume] }) =
        some [(0, 10), (1, 20), (2, 30), (3, 40), (4, 1), (5, 2)] := by decide +kernel
/-- 20_memory R48: a read of OUT across a platform reset has its first byte from before it and none of the second. -/
theorem test_load_across_reset :
    endingAs (fun t => (t.transfer, t.outMem)) (core.run 2 { State.reset with
        outMem := [(0, 7), (1, 8)], inputs := [.host (.ld .output 0 2), .reset, .resume] }) =
      some (some (.load .output 1 1 [7]), []) := by decide +kernel
/-- 00_scope R3: CAP_PIX and KMAX are parameters. With 4 pixels and size 5, five pixels fault with code 3 and size 7
with code 1; four pixels and size 5 do not. -/
theorem test_other_parameters :
    ending (exec (.identity 5 1) { State.reset with params := ⟨4, 5⟩, status := 1 }) = some (0x306, []) ∧
      ending (exec (.genk 7 one64) { State.reset with params := ⟨4, 5⟩, status := 1 }) = some (0x106, []) ∧
      geomValid ⟨4, 5⟩ 4 1 = true ∧ ksizeValid ⟨4, 5⟩ 5 = true := by decide +kernel

/-! ### Witnesses: the hypotheses of each obligation can be met -/

theorem good_one : GoodSigma one64 := ⟨1, by decide +kernel, by norm_num⟩
theorem not_good_zero : ¬ GoodSigma 0 := by
  rintro ⟨q, h, hq⟩
  have : val64 0 = some 0 := by decide +kernel
  rw [this] at h
  obtain rfl := Option.some.inj h
  exact absurd hq (by norm_num)
theorem good_sizes : GoodSize Config.defaults 1 ∧ GoodSize Config.defaults 21 := ⟨⟨by decide, by decide⟩, by decide, by decide⟩
theorem not_good_sizes :
    ¬ GoodSize Config.defaults 0 ∧ ¬ GoodSize Config.defaults 22 ∧ ¬ GoodSize Config.defaults 23 :=
  ⟨fun h => absurd h.1 (by decide), fun h => absurd h.1 (by decide), fun h => absurd h.2 (by decide)⟩

/-- A 2 by 1 image, a BOX command in flight. -/
def boxState : State :=
  { inFlight [10, 20, 30, 40, 110, 120, 130, 140] with desc := ⟨2, 2, 1, 0, 0, .filter⟩ }
theorem boxState_defined : boxState.bufferDefined 2 1 := by
  show ∀ a, a < 8 → (boxState.inMem.get? a).isSome = true
  decide

theorem witness_OpcodeRowsPartitionAllPatterns : 2 ^ 64 - 1 < 2 ^ 64 ∧ 0 < 2 ^ 64 := by decide
theorem witness_DecodeByLaunchWordAndSelector :
    BitVec.getLsbD (1#32) 0 = true ∧ (0#32).toNat = 0 ∧ (5#32).toNat = 5 ∧ 6 ≤ (6#32).toNat ∧
      6 ≤ (0xFFFFFFFF#32).toNat ∧ BitVec.getLsbD (2#32) 0 = false ∧ BitVec.getLsbD (2#32) 1 = true ∧
      BitVec.getLsbD (0xFFFFFFFC#32) 0 = false ∧ BitVec.getLsbD (0xFFFFFFFC#32) 1 = false := by decide
theorem witness_DecodeBytesOfEncodeIsTheCommand :
    Instr.wellFormed (.unknown 6 0 0) = true ∧ Instr.wellFormed (.genk 21 one64) = true := by decide
theorem witness_StepRunsTheFetchedCommand :
    fetch boxState = some (.box 2 1) ∧ boxState.transfer = none ∧ boxState.inputs = [] ∧
      fetch { boxState with inputs := [.engine] } = some (.box 2 1) ∧
      fetch { boxState with inputs := [.host .wait] } = some (.box 2 1) ∧ boxState.done = false ∧
      State.reset.busy = false ∧ State.reset.transfer = none ∧ decode (wordsAt 4 State.reset) = .nolaunch ∧
      0x0000000200000001 < 2 ^ 64 ∧ decodeTableWord 64 0x0000000200000001 = some (.box 0 0) := by decide
theorem witness_LaunchLatchesTheDescriptor :
    State.reset.busy = false ∧ State.reset.transfer = none ∧ ((1#32).getLsbD 0 = true ∨ (1#32).getLsbD 1 = true) ∧
      ((0xFFFFFFFE#32).getLsbD 0 = true ∨ (0xFFFFFFFE#32).getLsbD 1 = true) ∧
      ({ State.reset with inputs := [startMove] } : State).inputs = .host (.wr 0x00 4 1#32) :: [] := by decide
theorem witness_CtrlWriteWhileBusyIsDropped :
    ({ boxState with inputs := [startMove] } : State).busy = true ∧ boxState.transfer = none ∧
      ({ boxState with inputs := [startMove] } : State).inputs = .host (.wr 0x00 4 1#32) :: [] := by decide
theorem witness_NolaunchChangesNoState : State.reset.transfer = none ∧
    (0xFFFFFFFC#32).getLsbD 0 = false ∧ (0xFFFFFFFC#32).getLsbD 1 = false ∧
      ({ State.reset with inputs := [.host (.wr 0x00 4 0xFFFFFFFC#32)] } : State).inputs =
        .host (.wr 0x00 4 0xFFFFFFFC#32) :: [] := by decide
theorem witness_EveryCommandReachesOneEnd : Instr.box 2 1 ≠ .nolaunch ∧ boxState.status = 0x00000001#32 := by decide
theorem witness_FirstFailingCheckIsReported :
    isFilter (.gray 1281 720) 1281 720 ∧ boxState.params.capPix < (1281#32).toNat * (720#32).toNat ∧
      (1280#32).toNat * (720#32).toNat ≤ boxState.params.capPix ∧ ¬ GoodSize boxState.params 22 ∧ GoodSize boxState.params 21 ∧ ¬ GoodSigma 0 :=
  ⟨⟨rfl, rfl⟩, by decide, by decide, not_good_sizes.2.1, good_sizes.2, not_good_zero⟩
theorem witness_WaitEndsAfterTheCommand :
    ({ boxState with inputs := [.host .wait] } : State).busy = true ∧
      ({ boxState with inputs := [.host .wait] } : State).done = false ∧
      ({ boxState with inputs := [.host .wait] } : State).transfer = none ∧
      ({ boxState with status := 2, inputs := [.host .wait] } : State).done = true ∧
      ({ State.reset with inputs := [.host .wait] } : State).busy = false ∧
      ({ State.reset with inputs := [.host .wait] } : State).done = false ∧
      ({ State.reset with inputs := [.host .wait] } : State).inputs = .host .wait :: [] := by decide
theorem witness_ApplyLaunchesTheFilterSpec :
    FilterSpec.Encodable (.unrecognised 6) ∧
      ({ State.reset with inputs := applyMoves (.unrecognised 6) 2 1 } : State).busy = false ∧
      ({ State.reset with inputs := applyMoves (.unrecognised 6) 2 1 } : State).transfer = none :=
  ⟨by show 6 ≤ (6#32).toNat; decide, by decide, rfl⟩
theorem witness_GenKernelLaunchesTheGenerator :
    ({ State.reset with inputs := genKernelMoves 3 one64 } : State).busy = false ∧
      ({ State.reset with inputs := genKernelMoves 3 one64 } : State).transfer = none := by decide
theorem witness_CopyBackLineCopiesOneByte :
    ({ State.reset with inputs := [.host (.copyByte 3686399)] } : State).pending = false ∧
      3686399 < State.reset.params.sampleBytes ∧ State.reset.transfer = none ∧ HostNext [] ∧
      HostNext [.host (.copyByte 0)] :=
  ⟨by decide, by decide, rfl, .inl rfl, .inr ⟨_, _, rfl⟩⟩
theorem witness_IdleEngineHasNoStep :
    State.reset.busy = false ∧ State.reset.transfer = none ∧ State.reset.inputs = [] ∧
      ({ State.reset with inputs := [.engine] } : State).busy = false := by decide
theorem witness_ResetMeetsTheInvariant : (5 : Nat) % 2 = 1 ∧ 5 ≤ 5 ∧ 23 % 2 = 1 ∧ 5 ≤ 23 := by decide
theorem witness_PlatformResetFromAnyState :
    ({ boxState with inputs := [.reset] } : State).inputs = .reset :: [] ∧ boxState.busy = true := by decide
theorem witness_EveryStepKeepsTheInvariant : boxState.Inv := by
  constructor <;> decide +kernel
theorem witness_ParameterRegistersReadBack :
    boxState.transfer = none ∧ 0x08 ∈ [0x08, 0x0C, 0x10, 0x14, 0x18, 0x1C] ∧ 0x1C ∈ [0x08, 0x0C, 0x10, 0x14, 0x18, 0x1C] ∧
      ({ boxState with inputs := [wrReg 0x1C 7] } : State).inputs = .host (.wr 0x1C 4 7) :: [] := by decide
theorem witness_OtherRegisterAccessesHaveNoEffect :
    State.reset.transfer = none ∧ (2 ≠ 4 ∨ 0x08 ∉ [0x00, 0x04, 0x08, 0x0C, 0x10, 0x14, 0x18, 0x1C]) ∧
      (4 ≠ 4 ∨ 0x20 ∉ [0x00, 0x04, 0x08, 0x0C, 0x10, 0x14, 0x18, 0x1C]) ∧
      (4 ≠ 4 ∨ 0x00 ∉ [0x04, 0x08, 0x0C, 0x10, 0x14, 0x18, 0x1C]) ∧
      ({ State.reset with inputs := [.host (.rd 0x00 4)] } : State).inputs = .host (.rd 0x00 4) :: [] := by decide
theorem witness_HostReadsChangeNoPfeState :
    boxState.transfer = none ∧
      ({ boxState with inputs := [.host (.rd 0x04 4)] } : State).inputs = .host (.rd 0x04 4) :: [] ∧
      ({ boxState with inputs := [.host (.ldCoef 8 8)] } : State).inputs = .host (.ldCoef 8 8) :: [] ∧
      ({ boxState with inputs := [.host (.ld .output 3686399 2), .host .wait] } : State).inputs =
        .host (.ld .output 3686399 2) :: [.host .wait] ∧
      HostNext [.host .wait] :=
  ⟨rfl, rfl, rfl, rfl, .inr ⟨_, _, rfl⟩⟩
/-- A read of two bytes of IN as it begins, one in progress with one byte left before an empty schedule, before the Host's
own move and before a transaction; the Engine and a reset between two bytes; a transaction that waits. -/
theorem witness_WideAccessesAreNotAtomic :
    NextLoad { boxState with inputs := [.host (.ld .input 0 2)] } .input 0 (1 + 1) [] [] ∧
      NextLoad { boxState with transfer := some (.load .input 1 1 [10]) } .input 1 (0 + 1) [10] [] ∧
      NextLoad { boxState with transfer := some (.load .input 1 1 [10]), inputs := [.resume] } .input 1 (0 + 1) [10] [] ∧
      NextLoad { boxState with transfer := some (.load .input 1 1 [10]), inputs := [.host .wait] } .input 1 (0 + 1)
        [10] [.host .wait] ∧
      ({ boxState with inputs := [.engine] } : State).inputs = .engine :: [] ∧
      ({ boxState with inputs := [.reset] } : State).inputs = .reset :: [] ∧
      ({ boxState with transfer := some (.store 1 [9]), inputs := [.host .wait] } : State).transfer =
        some (.store 1 [9]) :=
  ⟨.inl ⟨rfl, rfl, rfl⟩, .inr ⟨rfl, trivial, rfl⟩, .inr ⟨rfl, trivial, rfl⟩, .inr ⟨rfl, trivial, rfl⟩, rfl, rfl, rfl⟩
theorem witness_HostWritesToOutAndCoefAreIgnored :
    State.reset.transfer = none ∧ (HostOp.st .output 0 [1] = .st .output 0 [1] ∨ HostOp.st .output 0 [1] = .stCoef 0 [1]) ∧
      (HostOp.stCoef 0 [1] = .st .output 0 [1] ∨ HostOp.stCoef 0 [1] = .stCoef 0 [1]) ∧
      ({ State.reset with inputs := [.host (.stCoef 0 [1])] } : State).inputs = .host (.stCoef 0 [1]) :: [] := by
  decide
/-- The last byte of IN and the first one past it, as the beginning of a write and inside one. -/
theorem witness_InputStoreThenLoad :
    NextStore { State.reset with inputs := [.host (.st .input 3686399 [1, 2])] } 3686399 (1 :: [2]) [] ∧
      NextStore { State.reset with transfer := some (.store 3686400 [2]) } 3686400 (2 :: []) [] ∧
      3686399 < State.reset.params.sampleBytes ∧ State.reset.params.sampleBytes ≤ 3686400 ∧
      State.reset.transfer = none ∧ HostNext [] ∧ ([1, 2] : List Byte)[3686399 - 3686398]? = some 2 ∧
      3686398 + ([1, 2] : List Byte).length ≤ State.reset.params.sampleBytes ∧ State.reset.pending = false :=
  ⟨.inl ⟨rfl, rfl⟩, .inr ⟨rfl, trivial, rfl⟩, by decide, by decide, rfl, .inl rfl, rfl, by decide, rfl⟩
theorem witness_IdleOutAndCoefReadAsStored :
    State.reset.pending = false ∧ 440 < State.reset.params.coefEntries ∧ 0 < State.reset.params.coefEntries ∧
      3686399 < State.reset.params.sampleBytes ∧ State.reset.transfer = none ∧
      ({ boxState with inputs := [.host (.ld .input 7 1)] } : State).inputs = .host (.ld .input 7 1) :: [] ∧
      loadByte .input 7 { boxState with inputs := [.host (.ld .input 7 1)] } = some 140 := by decide +kernel
theorem witness_StatusReadReleasesTheResults :
    ({ State.reset with inputs := [genkMove] } : State).busy = false ∧ (2#32).getLsbD 1 = true ∧
      ({ State.reset with inputs := [genkMove] } : State).inputs = .host (.wr 0x00 4 2#32) :: [] ∧
      State.reset.transfer = none ∧ boxState.transfer = none ∧
    ({ boxState with status := 2, inputs := [.host (.rd 0x04 4)] } : State).done = true ∧
      ({ boxState with inputs := [.host (.rd 0x04 4)] } : State).done = false ∧ boxState.pending = true ∧
      boxState.params.sampleBytes ≤ 3686400 ∧ 8 * State.reset.params.coefEntries ≤ 3528 ∧
      (8 = 8 ∧ 4 % 8 ≠ 0) ∧ (4 = 4 ∧ 2 % 4 ≠ 0) ∧ (1 ≠ 4 ∧ 1 ≠ 8) := by decide
/-- The last byte of the input buffer and the first one past it; GENK in flight; a fault and a completion observed; a
disturbed command that completes. -/
theorem witness_InputRaceAffectsOnlyTheResult :
    boxState.busy = true ∧ boxState.pending = true ∧ boxState.desc.kind = .filter ∧
      7 < 4 * boxState.desc.width.toNat * boxState.desc.height.toNat ∧ 7 < boxState.params.sampleBytes ∧
      NextStore { boxState with inputs := [.host (.st .input 7 [9])] } 7 (9 :: []) [] ∧
      (∀ n ∈ boxState.earlier, n ≤ 7) ∧
      4 * boxState.desc.width.toNat * boxState.desc.height.toNat ≤ 8 ∧
      ({ boxState with desc := ⟨2, 2, 1, 3, one64, .generate⟩ } : State).desc.kind = .generate ∧
      ({ boxState with status := 2 } : State).busy = false ∧ ({ boxState with status := 0x306 } : State).err = true ∧
      isFilter (.box 2 1) 2 1 :=
  ⟨by decide, by decide, by decide, by decide, by decide, .inl ⟨rfl, rfl⟩, by decide, by decide, rfl,
    by decide, by decide, rfl, rfl⟩
theorem witness_InputRace_disturbed :
    ({ boxState with race := true } : State).race = true ∧
      endingAs (fun t => errOf t.status) (exec (.identity 2 1) { boxState with race := true }) = some false := by
  decide +kernel

/-- BOX 2 by 1 completed and not observed: a launch of GENK makes its 8 bytes an earlier result. -/
def unobserved : State := { boxState with status := 2, inputs := [genkMove] }
/-- A 1 by 1 command in flight, after the unobserved 2 by 1 one. -/
def overlapping : State := { boxState with desc := ⟨0, 1, 1, 0, 0, .filter⟩, earlier := [8] }
theorem witness_EarlierResultsAreOpenUntilDoneIsRead :
    overlapping.pending = true ∧ overlapping.busy = true ∧ unobserved.busy = false ∧ unobserved.err = false ∧
      unobserved.desc.kind = .filter ∧ (2#32).getLsbD 1 = true ∧ unobserved.transfer = none ∧
      unobserved.inputs = .host (.wr 0x00 4 2#32) :: [] ∧ unobserved.pending = true ∧ State.reset.pending = false ∧
      NextStore { overlapping with inputs := [.host (.st .input 7 [9])] } 7 (9 :: []) [] ∧
      7 < overlapping.params.sampleBytes ∧ (openResults overlapping).find? (fun m => decide (7 < m)) = some 8 ∧
      (∀ n ∈ openResults overlapping, n ≤ 8) ∧
      ({ unobserved with inputs := [.host (.rd 0x04 4)] } : State).done = true ∧
      ({ overlapping with inputs := [.host (.rd 0x04 4)] } : State).done = false :=
  ⟨by decide, by decide, by decide, by decide, by decide, by decide, rfl, rfl, rfl, rfl, .inl ⟨rfl, rfl⟩, by decide,
    by decide, by decide, by decide, by decide⟩
/-- 70_reset_and_hazards R230: after the launch of GENK, a write to the last byte of the earlier command's input buffer
still makes its result any value, and one beyond it does not; after the STATUS read of DONE = 1 neither does. -/
theorem test_earlier_window :
    endingAs (fun t => (t.earlier, t.race, t.draws, t.outMem.map Prod.fst))
      (core.run 2 { unobserved with inputs := [genkMove, .host (.st .input 7 [9])] }) =
        some ([8], false, 1, [0, 1, 2, 3, 4, 5, 6, 7]) ∧
    endingAs (fun t => (t.earlier, t.race, t.draws, t.outMem.map Prod.fst))
      (core.run 2 { unobserved with inputs := [genkMove, .host (.st .input 8 [9])] }) = some ([8], false, 0, []) ∧
    endingAs (fun t => (t.earlier, t.race, t.draws, t.outMem.map Prod.fst))
      (core.run 3 { unobserved with inputs := [.host (.rd 0x04 4), genkMove, .host (.st .input 7 [9])] }) =
        some ([], false, 0, []) := by decide +kernel
/-- A launch over an unread result, a move of the Engine, and a WAIT on a command in flight, each with a command pending. -/
theorem witness_OnlyADoneReadOrAResetClosesResults :
    unobserved.pending = true ∧ (∀ rest, unobserved.inputs ≠ .reset :: rest) ∧ unobserved.done = true ∧
      unobserved.transfer = none ∧
      (∀ rest, unobserved.inputs ≠ .host (.rd 0x04 4) :: rest ∧ unobserved.inputs ≠ .host .wait :: rest) ∧
      ({ overlapping with inputs := [.engine] } : State).pending = true ∧
      (∀ rest, ({ overlapping with inputs := [.engine] } : State).inputs ≠ .reset :: rest) ∧
      ({ overlapping with inputs := [.host .wait] } : State).done = false ∧
      openResults overlapping = [8] :=
  ⟨by decide, fun _ h => by simp [unobserved, genkMove, wrReg] at h, by decide, rfl,
    fun _ => ⟨fun h => by simp [unobserved, genkMove, wrReg] at h, fun h => by simp [unobserved, genkMove, wrReg] at h⟩,
    by decide, fun _ h => by simp at h, by decide, by decide⟩
theorem witness_BinaryWordValue :
    ((0x7FF0000000000000#64).extractLsb' 52 11).toNat = 0x7FF ∧
      1 ≤ ((0x0010000000000000#64).extractLsb' 52 11).toNat ∧
      ((0x7FEFFFFFFFFFFFFF#64).extractLsb' 52 11).toNat ≤ 0x7FE ∧
      ((0x800FFFFFFFFFFFFF#64).extractLsb' 52 11).toNat = 0 := by decide
theorem witness_RoundingIsToNearestTiesToEven : |(1 / 2 : ℚ) - (rne (1 / 2) : ℚ)| = 1 / 2 := by
  have h : rne (1 / 2) = 0 := by decide +kernel
  rw [h]; norm_num
theorem witness_ToByteIsMonotoneAndClampCommutes : (1 / 2 : ℚ) ≤ 3 / 2 := by norm_num
theorem witness_IntegerSquareRootIsGreatest : 1526 * 1526 ≤ 4 * 582932 := by decide
theorem witness_EdgeMagnitudeIsTheRoundedNorm :
    Real.sqrt (((0 : Int) : ℝ) ^ 2 + ((0 : Int) : ℝ) ^ 2) / 3 < 509 / 2 ∧
      509 / 2 < Real.sqrt (((3060 : Int) : ℝ) ^ 2 + ((0 : Int) : ℝ) ^ 2) / 3 := by
  have h : Real.sqrt (((3060 : Int) : ℝ) ^ 2 + ((0 : Int) : ℝ) ^ 2) = 3060 := by
    rw [show ((3060 : Int) : ℝ) ^ 2 + ((0 : Int) : ℝ) ^ 2 = 3060 ^ 2 by norm_num]
    exact Real.sqrt_sq (by norm_num)
  rw [h]
  norm_num
theorem witness_GrayRounding : 765 ≤ 765 ∧ 0 ≤ 765 := by decide
theorem witness_IdentityAndUnknownCopyTheBuffer :
    (Instr.unknown 6 2 1 = .identity 2 1 ∨ Instr.unknown 6 2 1 = .unknown 6 2 1) ∧
      (2#32).toNat * (1#32).toNat ≤ boxState.params.capPix ∧ boxState.race = false ∧ 7 < 4 * (2#32).toNat * (1#32).toNat ∧
      boxState.definedAt 7 ∧ boxState.params.capPix < (921601#32).toNat * (1#32).toNat :=
  ⟨.inr rfl, by decide, by decide, by decide, boxState_defined 7 (by decide), by decide⟩
theorem witness_GrayStoresTheRoundedMean :
    (2#32).toNat * (1#32).toNat ≤ boxState.params.capPix ∧ boxState.race = false ∧ 1 < (2#32).toNat ∧ 0 < (1#32).toNat ∧
      (∀ c, c < 3 → boxState.definedAt (idx 2 1 0 c)) ∧ boxState.definedAt (idx 2 1 0 3) ∧
      boxState.params.capPix < (1281#32).toNat * (720#32).toNat :=
  ⟨by decide, by decide, by decide, by decide, fun c hc => boxState_defined _ (by unfold idx; omega),
    boxState_defined _ (by decide), by decide⟩
theorem witness_GrayIsIdempotent :
    (2#32).toNat * (1#32).toNat ≤ boxState.params.capPix ∧ State.reset.params = boxState.params ∧
      boxState.race = false ∧ State.reset.race = false ∧ boxState.bufferDefined 2 1 :=
  ⟨by decide, rfl, by decide, rfl, boxState_defined⟩
theorem idx_row_lt {x c : Nat} (hx : x < 2) (hc : c < 4) : idx 2 x 0 c < 8 := by unfold idx; omega
theorem witness_BoxStoresTheRoundedMeanOfTwentyFive :
    boxState.params.capPix < (1281#32).toNat * (720#32).toNat ∧ (2#32).toNat * (1#32).toNat ≤ boxState.params.capPix ∧
      boxState.race = false ∧ 1 < (2#32).toNat ∧ 0 < (1#32).toNat ∧
      ∀ kx ky : Nat, kx < 5 → ky < 5 →
        boxState.definedAt (idx 2 (edgeClamp ((1 : Nat) + kx - 2) 2) (edgeClamp ((0 : Nat) + ky - 2) 1) 2) := by
  refine ⟨by decide, by decide, by decide, by decide, by decide, ?_⟩
  have h : ∀ kx, kx < 5 → ∀ ky, ky < 5 →
      idx 2 (edgeClamp ((1 : Nat) + (kx : Nat) - 2) 2) (edgeClamp ((0 : Nat) + (ky : Nat) - 2) 1) 2 < 8 := by decide
  exact fun kx ky h1 h2 => boxState_defined _ (h kx h1 ky h2)
theorem witness_SharpenStoresTheClampedDifference :
    boxState.params.capPix < (1281#32).toNat * (720#32).toNat ∧ (2#32).toNat * (1#32).toNat ≤ boxState.params.capPix ∧
      boxState.race = false ∧ boxState.definedAt (idx 2 1 0 2) ∧
      boxState.definedAt (idx 2 1 (edgeClamp ((0 : Nat) - 1) 1) 2) ∧
      boxState.definedAt (idx 2 1 (edgeClamp ((0 : Nat) + 1) 1) 2) ∧
      boxState.definedAt (idx 2 (edgeClamp ((1 : Nat) - 1) 2) 0 2) ∧
      boxState.definedAt (idx 2 (edgeClamp ((1 : Nat) + 1) 2) 0 2) ∧ boxState.definedAt (idx 2 1 0 3) :=
  ⟨by decide, by decide, by decide, boxState_defined _ (by decide), boxState_defined _ (by decide),
    boxState_defined _ (by decide), boxState_defined _ (by decide), boxState_defined _ (by decide),
    boxState_defined _ (by decide)⟩
theorem witness_GaussianStoresTheWeightedSum :
    boxState.params.capPix < (1281#32).toNat * (720#32).toNat ∧ (2#32).toNat * (1#32).toNat ≤ boxState.params.capPix ∧
      ¬ GoodSize boxState.params 0 ∧ GoodSize boxState.params 1 ∧ ¬ GoodSigma 0 ∧ GoodSigma one64 ∧ boxState.race = false ∧
      ∀ kx ky : Nat, kx < (1#32).toNat → ky < (1#32).toNat →
        boxState.definedAt (idx 2 (edgeClamp ((1 : Nat) + kx - ((1#32).toNat / 2 : Nat)) 2)
          (edgeClamp ((0 : Nat) + ky - ((1#32).toNat / 2 : Nat)) 1) 2) := by
  refine ⟨by decide, by decide, not_good_sizes.1, good_sizes.1, not_good_zero, good_one, by decide, ?_⟩
  have h : ∀ kx, kx < 1 → ∀ ky, ky < 1 →
      idx 2 (edgeClamp ((1 : Nat) + (kx : Nat) - ((1#32).toNat / 2 : Nat)) 2)
        (edgeClamp ((0 : Nat) + (ky : Nat) - ((1#32).toNat / 2 : Nat)) 1) 2 < 8 := by decide
  exact fun kx ky h1 h2 => boxState_defined _ (h kx h1 ky h2)
theorem witness_GaussianOfSizeOneCopiesTheBuffer :
    (2#32).toNat * (1#32).toNat ≤ boxState.params.capPix ∧ GoodSize boxState.params 1 ∧ GoodSigma one64 ∧
      boxState.race = false ∧ boxState.bufferDefined 2 1 :=
  ⟨by decide, good_sizes.1, good_one, by decide, boxState_defined⟩

/-- A 3 by 3 image, all bytes 100. -/
def uniformState : State := inFlight (List.replicate 36 100)
theorem uniformState_defined : uniformState.bufferDefined 3 3 := by
  show ∀ a, a < 36 → (uniformState.inMem.get? a).isSome = true
  decide
theorem witness_EdgeStoresTheSobelMagnitude :
    boxState.params.capPix < (1281#32).toNat * (720#32).toNat ∧ (3#32).toNat * (3#32).toNat ≤ boxState.params.capPix ∧
      uniformState.race = false ∧ (1 ≤ 1 ∧ 1 + 1 < (3#32).toNat) ∧ 2 + 1 = (3#32).toNat ∧
      (∀ x y c, x < 3 → y < 3 → c < 3 → uniformState.definedAt (idx 3 x y c)) := by
  refine ⟨by decide, by decide, by decide, by decide, by decide, fun x y c hx hy hc => uniformState_defined _ ?_⟩
  unfold idx; omega
/-- A 3 by 3 image of which only the second pixel, bytes 4 to 7, is unwritten. -/
def holedState : State :=
  { State.reset with
    status := 1, pending := true,
    inMem := (List.range 4 ++ (List.range 28).map (· + 8)).zip (List.replicate 32 100) }
theorem holedState_undefined (c : Nat) (hc : c < 4) : ¬ holedState.definedAt (idx 3 1 0 c) := by
  have h : ∀ c, c < 4 → (holedState.inMem.get? (idx 3 1 0 c)).isSome = false := by decide
  simp [State.definedAt, h c hc]
/-- The hole is the pixel itself, its neighbour above for SHARPEN and EDGE at the centre, and under the kernel's outermost
cell of the neighbour on the left for BOX and under the centre cell for GAUSSIAN of size 1. -/
theorem witness_BytesOverUnwrittenInputAreAnyValue :
    (3#32).toNat * (3#32).toNat ≤ holedState.params.capPix ∧ holedState.race = false ∧
      (idx 3 1 0 0 < 4 * (3#32).toNat * (3#32).toNat ∧ ¬ holedState.definedAt (idx 3 1 0 0)) ∧
      ¬ holedState.definedAt (idx 3 1 0 3) ∧ ¬ holedState.definedAt (idx 3 1 0 2) ∧
      ¬ holedState.definedAt (idx 3 (edgeClamp ((0 : Nat) + (3 : Nat) - 2) 3) (edgeClamp ((0 : Nat) + (0 : Nat) - 2) 3) 2) ∧
      ¬ holedState.definedAt (idx 3 1 (edgeClamp ((1 : Nat) - 1) 3) 2) ∧
      (GoodSize holedState.params (1#32) ∧ GoodSigma one64 ∧
        weightOf (Config.gaussKernel.words (1#32).toNat one64 (0 * (1#32).toNat + 0)) ≠ 0 ∧
        ¬ holedState.definedAt (idx 3 (edgeClamp ((1 : Nat) + (0 : Nat) - ((1#32).toNat / 2 : Nat)) 3)
          (edgeClamp ((0 : Nat) + (0 : Nat) - ((1#32).toNat / 2 : Nat)) 3) 2)) ∧
      (1 + 1 < (3#32).toNat ∧ (1, 0) ≠ (1, 1)) := by
  have hu := holedState_undefined 2 (by decide)
  refine ⟨by decide, rfl, ⟨by decide, holedState_undefined 0 (by decide)⟩, holedState_undefined 3 (by decide), hu, ?_, ?_,
    ⟨good_sizes.1, good_one, ?_, ?_⟩, by decide⟩
  · exact (show idx 3 (edgeClamp ((0 : Nat) + (3 : Nat) - 2) 3) (edgeClamp ((0 : Nat) + (0 : Nat) - 2) 3) 2 = idx 3 1 0 2 by
      decide) ▸ hu
  · exact (show idx 3 1 (edgeClamp ((1 : Nat) - 1) 3) 2 = idx 3 1 0 2 by decide) ▸ hu
  · have h1 : Config.gaussKernel.words (1#32).toNat one64 (0 * (1#32).toNat + 0) = 0x3FF0000000000000#64 :=
      (Config.gaussKernel.contract 1 one64 (by decide) (by decide +kernel)).sizeOne rfl
    rw [h1]; decide +kernel
  · exact (show idx 3 (edgeClamp ((1 : Nat) + (0 : Nat) - ((1#32).toNat / 2 : Nat)) 3)
      (edgeClamp ((0 : Nat) + (0 : Nat) - ((1#32).toNat / 2 : Nat)) 3) 2 = idx 3 1 0 2 by decide) ▸ hu
theorem witness_GenkWritesAKernelWithinTheContract :
    ¬ GoodSize boxState.params 0 ∧ ¬ GoodSize boxState.params 22 ∧ ¬ GoodSize boxState.params 23 ∧ GoodSize boxState.params 1 ∧ GoodSize boxState.params 21 ∧ ¬ GoodSigma 0 ∧ GoodSigma one64 :=
  ⟨not_good_sizes.1, not_good_sizes.2.1, not_good_sizes.2.2, good_sizes.1, good_sizes.2, not_good_zero, good_one⟩
theorem witness_GeneratedKernelIsSymmetricAndFallsOff :
    GoodSize boxState.params 21 ∧ GoodSigma one64 ∧ 20 < (21#32).toNat ∧ 0 < (21#32).toNat :=
  ⟨good_sizes.2, good_one, by decide, by decide⟩
theorem witness_GeneratedKernelSumsToOne :
    21 % 2 = 1 ∧ 21 ≤ Config.defaults.kmax ∧ 21 ≤ 21 ∧ 23 % 2 = 1 ∧ 23 ≤ (⟨0, 23⟩ : Params).kmax ∧ GoodSigma one64 :=
  ⟨by decide, by decide, by decide, by decide, by decide, good_one⟩
theorem witness_UniformChannelsAreUnchanged :
    (3#32).toNat * (3#32).toNat ≤ uniformState.params.capPix ∧ uniformState.race = false ∧ 2 < 3 ∧
      (∀ x y, x < (3#32).toNat → y < (3#32).toNat →
        uniformState.definedAt (idx (3#32).toNat x y 2) ∧ uniformState.sample (3#32).toNat x y 2 = 100) ∧
      (Instr.gaussian 3 3 21 one64 = .box 3 3 ∨ Instr.gaussian 3 3 21 one64 = .sharpen 3 3 ∨
        ∃ (k : Word) (g : DWord), Instr.gaussian 3 3 21 one64 = .gaussian 3 3 k g ∧ GoodSize uniformState.params k ∧
          GoodSigma g ∧ 510 * (k.toNat * k.toNat) < 2 ^ 40) := by
  refine ⟨by decide, by decide, by decide, ?_, .inr (.inr ⟨21, one64, rfl, good_sizes.2, good_one, by decide⟩)⟩
  have h : ∀ x, x < 3 → ∀ y, y < 3 →
      (uniformState.inMem.get? (idx 3 x y 2)).isSome = true ∧ uniformState.sample 3 x y 2 = 100 := by decide +kernel
  exact fun x y hx hy => h x hx y hy
theorem witness_ResultsDependOnOperandsAndInputOnly :
    isFilter (.box 2 1) 2 1 ∧ ({ boxState with coef := [(0, 7)], draws := 5 } : State).params = boxState.params ∧
      boxState.status = 0x00000001#32 ∧
      ({ boxState with coef := [(0, 7)], draws := 5 } : State).status = 0x00000001#32 ∧ boxState.race = false ∧
      boxState.bufferDefined 2 1 ∧
      ∀ a, a < 4 * 2 * 1 →
        ({ boxState with coef := [(0, 7)], draws := 5 } : State).inMem.get? a = boxState.inMem.get? a :=
  ⟨⟨rfl, rfl⟩, rfl, by decide, by decide, by decide, boxState_defined, fun _ _ => rfl⟩
theorem witness_EveryFilterCommutesWithTransposition :
    isFilter (.box 2 1) 2 1 ∧ boxState.status = 0x00000001#32 ∧ boxState.race = false ∧
      boxState.bufferDefined 2 1 ∧ TransposedInput 2 1 boxState boxState := by
  refine ⟨⟨rfl, rfl⟩, by decide, by decide, boxState_defined, ?_⟩
  intro x y c hx hy _
  have h : idx 1 y x c = idx 2 x y c := by unfold idx; omega
  rw [h]
theorem witness_UnknownSelectorBehavesAsIdentity :
    (1#32).getLsbD 0 = true ∧ 6 ≤ (6#32).toNat ∧ 6 ≤ (0xFFFFFFFF#32).toNat := by decide

/-- Sigma 2^-501, 2^501 and 1. -/
theorem witness_ReferenceSpecialCasesMeetTheContract :
    3 % 2 = 1 ∧ 3 < 2 ^ 32 ∧ val64 0x20A0000000000000#64 = some (1 / 2 ^ 501) ∧ (0 : ℚ) < 1 / 2 ^ 501 ∧
      (1 / 2 ^ 501 : ℚ) < 1 / 2 ^ 500 ∧ val64 0x5F40000000000000#64 = some (2 ^ 501) ∧ (2 : ℚ) ^ 500 < 2 ^ 501 ∧
      val64 one64 = some 1 ∧ (1 / 2 ^ 500 : ℚ) ≤ 1 ∧ (1 : ℚ) ≤ 2 ^ 500 := by decide +kernel

end Sys2Proof.Tests
end

section
/-! The invariant of every step (00_scope R3, 10_state R16, R26, R28, 20_memory R40): it holds right after reset, every
shared operation keeps it, so every command and every move keeps it, and so does a step. -/
namespace Sys2Proof.Machine
variable {s : State}

/-! ### STATUS in a state that meets the invariant -/

theorem statusLegal_iff {st : Word} : statusLegal st = true ↔
    st = 0x00000000#32 ∨ st = 0x00000001#32 ∨ st = 0x00000002#32 ∨ st = 0x00000106#32 ∨ st = 0x00000206#32 ∨
      st = 0x00000306#32 := by
  simp [statusLegal, or_assoc]

/-- The one legal value of STATUS with BUSY = 1. -/
theorem eq_one_of_legal_of_busy {st : Word} (hl : statusLegal st = true) (hb : busyOf st = true) :
    st = 0x00000001#32 := by
  rcases statusLegal_iff.1 hl with rfl | rfl | rfl | rfl | rfl | rfl
  case inr.inl => rfl
  all_goals exact absurd hb (by decide)

theorem State.Inv.status_of_busy (h : s.Inv) (hb : s.busy = true) : s.status = 0x00000001#32 :=
  eq_one_of_legal_of_busy h.status hb

theorem State.Inv.not_done_of_busy (h : s.Inv) (hb : s.busy = true) : s.done = false := by
  rw [State.done, h.status_of_busy hb]; rfl

/-- A launch from any legal STATUS gives 1. -/
theorem statusLaunched_of_legal {st : Word} (hl : statusLegal st = true) : statusLaunched st = 0x00000001#32 := by
  rcases statusLegal_iff.1 hl with rfl | rfl | rfl | rfl | rfl | rfl <;> decide

/-! ### Reset -/

/-- The registers and memories of the reset state meet the invariant with every parameters that 00_scope R3 allows. -/
theorem inv_reset {p : Params} (hp : p.valid = true) : ({ State.reset with params := p } : State).Inv where
  params := hp
  inWf := rfl
  inBelow := rfl
  outWf := rfl
  outBelow := rfl
  coefWf := rfl
  coefBelow := rfl
  lumaWf := rfl
  lumaBelow := rfl
  coefFinite := rfl
  lumaRange := rfl
  status := rfl
  pendingOfBusy := fun hb => absurd hb (show ¬ busyOf 0 = true by decide)
  launchedOfPending := fun hp => absurd hp Bool.false_ne_true
  closedOfObserved := fun _ => rfl

theorem inv_platformReset (h : s.Inv) : (platformReset s).Inv := { inv_reset h.params with }

/-! ### The Engine's writes -/

theorem inv_writeOut {n : Nat} {f : Nat → Option Byte} (h : s.Inv) (hn : n ≤ s.params.sampleBytes) :
    (writeOut n f s).Inv :=
  { h with
    outWf := Memory.wf_fill _ _ _ h.outWf
    outBelow := Memory.below_fill h.outBelow hn }

theorem inv_writeCoef {n : Nat} {k : Nat → DWord} (h : s.Inv) (hn : n ≤ s.params.coefEntries)
    (hk : ∀ i < n, isFinite64 (k i) = true) : (writeCoef n k s).Inv :=
  { h with
    coefWf := Memory.wf_fill _ _ _ h.coefWf
    coefBelow := Memory.below_fill h.coefBelow hn
    coefFinite := Memory.all_fill h.coefFinite fun i _ hi hv => Option.some.inj hv ▸ hk i hi }

theorem inv_writeLuma {n : Nat} {f : Nat → Option LumaWord} (h : s.Inv) (hn : n ≤ s.params.capPix)
    (hf : ∀ i v, f i = some v → v.toNat ≤ 765) : (writeLuma n f s).Inv :=
  { h with
    lumaWf := Memory.wf_fill _ _ _ h.lumaWf
    lumaBelow := Memory.below_fill h.lumaBelow hn
    lumaRange := Memory.all_fill (p := fun v : LumaWord => decide (v.toNat ≤ 765)) h.lumaRange
      fun i v _ hv => decide_eq_true (hf i v hv) }

/-! ### The life of a command -/

theorem inv_complete (h : s.Inv) (hb : s.busy = true) : (complete s).Inv :=
  { h with
    status := by rw [complete_status, h.status_of_busy hb]; decide
    pendingOfBusy := fun hb' => absurd hb' (by simp [State.busy])
    launchedOfPending := fun _ => .inr (doneOf_statusCompleted _) }

theorem inv_raiseInvalidParameter (e : ParamError) (h : s.Inv) (hb : s.busy = true) :
    (raiseInvalidParameter e s).Inv :=
  { h with
    status := by rw [raiseInvalidParameter_status, h.status_of_busy hb]; cases e <;> decide
    pendingOfBusy := fun hb' => absurd hb' (by simp [State.busy])
    launchedOfPending := fun _ => .inr (doneOf_statusFaulted _ _) }

/-- A checked command keeps the invariant when its writes do, its checks having passed. -/
theorem inv_runChecked {failed : Option ParamError} {run : State → State} (h : s.Inv) (hb : s.busy = true)
    (hst : (run s).status = s.status) (hrun : failed = none → (run s).Inv) : (runChecked failed run s).Inv := by
  rcases runChecked_cases failed run s with ⟨e, -, he⟩ | ⟨hc, he⟩ <;> rw [he]
  · exact inv_raiseInvalidParameter e h hb
  · exact inv_complete (hrun hc) (by rw [State.busy, hst]; exact hb)

/-- Putting a command in flight makes STATUS 1 and the command pending. -/
theorem inv_beginCommand (d : Descriptor) (h : s.Inv) : (beginCommand d s).Inv :=
  { h with
    status := by rw [beginCommand_status, statusLaunched_of_legal h.status]; decide
    pendingOfBusy := fun _ => rfl
    launchedOfPending := fun _ => .inl (busy_beginCommand d s)
    closedOfObserved := nofun }

/-! ### The commands -/

/-- A buffer that passes the geometry check fits into IN and OUT. -/
theorem bufferBytes_le_of_checkGeometry {p : Params} {w h : Word} (hc : checkGeometry p w h = none) :
    4 * w.toNat * h.toNat ≤ p.sampleBytes := by
  rw [Nat.mul_assoc]
  exact Nat.mul_le_mul_left 4 (checkGeometry_eq_none.1 hc)

/-- A kernel of a size up to KMAX fits into COEF. -/
theorem square_le_coefEntries {p : Params} {k : Nat} (hk : k ≤ p.kmax) : k * k ≤ p.coefEntries :=
  Nat.mul_le_mul hk hk

theorem five_le_kmax {p : Params} (hp : p.valid = true) : 5 ≤ p.kmax := by
  simp [Params.valid] at hp; omega

theorem lumaSum_le {i : Nat} {v : LumaWord} (h : lumaSum s i = some v) : v.toNat ≤ 765 := by
  unfold lumaSum at h
  split at h
  next r g b _ _ _ =>
    rw [← Option.some.inj h, BitVec.toNat_ofNat]
    omega
  next => exact absurd h (by simp)

theorem isFinite64_of_val64 {b : DWord} {q : ℚ} (h : val64 b = some q) : isFinite64 b = true := by
  unfold val64 at h
  split at h
  next hf => exact hf
  next => exact absurd h (by simp)

theorem exists_val64_of_sigmaValid {g : DWord} (h : sigmaValid g = true) : ∃ q, val64 g = some q := by
  simp only [sigmaValid, Bool.and_eq_true] at h
  obtain ⟨⟨-, hfinite⟩, -⟩ := h
  exact ⟨_, if_pos hfinite⟩

/-- Every word of a kernel within the contract is finite (41_kernel_generator R93). -/
theorem KernelContract.word_finite {k : Nat} {g : DWord} {w : Nat → DWord} (hw : KernelContract k g w)
    (hg : sigmaValid g = true) {i : Nat} (hi : i < k * k) : isFinite64 (w i) = true := by
  obtain ⟨σ, hσ⟩ := exists_val64_of_sigmaValid hg
  have hk : 0 < k := Nat.pos_of_mul_pos_left (Nat.zero_lt_of_lt hi)
  obtain ⟨q, hq, -⟩ := hw.accurate (i % k) (i / k) (Nat.mod_lt _ hk) (Nat.div_lt_of_lt_mul hi) σ hσ _ rfl
  rw [Nat.div_add_mod'] at hq
  exact isFinite64_of_val64 hq

theorem isFinite64_sharpenWeight (i : Nat) : isFinite64 (sharpenWeight i) = true := by
  unfold sharpenWeight; split <;> decide

theorem inv_generateKernel {k : Word} {g : DWord} (h : s.Inv) (hc : checkKernel s.params k g = none) :
    (generateKernel k.toNat g s).Inv := by
  obtain ⟨⟨hodd, hk⟩, hg⟩ := checkKernel_eq_none.1 hc
  exact inv_writeCoef h (square_le_coefEntries hk) fun _ hi => (Config.gaussKernel.contract _ _ hodd hg).word_finite hg hi

/-- Every command in flight keeps the invariant (20_memory R49, 46_dispatcher R174). -/
theorem inv_result {i : Instr} (h : s.Inv) (hi : s.busy = true ∨ i = .nolaunch) : (result i s).Inv := by
  rcases hi.symm with rfl | hb
  · exact h
  have hkmax := five_le_kmax h.params
  cases i with
  | identity | gray | unknown =>
    exact inv_runChecked h hb rfl fun hc => inv_writeOut h (bufferBytes_le_of_checkGeometry hc)
  | gaussian w d k g =>
    refine inv_runChecked h hb rfl fun hc => ?_
    obtain ⟨hgeom, hkern⟩ := Option.or_eq_none_iff.1 hc
    exact inv_writeOut (inv_generateKernel h hkern) (bufferBytes_le_of_checkGeometry hgeom)
  | box w d =>
    refine inv_runChecked h hb rfl fun hc => ?_
    exact inv_writeOut (inv_writeCoef h (square_le_coefEntries hkmax) fun _ _ => by decide)
      (bufferBytes_le_of_checkGeometry hc)
  | sharpen w d =>
    refine inv_runChecked h hb rfl fun hc => ?_
    exact inv_writeOut (inv_writeCoef h (square_le_coefEntries (k := 3) (by omega)) fun i _ => isFinite64_sharpenWeight i)
      (bufferBytes_le_of_checkGeometry hc)
  | edge w d =>
    refine inv_runChecked h hb rfl fun hc => ?_
    exact inv_writeOut (inv_writeLuma h (checkGeometry_eq_none.1 hc) fun _ _ => lumaSum_le)
      (bufferBytes_le_of_checkGeometry hc)
  | genk k g => exact inv_runChecked h hb rfl (inv_generateKernel h)
  | nolaunch => exact h

/-! ### The Host's accesses -/

theorem inv_regWrite (o n : Nat) (v : Word) (h : s.Inv) : (regWrite o n v s).Inv := by
  unfold regWrite
  split
  · split <;> exact { h with }
  · exact h

@[simp] theorem regWrite_params (o n : Nat) (v : Word) (s : State) : (regWrite o n v s).params = s.params := by
  unfold regWrite
  split
  · split <;> rfl
  · rfl

/-- A STATUS read that returns DONE = 1 closes every result; the Engine is idle then. -/
theorem inv_observeStatus (h : s.Inv) : (observeStatus s).Inv :=
  { h with
    pendingOfBusy := fun hb => by simp [h.pendingOfBusy hb, h.not_done_of_busy hb]
    launchedOfPending := fun hp => h.launchedOfPending (Bool.and_eq_true_iff.1 hp).1
    closedOfObserved := fun hp => by
      rw [observeStatus_earlier]
      split
      next => rfl
      next hd => exact h.closedOfObserved (by simpa [hd] using hp) }

theorem inv_hostRead (o n : Nat) (h : s.Inv) : (hostRead o n s).Inv := by
  unfold hostRead
  split
  · exact { inv_observeStatus h with }
  · exact { h with }

@[simp] theorem hostRead_params (o n : Nat) (s : State) : (hostRead o n s).params = s.params := by
  unfold hostRead; split <;> rfl

theorem inv_disturbResults (a : Nat) (h : s.Inv) : (disturbResults a s).Inv := by
  unfold disturbResults
  dsimp only
  split
  · exact { h with
      outWf := Memory.wf_fill _ _ _ h.outWf
      outBelow := Memory.below_fill h.outBelow (min_le_right _ _) }
  · exact h

theorem inv_disturb (a : Nat) (h : s.Inv) : (disturb a s).Inv := { inv_disturbResults a h with }

theorem inv_storeByte (a : Nat) (b : Byte) (h : s.Inv) : (storeByte a b s).Inv := by
  unfold storeByte
  split
  next ha =>
    exact { inv_disturb a h with
      inWf := Memory.wf_write _ _ _ h.inWf
      inBelow := by simpa using Memory.below_write h.inBelow ha }
  next => exact h

theorem inv_afterLoad (m : Samples) (a n : Nat) (got : List Byte) (h : s.Inv) : (afterLoad m a n got s).Inv := by
  cases n <;> exact { h with }

theorem inv_advance (t : Transfer) (h : s.Inv) : (advance t s).Inv := by
  cases t with
  | store a left =>
    cases left with
    | nil => exact { h with }
    | cons b left => exact { inv_storeByte a b h with }
  | load m a n got =>
    cases n with
    | zero => exact inv_afterLoad m a 0 got h
    | succ n => exact inv_afterLoad _ _ _ _ { h with }

@[simp] theorem advance_params (t : Transfer) (s : State) : (advance t s).params = s.params := by
  obtain ⟨-, -, -, -, -, -, -, -, -, -, -, -, -, hp, -⟩ := advance_keeps t s
  exact hp

/-! ### The next move -/

/-- What a step's move keeps: it starts from a state, or leads to one, that meets the invariant and has the parameters
`p`; a command that is run is in flight, or is "no launch". -/
def Turn.Keeps (p : Params) : Turn → Prop
  | .run i t => t.Inv ∧ t.params = p ∧ (t.busy = true ∨ i = .nolaunch)
  | .move t => t.Inv ∧ t.params = p

theorem keeps_engineTurn (h : s.Inv) : (engineTurn s).Keeps s.params := by
  cases hb : s.busy with
  | false => rw [engineTurn_of_idle hb]; exact ⟨h, rfl⟩
  | true => rw [engineTurn_of_busy hb]; exact ⟨h, rfl, .inl hb⟩

theorem keeps_ctrlTurn (v : Word) (h : s.Inv) : (ctrlTurn v s).Keeps s.params := by
  cases hb : s.busy with
  | true => rw [ctrlTurn_of_busy v hb]; exact ⟨h, rfl⟩
  | false =>
    rw [ctrlTurn_of_idle v hb]
    split
    · exact ⟨inv_beginCommand _ h, rfl⟩
    · split
      · exact ⟨inv_beginCommand _ h, rfl⟩
      · exact ⟨h, rfl, .inr rfl⟩

theorem keeps_hostTurn (op : HostOp) (h : s.Inv) : (hostTurn op s).Keeps s.params := by
  cases op with
  | wr o n v =>
    unfold hostTurn
    dsimp only
    split
    · exact keeps_ctrlTurn v h
    · exact ⟨inv_regWrite o n v h, regWrite_params o n v s⟩
  | rd o n => exact ⟨inv_hostRead o n h, hostRead_params o n s⟩
  | st m a bytes =>
    cases m with
    | input => exact ⟨inv_advance _ h, advance_params _ s⟩
    | output => exact ⟨h, rfl⟩
  | ld m a n => exact ⟨inv_advance _ h, advance_params _ s⟩
  | stCoef | wait => exact ⟨h, rfl⟩
  | ldCoef a n => exact ⟨{ h with }, rfl⟩
  | copyByte a => exact ⟨{ inv_advance (.load .output a 1 []) h with }, advance_params _ s⟩

theorem opTurn_of_ne_wait {op : HostOp} (rest : List Input) (s : State) (hw : op ≠ .wait) :
    opTurn op rest s = hostTurn op { s with inputs := rest } := by
  unfold opTurn
  split
  · exact absurd rfl hw
  · rfl

theorem keeps_waitTurn (rest : List Input) (h : s.Inv) : (waitTurn rest s).Keeps s.params := by
  unfold waitTurn
  split
  · exact ⟨inv_hostRead _ _ { h with }, hostRead_params ..⟩
  · exact keeps_engineTurn h

theorem keeps_opTurn (op : HostOp) (rest : List Input) (h : s.Inv) : (opTurn op rest s).Keeps s.params := by
  by_cases hw : op = .wait
  · rw [hw]; exact keeps_waitTurn rest h
  · rw [opTurn_of_ne_wait rest s hw]; exact keeps_hostTurn (s := { s with inputs := rest }) op { h with }

theorem keeps_turn (h : s.Inv) : (turn s).Keeps s.params := by
  unfold turn
  split
  next rest _ => exact keeps_engineTurn (s := { s with inputs := rest }) { h with }
  next => exact ⟨inv_platformReset { h with }, rfl⟩
  next rest _ =>
    unfold resumeTransfer
    split
    next t _ => exact ⟨inv_advance t { h with }, advance_params t _⟩
    next => exact ⟨{ h with }, rfl⟩
  next =>
    split
    next t _ => exact ⟨inv_advance t h, advance_params t s⟩
    next => exact keeps_engineTurn h
  next op rest _ =>
    split
    next t _ => exact ⟨inv_advance t h, advance_params t s⟩
    next => exact keeps_opTurn op rest h

/-- Settles O21: every operation keeps the invariant and the parameters, so every move and every command does. -/
theorem everyStepKeepsTheInvariant : Obligations.EveryStepKeepsTheInvariant := by
  intro s h
  have hk := keeps_turn h
  cases ht : turn s with
  | move t =>
    rw [ht] at hk
    exact ⟨t, step_of_move ht, hk⟩
  | run i t =>
    rw [ht] at hk
    obtain ⟨hinv, hp, hi⟩ := hk
    exact ⟨result i t, step_of_run ht, inv_result hinv hi, (commandKeeps_result i t).params.trans hp⟩

/-- Settles O20: every register is 0 and every memory empty, so only the parameters matter. -/
theorem resetMeetsTheInvariant : Obligations.ResetMeetsTheInvariant := by
  refine ⟨inv_reset (p := Config.defaults) (by decide), fun p hodd hmin => inv_reset ?_⟩
  simp [Params.valid, hodd, hmin]

end Sys2Proof.Machine
end

section
/-! `rne` and `isqrt` (00_scope R6, 42_convolution_engine R117). -/
namespace Sys2Proof.Machine

/-- Settles O35: with `f` the integer part and `r = q - f`, the three branches are `r` below, above and at 1/2. -/
theorem roundingIsToNearestTiesToEven : Obligations.RoundingIsToNearestTiesToEven := by
  intro q
  have h0 : 0 ≤ q - floorQ q := by linarith [floorQ_le q]
  have h1 : q - floorQ q < 1 := by linarith [lt_floorQ_add_one q]
  have hup : q - ((floorQ q + 1 : Int) : ℚ) = q - floorQ q - 1 := by push_cast; ring
  simp only [rne]
  split
  next hlt =>
    rw [abs_of_nonneg h0]
    exact ⟨hlt.le, fun he => absurd he hlt.ne⟩
  next hge =>
    split
    next hgt =>
      rw [hup, abs_of_neg (by linarith)]
      exact ⟨by linarith, fun he => absurd he (by linarith)⟩
    next hle =>
      have htie : q - floorQ q = 1 / 2 := by linarith
      split
      next heven => rw [htie]; exact ⟨by norm_num, fun _ => heven⟩
      next hodd => rw [hup, htie]; exact ⟨by norm_num, fun _ => by omega⟩

/-- The search for the root starts with a power of two above it. -/
theorem lt_isqrt_start_sq (n : Nat) : n < 2 ^ (n.log2 / 2 + 1) * 2 ^ (n.log2 / 2 + 1) := by
  rw [← pow_add]
  exact Nat.lt_log2_self.trans_le (Nat.pow_le_pow_right (by omega) (by omega))

/-- The root found and its successor enclose `n`. -/
theorem isqrt_spec (n : Nat) : isqrt n * isqrt n ≤ n ∧ n < (isqrt n + 1) * (isqrt n + 1) :=
  isqrtBits_spec n _ 0 (Nat.zero_le n) (by rw [Nat.zero_add]; exact lt_isqrt_start_sq n)

/-- Settles O37, from the two squares that enclose `n`. -/
theorem integerSquareRootIsGreatest : Obligations.IntegerSquareRootIsGreatest := by
  intro n
  obtain ⟨hle, hlt⟩ := isqrt_spec n
  exact ⟨hle, fun r hr => Nat.le_of_lt_succ (Nat.mul_self_lt_mul_self_iff.1 (hr.trans_lt hlt))⟩

end Sys2Proof.Machine
end

section
/-! Which command a step runs (00_scope R5, 46_dispatcher R173, 30_encoding R75, R80). -/
namespace Sys2Proof.Machine

theorem step_eq_exec {s t : State} {i : Instr} (h : turn s = .run i t) : step s = exec i t := by simp only [step, h]

/-- The Engine's move runs the command in flight. -/
theorem engineTurn_of_fetch {s : State} {i : Instr} (h : fetch s = some i) : engineTurn s = .run i s := by
  simp only [engineTurn, h]

/-- A WAIT whose DONE is not yet 1 lets the Engine move. -/
theorem waitTurn_of_not_done {s : State} (rest : List Input) (h : s.done = false) : waitTurn rest s = engineTurn s := by
  simp [waitTurn, h]

/-- A CTRL write that decodes to NOLAUNCH with the Engine idle runs it. -/
theorem ctrlTurn_of_nolaunch {s : State} {v : Word} (hb : s.busy = false) (h : decode (wordsAt v s) = .nolaunch) :
    ctrlTurn v s = .run .nolaunch s := by
  simp [ctrlTurn, hb, h]

theorem fetch_beginCommand (d : Descriptor) (s : State) : fetch (beginCommand d s) = some (decode d.words) := by
  simp [fetch]

/-- Only the launch word decides that nothing is launched. -/
theorem decode_eq_nolaunch_iff {c : CommandWords} :
    decode c = .nolaunch ↔ c.launch.getLsbD 0 = false ∧ c.launch.getLsbD 1 = false := by
  refine ⟨fun h => ?_, fun ⟨h0, h1⟩ => decode_of_neither h0 h1⟩
  cases h0 : c.launch.getLsbD 0 with
  | true => exact absurd (decode_of_start h0 ▸ h) (decodeFilter_ne c).1
  | false =>
    cases h1 : c.launch.getLsbD 1 with
    | true => exact absurd (decode_of_genk h0 h1 ▸ h) (by simp)
    | false => exact ⟨rfl, rfl⟩

/-- The parameter registers that hold the words of a command. -/
def registersOf (c : CommandWords) : State :=
  { State.reset with
    fsel := c.fsel, width := c.width, height := c.height, ksize := c.ksize, sigmaLo := c.sigmaLo,
    sigmaHi := c.sigmaHi }

theorem wordsAt_registersOf (c : CommandWords) : wordsAt c.launch (registersOf c) = c := rfl

theorem latched_registersOf (k : Kind) (c : CommandWords) : latched k (registersOf c) = descriptorOf c k := rfl

theorem decode_descriptorOf_filter {c : CommandWords} (h0 : c.launch.getLsbD 0 = true) :
    decode (descriptorOf c .filter).words = decode c := by
  rw [← latched_registersOf, decode_latched_filter _ h0, wordsAt_registersOf]

theorem decode_descriptorOf_generate {c : CommandWords} (h0 : c.launch.getLsbD 0 = false)
    (h1 : c.launch.getLsbD 1 = true) : decode (descriptorOf c .generate).words = decode c := by
  rw [← latched_registersOf, decode_latched_generate _ h0 h1, wordsAt_registersOf]

/-- A table word decodes as its seven words do. -/
theorem decodeTableWord_64 (w : Nat) : decodeTableWord 64 w = some (decode (tableWords 64 w)) := by
  simp [decodeTableWord, decodeBytes_bytesOfWords]

/-- `withFetchWord` places a NOLAUNCH word as the Host's next CTRL write, with the Engine idle. -/
theorem withFetchWord_of_nolaunch {n w : Nat} (s : State) (h : decode (tableWords n w) = .nolaunch) :
    s.withFetchWord n w =
      { s with
        fsel := (tableWords n w).fsel, status := withBit 0 false s.status,
        inputs := [.host (.wr 0x00 4 (tableWords n w).launch)], transfer := none } := by
  simp only [State.withFetchWord, h]

/-- `withFetchWord` places every other word in D, as in flight and with no move to come. -/
theorem withFetchWord_of_command {n w : Nat} (s : State) (h : decode (tableWords n w) ≠ .nolaunch) :
    ∃ d : Descriptor, decode d.words = decode (tableWords n w) ∧
      s.withFetchWord n w = { beginCommand d s with inputs := [], transfer := none } := by
  cases h0 : (tableWords n w).launch.getLsbD 0 with
  | true =>
    refine ⟨_, decode_descriptorOf_filter h0, ?_⟩
    obtain ⟨hnolaunch, hgenk⟩ := decodeFilter_ne (tableWords n w)
    rw [← decode_of_start h0] at hnolaunch hgenk
    unfold State.withFetchWord
    dsimp only
    split
    · exact absurd ‹_› hnolaunch
    · exact absurd ‹_› (hgenk _ _)
    · rfl
  | false =>
    cases h1 : (tableWords n w).launch.getLsbD 1 with
    | true =>
      refine ⟨_, decode_descriptorOf_generate h0 h1, ?_⟩
      simp only [State.withFetchWord, decode_of_genk h0 h1]
    | false => exact absurd (decode_eq_nolaunch_iff.2 ⟨h0, h1⟩) h

/-- A step from `withFetchWord` runs the command that the word decodes to; a NOLAUNCH word uses up the CTRL write. -/
theorem step_withFetchWord (s : State) (n w : Nat) :
    step (s.withFetchWord n w) = exec (decode (tableWords n w))
      (if decode (tableWords n w) = .nolaunch then { s.withFetchWord n w with inputs := [] }
        else s.withFetchWord n w) := by
  by_cases h : decode (tableWords n w) = .nolaunch
  · rw [if_pos h, h, withFetchWord_of_nolaunch s h]
    refine step_eq_exec ((turn_of_ctrl rfl rfl).trans (ctrlTurn_of_nolaunch ?_ ?_))
    · rw [State.busy, busyOf, getLsbD_withBit (by omega), if_pos rfl]
    · exact decode_eq_nolaunch_iff.2 ((decode_eq_nolaunch_iff (c := tableWords n w)).1 h)
  · obtain ⟨d, hd, hs⟩ := withFetchWord_of_command s h
    rw [if_neg h, ← hd, hs]
    exact step_eq_exec ((turn_of_nil rfl rfl).trans (engineTurn_of_fetch (fetch_beginCommand d s)))

/-- Settles O6, one clause for each kind of move that runs a command. -/
theorem stepRunsTheFetchedCommand : Obligations.StepRunsTheFetchedCommand := by
  refine ⟨fun s i hf => ⟨fun ht hin => ?_, fun rest hin => ?_, fun rest ht hin hd => ?_⟩, fun s v rest hb ht hin hv => ?_,
    fun s w i _ hi => ?_⟩
  · exact step_eq_exec ((turn_of_nil ht hin).trans (engineTurn_of_fetch hf))
  · exact step_eq_exec ((turn_of_engine hin).trans (engineTurn_of_fetch hf))
  · exact step_eq_exec ((turn_of_wait ht hin).trans ((waitTurn_of_not_done rest hd).trans (engineTurn_of_fetch hf)))
  · exact step_eq_exec ((turn_of_ctrl ht hin).trans (ctrlTurn_of_nolaunch hb hv))
  · obtain rfl : decode (tableWords 64 w) = i := Option.some.inj ((decodeTableWord_64 w).symm.trans hi)
    exact step_withFetchWord s 64 w

/-- Settles O16: an idle Engine's move leaves the state at which it is made. -/
theorem idleEngineHasNoStep : Obligations.IdleEngineHasNoStep := by
  refine fun s hb => ⟨fun ht hin => ?_, fun rest hin => ?_⟩
  · exact step_of_move ((turn_of_nil ht hin).trans (engineTurn_of_idle hb))
  · exact step_of_move ((turn_of_engine hin).trans (engineTurn_of_idle hb))

end Sys2Proof.Machine
end

section
/-! The Host's accesses to the registers, OUT and COEF, and its reads (10_state R14 to R26, R30; 20_memory R47, R48). -/
namespace Sys2Proof.Machine
variable {s : State}

/-! ### Registers -/

/-- The parameter register at `offset` after a write of `n` bytes at `o`: it holds the value when that is a 32-bit write
to its own offset. -/
def paramAfterWrite (offset o n : Nat) (v old : Word) : Word := if n = 4 ∧ o = offset then v else old

/-- What a register write does: it may change the six parameter registers, and nothing else (10_state R14). -/
theorem regWrite_eq (o n : Nat) (v : Word) (s : State) : regWrite o n v s =
    { s with
      fsel := paramAfterWrite 0x08 o n v s.fsel
      width := paramAfterWrite 0x0C o n v s.width
      height := paramAfterWrite 0x10 o n v s.height
      ksize := paramAfterWrite 0x14 o n v s.ksize
      sigmaLo := paramAfterWrite 0x18 o n v s.sigmaLo
      sigmaHi := paramAfterWrite 0x1C o n v s.sigmaHi } := by
  unfold regWrite
  split
  next hn => subst hn; split <;> simp_all [paramAfterWrite]
  next hn => simp [paramAfterWrite, hn]

/-- A read of CTRL, of a reserved offset or of another width gives 0 (10_state R15, R22). -/
theorem regRead_of_no_register {o n : Nat} (h : n ≠ 4 ∨ o ∉ [0x04, 0x08, 0x0C, 0x10, 0x14, 0x18, 0x1C]) :
    regRead o n s = 0 := by
  unfold regRead
  split
  next hn =>
    have ho := h.resolve_left (not_not_intro hn)
    split
    case h_8 => rfl
    all_goals simp at ho
  next => rfl

/-- A write to STATUS, to CTRL, to a reserved offset or of another width stores nothing (10_state R16, R22). -/
theorem regWrite_of_no_parameter {o n : Nat} (v : Word) (h : n ≠ 4 ∨ o ∉ [0x08, 0x0C, 0x10, 0x14, 0x18, 0x1C]) :
    regWrite o n v s = s := by
  unfold regWrite
  split
  next hn =>
    have ho := h.resolve_left (not_not_intro hn)
    split
    case h_7 => rfl
    all_goals simp at ho
  next => rfl

theorem regRead_regWrite_same {o : Nat} (v : Word) (ho : o ∈ [0x08, 0x0C, 0x10, 0x14, 0x18, 0x1C]) :
    regRead o 4 (regWrite o 4 v s) = v := by
  simp only [List.mem_cons, List.not_mem_nil, or_false] at ho
  rcases ho with rfl | rfl | rfl | rfl | rfl | rfl <;> rfl

theorem regRead_regWrite_of_ne {o o' : Nat} (v : Word) (h : o' ≠ o) :
    regRead o' 4 (regWrite o 4 v s) = regRead o' 4 s := by
  by_cases ho : o' ∈ [0x04, 0x08, 0x0C, 0x10, 0x14, 0x18, 0x1C]
  · rw [regWrite_eq]
    simp only [List.mem_cons, List.not_mem_nil, or_false] at ho
    rcases ho with rfl | rfl | rfl | rfl | rfl | rfl | rfl <;> simp [regRead, paramAfterWrite, h.symm]
  · rw [regRead_of_no_register (.inr ho), regRead_of_no_register (.inr ho)]

/-- Settles O22: the write is `regWrite` at the state with the move used up. -/
theorem parameterRegistersReadBack : Obligations.ParameterRegistersReadBack := by
  intro s o v rest ho ht hin
  have hctrl : o ≠ 0x00 := by rintro rfl; simp at ho
  refine ⟨_, step_of_write ht hin hctrl, regRead_regWrite_same v ho, fun o' h => regRead_regWrite_of_ne v h, ?_⟩
  rw [regWrite_eq]
  exact ⟨rfl, rfl, rfl, rfl, rfl, rfl, rfl, rfl, rfl, rfl, rfl, rfl, rfl, rfl, rfl⟩

/-- A Host transaction that `hostTurn` answers with a move is that step. -/
theorem step_of_host {op : HostOp} {rest : List Input} {t : State} (ht : s.transfer = none)
    (hin : s.inputs = .host op :: rest) (hw : op ≠ .wait) (h : hostTurn op { s with inputs := rest } = .move t) :
    step s = .next t :=
  step_of_move ((turn_of_host ht hin hw).trans h)

/-- Settles O26: `hostTurn` leaves the state at both kinds of write. -/
theorem hostWritesToOutAndCoefAreIgnored : Obligations.HostWritesToOutAndCoefAreIgnored := by
  rintro s i bs rest op (rfl | rfl) ht hin
  · exact step_of_host ht hin nofun rfl
  · exact step_of_host ht hin nofun rfl

/-- A register read records what `regRead` gives; an observed DONE = 1 may end what is pending. -/
theorem hostRead_eq (o n : Nat) (s : State) : ∃ p e, hostRead o n s =
    { s with replies := .word (regRead o n s) :: s.replies, pending := p, earlier := e } := by
  unfold hostRead
  split
  next h => obtain ⟨rfl, rfl⟩ := h; exact ⟨_, _, rfl⟩
  next => exact ⟨_, _, rfl⟩

/-- A read of no register records 0 and changes nothing else. -/
theorem hostRead_of_no_register {o n : Nat} (h : n ≠ 4 ∨ o ∉ [0x04, 0x08, 0x0C, 0x10, 0x14, 0x18, 0x1C]) :
    hostRead o n s = { s with replies := .word 0 :: s.replies } := by
  have hstatus : ¬ (n = 4 ∧ o = 0x04) := by rintro ⟨rfl, rfl⟩; simp at h
  rw [hostRead, if_neg hstatus, regRead_of_no_register h]
  rfl

/-- Settles O23, by what `regWrite` and `hostRead` do where there is no register to write or to read. -/
theorem otherRegisterAccessesHaveNoEffect : Obligations.OtherRegisterAccessesHaveNoEffect := by
  refine ⟨fun s v rest ht hin => ?_, fun s o n v rest h ht hin => ?_, fun s o n rest h ht hin => ?_⟩
  · rw [step_of_write ht hin (by decide), regWrite_of_no_parameter v (.inr (by decide))]
  · have hctrl : ¬ (n = 4 ∧ o = 0x00) := by rintro ⟨rfl, rfl⟩; simp at h
    have hparam : n ≠ 4 ∨ o ∉ [0x08, 0x0C, 0x10, 0x14, 0x18, 0x1C] :=
      h.imp_right fun ho hmem => ho (.tail _ (.tail _ hmem))
    refine step_of_host ht hin nofun ?_
    rw [hostTurn, if_neg hctrl, regWrite_of_no_parameter v hparam]
  · refine step_of_host ht hin nofun ?_
    rw [hostTurn, hostRead_of_no_register h]

/-! ### Reset -/

theorem regRead_reset (o : Nat) : regRead o 4 State.reset = 0 := by
  by_cases ho : o ∈ [0x04, 0x08, 0x0C, 0x10, 0x14, 0x18, 0x1C]
  · simp only [List.mem_cons, List.not_mem_nil, or_false] at ho
    rcases ho with rfl | rfl | rfl | rfl | rfl | rfl | rfl <;> rfl
  · exact regRead_of_no_register (.inr ho)

/-- Settles O17: the reset state lists no memory entry, so each reads as its unspecified contents. -/
theorem resetLeavesRegistersZeroAndMemoriesUndefined :
    Obligations.ResetLeavesRegistersZeroAndMemoriesUndefined :=
  ⟨rfl, rfl, rfl, rfl, rfl, rfl, rfl, regRead_reset, rfl, fun _ => ⟨rfl, rfl, rfl, rfl⟩, fun _ => ⟨rfl, rfl, rfl⟩⟩

/-! ### Reads -/

/-- The Host's side of the state is no part of the PFE: its moves, its access in progress, what it has read and what it
waits for, and the draw counter. -/
theorem samePfe_hostSide (s : State) (l : List Input) (x : Option Transfer) (r : List Reply) (p : Bool) (e : List Nat)
    (d : Nat) :
    SamePfe s { s with inputs := l, transfer := x, replies := r, pending := p, earlier := e, draws := d } :=
  ⟨rfl, rfl, rfl, rfl, rfl, rfl, rfl, rfl, rfl, rfl, rfl, rfl, rfl, rfl⟩

/-- The bytes that a read of `n` bytes of a sample memory records when nothing happens between them. -/
def loadedBytes (m : Samples) (i n : Nat) (s : State) : List Byte :=
  (List.range n).map fun k => (loadByte m (i + k) s).getD (Config.anyByte (s.draws + k) 0)

/-- The first byte is read now, the others after one draw. -/
theorem loadedBytes_succ (m : Samples) (i n : Nat) (s : State) :
    loadedBytes m i (n + 1) s = readByte m i s :: loadedBytes m (i + 1) n { s with draws := s.draws + 1 } := by
  simp only [loadedBytes, List.range_succ_eq_map, List.map_cons, List.map_map]
  congr 1
  refine List.map_congr_left fun k _ => ?_
  simp only [Function.comp, Nat.succ_eq_add_one, Nat.add_comm k, Nat.add_assoc]
  rfl

theorem hostContinues_of_hostNext {l : List Input} (h : HostNext l) : HostContinues l := by
  rcases h with rfl | ⟨op, r, rfl⟩ <;> trivial

theorem afterByte_of_hostNext {l : List Input} (h : HostNext l) : afterByte l = l := by
  rcases h with rfl | ⟨op, r, rfl⟩ <;> rfl

/-- The state in which a read of `n` more bytes ends, with `got` read before them and the moves `l` to come. -/
def loadEnd (m : Samples) (i n : Nat) (got : List Byte) (l : List Input) (s : State) : State :=
  { s with
    inputs := l, transfer := none, draws := s.draws + n,
    replies := .bytes (got ++ loadedBytes m i n s) :: s.replies }

/-- A read ends where it would end from the state after its next byte. -/
theorem loadEnd_succ (m : Samples) (i n : Nat) (got : List Byte) (l : List Input) (s : State) :
    loadEnd m i (n + 2) got l s = loadEnd m (i + 1) (n + 1) (got ++ [readByte m i s]) l
      (advance (.load m i (n + 2) got) { s with inputs := l }) := by
  have hbytes := loadedBytes_succ m i (n + 1) s
  have hdraws : s.draws + (n + 2) = s.draws + 1 + (n + 1) := by omega
  rw [loadEnd, hbytes, List.append_cons, hdraws]
  rfl

/-- A read that no other agent interrupts takes one step for each byte (20_memory R47, R48). -/
theorem run_of_nextLoad {m : Samples} {l : List Input} (hl : HostNext l) (n : Nat) :
    ∀ {s : State} {i : Nat} {got : List Byte}, NextLoad s m i (n + 1) got l →
      core.run (n + 1) s = .next (loadEnd m i (n + 1) got l s) := by
  induction n with
  | zero =>
    intro s i got h
    rw [core_run_succ 0 (step_of_nextLoad h), loadEnd, loadedBytes_succ]
    rfl
  | succ n ih =>
    intro s i got h
    rw [core_run_succ (n + 1) (step_of_nextLoad h), loadEnd_succ]
    exact ih (.inr ⟨rfl, hostContinues_of_hostNext hl, afterByte_of_hostNext hl⟩)

/-- A read of no byte ends at its first step, every other read after one step for each byte. -/
theorem run_of_hostLoad {m : Samples} {i n : Nat} {rest : List Input} (ht : s.transfer = none)
    (hin : s.inputs = .host (.ld m i n) :: rest) (hrest : HostNext rest) :
    core.run (max 1 n) s = .next (loadEnd m i n [] rest s) := by
  have hnext : NextLoad s m i n [] rest := .inl ⟨ht, rfl, hin⟩
  cases n with
  | zero => exact core_run_succ 0 (step_of_nextLoad hnext)
  | succ n =>
    rw [Nat.max_eq_right (Nat.le_add_left 1 n)]
    exact run_of_nextLoad hrest n hnext

/-- Settles O24, one clause for each kind of read and one for what the eight registers read as. -/
theorem hostReadsChangeNoPfeState : Obligations.HostReadsChangeNoPfeState := by
  refine ⟨fun s o n rest ht hin => ?_, fun s => rfl, fun s i n rest ht hin => ?_, fun s m i n rest ht hin hrest => ?_⟩
  · obtain ⟨p, e, hread⟩ := hostRead_eq o n { s with inputs := rest }
    refine ⟨_, step_of_host ht hin nofun (congrArg Turn.move hread), samePfe_hostSide .., rfl, rfl, ht, rfl⟩
  · exact ⟨_, step_of_host ht hin nofun rfl, samePfe_hostSide .., rfl, rfl, ht, rfl, rfl, rfl⟩
  · exact ⟨_, run_of_hostLoad ht hin hrest, samePfe_hostSide .., rfl, rfl, rfl, rfl, rfl, rfl⟩

end Sys2Proof.Machine
end

section
/-! The rational value of a binary64 word (10_state R27). -/
namespace Sys2Proof.Machine

theorem val64_of_not_finite {b : DWord} (h : biasedExp b = 0x7FF) : val64 b = none := by
  simp [val64, isFinite64, h]

/-- A finite word's value is its sign times its magnitude. -/
theorem val64_of_finite {b : DWord} (h : biasedExp b ≠ 0x7FF) :
    val64 b = some ((if signBit b then -1 else 1) * magnitude64 b) := by
  have hfinite : isFinite64 b = true := bne_iff_ne.2 h
  rw [val64, if_pos hfinite]
  split <;> simp

theorem magnitude64_of_normal {b : DWord} (h : biasedExp b ≠ 0) :
    magnitude64 b = (2 : ℚ) ^ ((biasedExp b : Int) - 1075) * (2 ^ 52 + fraction b) := by
  rw [magnitude64, if_neg h, scaleTwo_eq]
  push_cast
  ring

theorem magnitude64_of_subnormal {b : DWord} (h : biasedExp b = 0) :
    magnitude64 b = (2 : ℚ) ^ (-1074 : Int) * fraction b := by
  rw [magnitude64, if_pos h, scaleTwo_eq, mul_comm]

/-- Settles O33: infinities and NaNs, normal words, and words with exponent field 0. -/
theorem binaryWordValue : Obligations.BinaryWordValue := by
  intro b
  have hfinite (h : biasedExp b ≤ 0x7FE) : biasedExp b ≠ 0x7FF := by omega
  refine ⟨val64_of_not_finite, fun hlow hhigh => ?_, fun hzero => ?_⟩
  · have hnormal : biasedExp b ≠ 0 := Nat.one_le_iff_ne_zero.1 hlow
    rw [val64_of_finite (hfinite hhigh), magnitude64_of_normal hnormal, ← mul_assoc]
    rfl
  · have hsmall : biasedExp b ≤ 0x7FE := hzero.trans_le (Nat.zero_le _)
    rw [val64_of_finite (hfinite hsmall), magnitude64_of_subnormal hzero, ← mul_assoc]
    rfl

end Sys2Proof.Machine
end

section
/-! The Host's accesses to IN, OUT and COEF, byte by byte (10_state R24, 20_memory R46 to R48, R51). -/
namespace Sys2Proof.Machine
variable {s : State}

/-! ### Accesses in progress -/

/-- The Engine's move keeps the Host's access in progress and the moves to come. -/
theorem step_of_engine {rest : List Input} (h : s.inputs = .engine :: rest) :
    ∃ t, step s = .next t ∧ t.transfer = s.transfer ∧ t.inputs = rest := by
  have hturn := turn_of_engine h
  cases hb : s.busy with
  | false =>
    rw [engineTurn_of_idle (s := { s with inputs := rest }) hb] at hturn
    exact ⟨_, step_of_move hturn, rfl, rfl⟩
  | true =>
    rw [engineTurn_of_busy (s := { s with inputs := rest }) hb] at hturn
    have hkeeps := commandKeeps_result (decode s.desc.words) { s with inputs := rest }
    exact ⟨_, step_of_run hturn, hkeeps.transfer, hkeeps.inputs⟩

theorem step_of_reset {rest : List Input} (h : s.inputs = .reset :: rest) :
    step s = .next (platformReset { s with inputs := rest }) :=
  step_of_move (turn_of_reset h)

/-- A transaction of the Host stays the next one while an access is in progress. -/
theorem step_of_waiting_op {x : Transfer} {op : HostOp} {rest : List Input} (ht : s.transfer = some x)
    (h : s.inputs = .host op :: rest) : step s = .next (advance x s) := by
  have hcont : HostContinues s.inputs := by rw [h]; trivial
  have hsame : afterByte s.inputs = s.inputs := by rw [h]; rfl
  exact step_of_move (by rw [turn_of_transfer ht hcont, hsame])

theorem advance_inputs (x : Transfer) (s : State) : (advance x s).inputs = s.inputs := (advance_keeps x s).1

/-- Settles O25: the byte of a read, the other agents' moves, and the transaction that waits. -/
theorem wideAccessesAreNotAtomic : Obligations.WideAccessesAreNotAtomic := by
  refine ⟨fun s m i n got l h => ?_, fun s rest h => ?_, fun s x op rest ht h => ?_⟩
  · have hpfe : SamePfe s (advance (.load m i (n + 1) got) { s with inputs := l }) :=
      samePfe_advance_load m i (n + 1) got { s with inputs := l }
    refine ⟨_, step_of_nextLoad h, hpfe, ?_, ?_, ?_, fun hn => ?_, fun hn => ?_⟩
    · rw [advance_inputs]
    · simp [advance]
    · simp [advance]
    · subst hn; exact ⟨rfl, rfl⟩
    · obtain ⟨k, rfl⟩ := Nat.exists_eq_succ_of_ne_zero hn; exact ⟨rfl, rfl⟩
  · rcases h with h | h
    · exact step_of_engine h
    · exact ⟨_, step_of_reset h, rfl, rfl⟩
  · exact ⟨_, step_of_waiting_op ht h, advance_inputs x s⟩

/-! ### Writes to IN -/

/-- What the bytes of a write to IN keep: every register, D, COEF, LUMA and, with no command pending, OUT and the mark
of a disturbed command. -/
structure StoreKeeps (s t : State) : Prop where
  pfe : SamePfe s { t with inMem := s.inMem, outMem := s.outMem }
  pending : t.pending = s.pending
  outMem : s.pending = false → t.outMem = s.outMem
  race : s.pending = false → t.race = s.race

theorem StoreKeeps.refl (s : State) : StoreKeeps s s := ⟨samePfe_hostSide .., rfl, fun _ => rfl, fun _ => rfl⟩

theorem StoreKeeps.trans {t u : State} (h : StoreKeeps s t) (g : StoreKeeps t u) : StoreKeeps s u where
  pfe := by
    obtain ⟨h1, h2, h3, h4, h5, h6, h7, h8, -, -, h11, h12, h13, h14⟩ := h.pfe
    obtain ⟨g1, g2, g3, g4, g5, g6, g7, g8, -, -, g11, g12, g13, g14⟩ := g.pfe
    exact ⟨g1.trans h1, g2.trans h2, g3.trans h3, g4.trans h4, g5.trans h5, g6.trans h6, g7.trans h7, g8.trans h8, rfl, rfl,
      g11.trans h11, g12.trans h12, g13.trans h13, g14.trans h14⟩
  pending := g.pending.trans h.pending
  outMem hp := (g.outMem (h.pending.trans hp)).trans (h.outMem hp)
  race hp := (g.race (h.pending.trans hp)).trans (h.race hp)

/-- With no command pending a write to IN changes the byte alone. -/
theorem storeByte_of_not_pending (i : Nat) (b : Byte) (h : s.pending = false) :
    storeByte i b s = { s with inMem := (storeByte i b s).inMem } := by
  unfold storeByte
  rw [disturb_of_not_pending i h]
  split <;> rfl

theorem storeKeeps_storeByte (i : Nat) (b : Byte) (s : State) : StoreKeeps s (storeByte i b s) where
  pfe := by simp [SamePfe]
  pending := storeByte_pending s i b
  outMem hp := by rw [storeByte_of_not_pending i b hp]
  race hp := by rw [storeByte_of_not_pending i b hp]

theorem storeByte_of_le {i : Nat} (b : Byte) (h : s.params.sampleBytes ≤ i) : storeByte i b s = s :=
  if_neg (Nat.not_lt.2 h)

/-- A write to IN neither reads nor changes the moves to come and the access in progress. -/
theorem storeByte_hostSide (i : Nat) (b : Byte) (s : State) (l : List Input) (x : Option Transfer) :
    storeByte i b { s with inputs := l, transfer := x } = { storeByte i b s with inputs := l, transfer := x } := by
  have hopen : openResults { s with inputs := l, transfer := x } = openResults s := rfl
  unfold storeByte disturb disturbResults
  simp only [hopen]
  split
  · split <;> rfl
  · rfl

/-- The writes of `bytes` to IN from `index` up, one after the other. -/
def storeBytes (index : Nat) : List Byte → State → State
  | [], s => s
  | b :: left, s => storeBytes (index + 1) left (storeByte index b s)

theorem storeBytes_hostSide (i : Nat) (bs : List Byte) (s : State) (l : List Input) (x : Option Transfer) :
    storeBytes i bs { s with inputs := l, transfer := x } = { storeBytes i bs s with inputs := l, transfer := x } := by
  induction bs generalizing i s with
  | nil => rfl
  | cons b left ih => rw [storeBytes, storeByte_hostSide, ih, storeBytes]

theorem storeBytes_params (i : Nat) (bs : List Byte) (s : State) : (storeBytes i bs s).params = s.params := by
  induction bs generalizing i s with
  | nil => rfl
  | cons b left ih => rw [storeBytes, ih, storeByte_params]

theorem storeKeeps_storeBytes (i : Nat) (bs : List Byte) (s : State) : StoreKeeps s (storeBytes i bs s) := by
  induction bs generalizing i s with
  | nil => exact StoreKeeps.refl s
  | cons b left ih => exact (storeKeeps_storeByte i b s).trans (ih (i + 1) (storeByte i b s))

/-- IN after a write of `bytes` from `index` up: their bytes where the space has them, and the rest as before. -/
theorem inByte_storeBytes (i : Nat) (bs : List Byte) (s : State) (a : Nat) :
    (storeBytes i bs s).inByte a =
      if i ≤ a ∧ a < s.params.sampleBytes then (bs[a - i]?).getD (s.inByte a) else s.inByte a := by
  induction bs generalizing i s with
  | nil => simp [storeBytes]
  | cons b left ih =>
    rw [storeBytes, ih, inByte_storeByte, storeByte_params]
    rcases Nat.lt_trichotomy a i with hlt | rfl | hgt
    · rw [if_neg (by omega), if_neg (by omega), if_neg (by omega)]
    · rw [if_neg (by omega)]; simp
    · obtain ⟨k, hk⟩ : ∃ k, a - i = k + 1 := ⟨a - i - 1, by omega⟩
      have hk' : a - (i + 1) = k := by omega
      have hne : ¬ (a = i ∧ i < s.params.sampleBytes) := by omega
      have hiff : (i + 1 ≤ a ∧ a < s.params.sampleBytes) ↔ (i ≤ a ∧ a < s.params.sampleBytes) := by omega
      rw [hk, hk', if_neg hne, List.getElem?_cons_succ]
      simp only [hiff]

/-- Inside the buffer written, IN holds the bytes written. -/
theorem inByte_storeBytes_of_getElem? {i a : Nat} {bs : List Byte} {b : Byte} (ha : a < s.params.sampleBytes) (hi : i ≤ a)
    (hb : bs[a - i]? = some b) : (storeBytes i bs s).inByte a = b := by
  rw [inByte_storeBytes, if_pos ⟨hi, ha⟩, hb]; rfl

/-- Outside the range written, IN is as before. -/
theorem inByte_storeBytes_of_outside {i a : Nat} {bs : List Byte} (h : a < i ∨ i + bs.length ≤ a) :
    (storeBytes i bs s).inByte a = s.inByte a := by
  rw [inByte_storeBytes]
  split
  next hin => rw [List.getElem?_eq_none (by omega)]; rfl
  next => rfl

/-- The range written reads as the bytes written. -/
theorem loadByte_storeBytes {i : Nat} {bs : List Byte} (h : i + bs.length ≤ s.params.sampleBytes) :
    ((List.range bs.length).map fun k => loadByte .input (i + k) (storeBytes i bs s)) = bs.map some := by
  refine List.ext_getElem (by simp) fun k hk _ => ?_
  have hk : k < bs.length := by simpa using hk
  have hin : i + k < s.params.sampleBytes := by omega
  have hbyte : bs[i + k - i]? = some bs[k] := by rw [Nat.add_sub_cancel_left, List.getElem?_eq_getElem hk]
  have hload : loadByte .input (i + k) (storeBytes i bs s) = some ((storeBytes i bs s).inByte (i + k)) :=
    if_pos (by rw [storeBytes_params]; exact hin)
  simp only [List.getElem_map, List.getElem_range, hload,
    inByte_storeBytes_of_getElem? hin (Nat.le_add_right i k) hbyte]

/-- The step of the next byte of a write, as its beginning or inside it. -/
theorem step_of_nextStore_cons {i : Nat} {b : Byte} {bs : List Byte} {l : List Input} (h : NextStore s i (b :: bs) l) :
    step s = .next { storeByte i b s with inputs := l, transfer := storeRest (i + 1) bs } := by
  rw [step_of_nextStore h]
  exact congrArg (fun t => Host.Outcome.next { t with transfer := storeRest (i + 1) bs })
    (storeByte_hostSide i b s l s.transfer)

/-- A write that no other agent interrupts takes one step for each byte (20_memory R47, R48). -/
theorem run_of_nextStore {l : List Input} (hl : HostNext l) (bs : List Byte) :
    ∀ {s : State} {i : Nat} {b : Byte}, NextStore s i (b :: bs) l →
      core.run (bs.length + 1) s = .next { storeBytes i (b :: bs) s with inputs := l, transfer := none } := by
  induction bs with
  | nil =>
    intro s i b h
    exact core_run_succ 0 (step_of_nextStore_cons h)
  | cons c bs ih =>
    intro s i b h
    have hnext : NextStore { storeByte i b s with inputs := l, transfer := storeRest (i + 1) (c :: bs) } (i + 1) (c :: bs) l :=
      .inr ⟨rfl, hostContinues_of_hostNext hl, afterByte_of_hostNext hl⟩
    rw [List.length_cons, core_run_succ (bs.length + 1) (step_of_nextStore_cons h), ih hnext, storeBytes_hostSide]
    rfl

/-- A write of no byte ends at its first step, every other write after one step for each byte. -/
theorem run_of_hostStore {i : Nat} {bs : List Byte} {rest : List Input} (ht : s.transfer = none)
    (hin : s.inputs = .host (.st .input i bs) :: rest) (hrest : HostNext rest) :
    core.run (max 1 bs.length) s = .next { storeBytes i bs s with inputs := rest, transfer := none } := by
  have hnext : NextStore s i bs rest := .inl ⟨ht, hin⟩
  cases bs with
  | nil => exact core_run_succ 0 (step_of_nextStore hnext)
  | cons b bs =>
    rw [List.length_cons, Nat.max_eq_right (Nat.le_add_left 1 bs.length)]
    exact run_of_nextStore hrest bs hnext

theorem storeRest_eq (i : Nat) (bs : List Byte) : storeRest i bs = if bs = [] then none else some (.store i bs) := by
  cases bs <;> rfl

/-- Settles O27: one byte is `storeByte`, a whole write `storeBytes`. -/
theorem inputStoreThenLoad : Obligations.InputStoreThenLoad := by
  refine ⟨fun s i b bs l h => ?_, fun s i bs rest ht hin hrest => ?_⟩
  · have hkeeps := storeKeeps_storeByte i b s
    refine ⟨_, step_of_nextStore_cons h, fun hi => ?_, fun hi => ?_, fun a ha => ?_, hkeeps.pfe,
      fun hp => ⟨hkeeps.outMem hp, hkeeps.race hp⟩, rfl, storeRest_eq (i + 1) bs, storeByte_replies s i b⟩
    · exact (inByte_storeByte i b s i).trans (if_pos ⟨rfl, hi⟩)
    · rw [storeByte_of_le b hi]; exact samePfe_hostSide ..
    · exact (inByte_storeByte i b s a).trans (if_neg fun h => ha h.1)
  · have hkeeps := storeKeeps_storeBytes i bs s
    exact ⟨_, run_of_hostStore ht hin hrest, fun a ha hi b hb => inByte_storeBytes_of_getElem? ha hi hb,
      fun a ha => inByte_storeBytes_of_outside ha, fun hspace => loadByte_storeBytes hspace, hkeeps.pfe,
      fun hp => ⟨hkeeps.outMem hp, hkeeps.race hp⟩, rfl, rfl⟩

/-! ### Reads of COEF -/

/-- The byte below a range of an entry's bytes makes the range one byte longer. -/
theorem extractLsb'_append_byteOfEntry (e : DWord) (n j : Nat) :
    e.extractLsb' (8 * (j + 1)) n ++ byteOfEntry e j = e.extractLsb' (8 * j) (n + 8) :=
  BitVec.extractLsb'_append_extractLsb'_eq_extractLsb' rfl

/-- The eight bytes of a COEF entry give it back, byte 0 the low one. -/
theorem append_byteOfEntry (e : DWord) :
    byteOfEntry e 7 ++ byteOfEntry e 6 ++ byteOfEntry e 5 ++ byteOfEntry e 4 ++ byteOfEntry e 3 ++ byteOfEntry e 2 ++
      byteOfEntry e 1 ++ byteOfEntry e 0 = e := by
  have grow := extractLsb'_append_byteOfEntry e
  have top : byteOfEntry e 7 = e.extractLsb' (8 * (6 + 1)) 8 := rfl
  rw [top, grow _ 6, grow _ 5, grow _ 4, grow _ 3, grow _ 2, grow _ 1, grow _ 0]
  exact BitVec.extractLsb'_eq_self

/-- With no command pending a COEF access that 20_memory R47 gives reads bytes of the entry that stands there. -/
theorem coefBytes_of_access {i n : Nat} (hp : s.pending = false) (ha : coefAccess s.params i n = true) :
    coefBytes i n s = (List.range n).map fun k => byteOfEntry (s.coefEntry (i / 8)) (i % 8 + k) := by
  simp [coefBytes, coefByte, hp, ha]

/-- Every other COEF read gives free values. -/
theorem coefBytes_of_not_access {i n : Nat} (h : s.pending = true ∨ coefAccess s.params i n = false) :
    coefBytes i n s = (List.range n).map fun k => Config.anyByte s.draws k := by
  rcases h with h | h <;> simp [coefBytes, coefByte, h]

theorem coefAccess_word {p : Params} {i : Nat} (hi : i < p.coefEntries) : coefAccess p (8 * i) 8 = true := by
  simp [coefAccess, hi]

theorem coefAccess_lowHalf {p : Params} {i : Nat} (hi : i < p.coefEntries) : coefAccess p (8 * i) 4 = true := by
  have h4 : 8 * i % 4 = 0 := by omega
  simp [coefAccess, hi, h4]

theorem coefAccess_highHalf {p : Params} {i : Nat} (hi : i < p.coefEntries) : coefAccess p (8 * i + 4) 4 = true := by
  have h4 : (8 * i + 4) % 4 = 0 := by omega
  have h8 : (8 * i + 4) / 8 = i := by omega
  simp [coefAccess, hi, h4, h8]

/-- An access beyond the entries, misaligned, or of another width is none that 20_memory R47 gives. -/
theorem coefAccess_eq_false {p : Params} {i n : Nat}
    (h : 8 * p.coefEntries ≤ i ∨ (n = 8 ∧ i % 8 ≠ 0) ∨ (n = 4 ∧ i % 4 ≠ 0) ∨ (n ≠ 4 ∧ n ≠ 8)) :
    coefAccess p i n = false := by
  rw [Bool.eq_false_iff]
  intro ha
  simp only [coefAccess, Bool.and_eq_true, Bool.or_eq_true, beq_iff_eq, decide_eq_true_eq] at ha
  omega

theorem loadByte_output_of_not_pending {a : Nat} (hp : s.pending = false) (ha : a < s.params.sampleBytes) :
    loadByte .output a s = some (s.outByte a) := by
  simp [loadByte, hp, ha]

/-- The step of a read of one byte records the byte that stands at it. -/
theorem step_of_hostLoad_one {m : Samples} {a : Nat} {rest : List Input} (ht : s.transfer = none)
    (hin : s.inputs = .host (.ld m a 1) :: rest) :
    ∃ t, step s = .next t ∧ t.replies = .bytes [readByte m a s] :: s.replies ∧ SamePfe s t :=
  ⟨_, step_of_nextLoad (.inl ⟨ht, rfl, hin⟩), rfl, samePfe_hostSide ..⟩

/-- Settles O28: a COEF read gives bytes of the entry, a read of a sample memory what `loadByte` gives. -/
theorem idleOutAndCoefReadAsStored : Obligations.IdleOutAndCoefReadAsStored := by
  refine ⟨fun s hp => ⟨fun i hi => ?_, fun a ha => loadByte_output_of_not_pending hp ha⟩, fun s a ha => if_pos ha,
    fun s m a b rest ht hin hb => ?_⟩
  · have hword : 8 * i / 8 = i ∧ 8 * i % 8 = 0 := by omega
    have hhigh : (8 * i + 4) / 8 = i ∧ (8 * i + 4) % 8 = 4 := by omega
    refine ⟨_, _, _, _, _, _, _, _, ?_, ?_, ?_, append_byteOfEntry (s.coefEntry i)⟩
    · rw [coefBytes_of_access hp (coefAccess_word hi), hword.1, hword.2]; rfl
    · rw [coefBytes_of_access hp (coefAccess_lowHalf hi), hword.1, hword.2]; rfl
    · rw [coefBytes_of_access hp (coefAccess_highHalf hi), hhigh.1, hhigh.2]; rfl
  · obtain ⟨t, hstep, hreplies, -⟩ := step_of_hostLoad_one ht hin
    exact ⟨t, hstep, by rw [hreplies, readByte, hb]; rfl⟩

/-! ### The time in which results read as any value -/

/-- A CTRL write that sets START or GENK launches a command when the Engine is idle. -/
theorem step_of_launch {v : Word} {rest : List Input} (hb : s.busy = false)
    (hv : v.getLsbD 0 = true ∨ v.getLsbD 1 = true) (ht : s.transfer = none)
    (hin : s.inputs = .host (.wr 0x00 4 v) :: rest) : ∃ k, step s = .next (launch k { s with inputs := rest }) := by
  have hturn := (turn_of_ctrl ht hin).trans (ctrlTurn_of_idle (s := { s with inputs := rest }) v hb)
  by_cases h0 : v.getLsbD 0 = true
  · rw [if_pos h0] at hturn
    exact ⟨.filter, step_of_move hturn⟩
  · rw [if_neg h0, if_pos (hv.resolve_left h0)] at hturn
    exact ⟨.generate, step_of_move hturn⟩

/-- A byte of OUT before DONE is observed, or of either memory beyond its space, is any value. -/
theorem loadByte_eq_none {m : Samples} {a : Nat} (h : (m = .output ∧ s.pending = true) ∨ s.params.sampleBytes ≤ a) :
    loadByte m a s = none := by
  rcases h with ⟨rfl, hp⟩ | ha
  · simp [loadByte, hp]
  · cases m <;> simp [loadByte, Nat.not_lt.2 ha]

/-- Settles O29, one clause for each way a result's time begins, ends or shows. -/
theorem statusReadReleasesTheResults : Obligations.StatusReadReleasesTheResults := by
  refine ⟨fun s v rest hb hv ht hin => ?_, fun s rest ht hin => ?_, fun s m a rest ht hin h => ?_,
    fun s i n rest ht hin h => ?_⟩
  · obtain ⟨k, hstep⟩ := step_of_launch hb hv ht hin
    exact ⟨_, hstep, rfl, rfl⟩
  · refine ⟨_, step_of_host ht hin nofun rfl, rfl, samePfe_hostSide .., fun hd => ?_, fun hd => ?_⟩
    · exact (congrArg (s.pending && !·) hd).trans (Bool.and_false _)
    · exact (congrArg (s.pending && !·) hd).trans (Bool.and_true _)
  · obtain ⟨t, hstep, hreplies, hpfe⟩ := step_of_hostLoad_one ht hin
    refine ⟨t, hstep, ?_, hpfe⟩
    rw [hreplies, readByte, loadByte_eq_none h]
    rfl
  · have hany : coefBytes i n s = (List.range n).map fun k => Config.anyByte s.draws k :=
      coefBytes_of_not_access (h.imp_right coefAccess_eq_false)
    exact ⟨_, step_of_host ht hin nofun rfl, congrArg (fun bs => Reply.bytes bs :: s.replies) hany, samePfe_hostSide ..⟩

end Sys2Proof.Machine
end

section
/-! What a command writes (20_memory R49, 46_dispatcher R181): its footprint, and the form that the seven filter commands
share: checks, then the writes to COEF and LUMA, then every byte of the buffer in OUT. -/
namespace Sys2Proof.Machine
variable {s : State}

/-! ### Footprints -/

/-- OUT is unchanged from byte `o` up, COEF from entry `c` up, and LUMA from entry `l` up. -/
def WritesBelow (o c l : Nat) (s t : State) : Prop := OutKeptFrom o s t ∧ CoefKeptFrom c s t ∧ LumaKeptFrom l s t

theorem WritesBelow.trans {o c l : Nat} {t u : State} (h : WritesBelow o c l s t) (g : WritesBelow o c l t u) :
    WritesBelow o c l s u := by
  obtain ⟨hout, hcoef, hluma⟩ := h
  obtain ⟨gout, gcoef, gluma⟩ := g
  exact ⟨fun a ha => (gout a ha).trans (hout a ha), fun i hi => (gcoef i hi).trans (hcoef i hi),
    fun i hi => (gluma i hi).trans (hluma i hi)⟩

theorem writesBelow_writeOut (n c l : Nat) (f : Nat → Option Byte) (s : State) : WritesBelow n c l s (writeOut n f s) :=
  ⟨fun _ ha => outByte_writeOut_of_le ha, fun _ _ => rfl, fun _ _ => rfl⟩

theorem writesBelow_writeCoef (o n l : Nat) (k : Nat → DWord) (s : State) : WritesBelow o n l s (writeCoef n k s) :=
  ⟨fun _ _ => rfl, fun i hi => (coefEntry_writeCoef n k s i).trans (if_neg (Nat.not_lt.2 hi)), fun _ _ => rfl⟩

theorem writesBelow_writeLuma (o c n : Nat) (f : Nat → Option LumaWord) (s : State) :
    WritesBelow o c n s (writeLuma n f s) :=
  ⟨fun _ _ => rfl, fun _ _ => rfl, fun i hi => (luma_get?_writeLuma n f s i).trans (if_neg (Nat.not_lt.2 hi))⟩

/-- A command's end writes STATUS alone, whether its checks pass or not. -/
theorem writesBelow_runChecked {o c l : Nat} {failed : Option ParamError} {run : State → State}
    (h : WritesBelow o c l s (run s)) : WritesBelow o c l s (runChecked failed run s) := by
  rcases runChecked_cases failed run s with ⟨e, -, he⟩ | ⟨-, he⟩ <;> rw [he]
  · exact ⟨fun _ _ => rfl, fun _ _ => rfl, fun _ _ => rfl⟩
  · exact h

/-- Settles O40: each command's writes, one after the other, stay below its bounds. -/
theorem commandsWriteOnlyTheirFootprint : Obligations.CommandsWriteOnlyTheirFootprint := by
  intro s w h k f g
  have ends (i : Instr) {o c l : Nat} (hi : WritesBelow o c l s (result i s)) :
      ∃ t, exec i s = .next t ∧ CommandKeeps s t ∧ OutKeptFrom o s t ∧ CoefKeptFrom c s t ∧ LumaKeptFrom l s t :=
    ⟨_, exec_eq_result i s, commandKeeps_result i s, hi⟩
  refine ⟨ends (.identity w h) ?_, ends (.unknown f w h) ?_, ends (.gray w h) ?_, ends (.gaussian w h k g) ?_,
    ends (.box w h) ?_, ends (.sharpen w h) ?_, ends (.edge w h) ?_, ends (.genk k g) ?_, rfl⟩
  · exact writesBelow_runChecked (writesBelow_writeOut ..)
  · exact writesBelow_runChecked (writesBelow_writeOut ..)
  · exact writesBelow_runChecked (writesBelow_writeOut ..)
  · exact writesBelow_runChecked ((writesBelow_writeCoef ..).trans (writesBelow_writeOut ..))
  · exact writesBelow_runChecked ((writesBelow_writeCoef ..).trans (writesBelow_writeOut ..))
  · exact writesBelow_runChecked ((writesBelow_writeCoef ..).trans (writesBelow_writeOut ..))
  · exact writesBelow_runChecked ((writesBelow_writeLuma ..).trans (writesBelow_writeOut ..))
  · exact writesBelow_runChecked (writesBelow_writeCoef ..)

/-! ### The form of a filter command -/

/-- The check of a command that fails first (60_exceptions R193). -/
def failedCheck (p : Params) (i : Instr) : Option ParamError :=
  match i with
  | .identity w h => checkGeometry p w h
  | .gaussian w h k g => (checkGeometry p w h).or (checkKernel p k g)
  | .box w h => checkGeometry p w h
  | .sharpen w h => checkGeometry p w h
  | .edge w h => checkGeometry p w h
  | .gray w h => checkGeometry p w h
  | .unknown _ w h => checkGeometry p w h
  | .genk k g => checkKernel p k g
  | .nolaunch => none

/-- What a command writes to COEF and LUMA, which is all it does before it writes OUT. -/
def writeTables (i : Instr) (s : State) : State :=
  match i with
  | .identity _ _ => s
  | .gaussian _ _ k g => generateKernel k.toNat g s
  | .box _ _ => writeCoef 25 (fun _ => boxWeight) s
  | .sharpen _ _ => writeCoef 9 sharpenWeight s
  | .edge w h => writeLuma (w.toNat * h.toNat) (lumaSum s) s
  | .gray _ _ => s
  | .unknown _ _ _ => s
  | .genk k g => generateKernel k.toNat g s
  | .nolaunch => s

/-- The byte of a filter command's result at index `a`, once COEF and LUMA are written. -/
def resultByte (i : Instr) (s : State) (a : Nat) : Option Byte :=
  match i with
  | .identity _ _ => s.inMem.get? a
  | .gaussian w h k _ => convByte w.toNat h.toNat k.toNat s a
  | .box w h => convByte w.toNat h.toNat 5 s a
  | .sharpen w h => convByte w.toNat h.toNat 3 s a
  | .edge w h => edgeByte w.toNat h.toNat s a
  | .gray _ _ => grayByte s a
  | .unknown _ _ _ => s.inMem.get? a
  | .genk _ _ => none
  | .nolaunch => none

/-- The writes of a filter command over a buffer of `n` bytes. -/
def runFilter (i : Instr) (n : Nat) (s : State) : State :=
  writeOut n (resultByte i (writeTables i s)) (writeTables i s)

/-- Every filter command is its checks, its tables and its result. -/
theorem result_of_isFilter {i : Instr} {w h : Word} (hi : isFilter i w h) (s : State) :
    result i s = runChecked (failedCheck s.params i) (runFilter i (4 * w.toNat * h.toNat)) s := by
  cases i with
  | genk | nolaunch => exact hi.elim
  | identity | gaussian | box | sharpen | edge | gray | unknown => obtain ⟨rfl, rfl⟩ := hi; rfl

/-- A filter command ends in its failing check or with its result written. -/
theorem result_of_isFilter_cases {i : Instr} {w h : Word} (hi : isFilter i w h) (s : State) :
    (∃ e, failedCheck s.params i = some e ∧ result i s = raiseInvalidParameter e s) ∨
      (failedCheck s.params i = none ∧ result i s = complete (runFilter i (4 * w.toNat * h.toNat) s)) := by
  rw [result_of_isFilter hi]
  exact runChecked_cases _ _ s

@[simp] theorem writeTables_status (i : Instr) (s : State) : (writeTables i s).status = s.status := by cases i <;> rfl
@[simp] theorem writeTables_race (i : Instr) (s : State) : (writeTables i s).race = s.race := by cases i <;> rfl
@[simp] theorem writeTables_draws (i : Instr) (s : State) : (writeTables i s).draws = s.draws := by cases i <;> rfl

/-- A command's tables do not depend on the mark of a disturbed command. -/
theorem writeTables_withRace (i : Instr) (s : State) (r : Bool) :
    writeTables i { s with race := r } = { writeTables i s with race := r } := by
  cases i <;> rfl

/-- A defined byte of an undisturbed filter command's result. -/
theorem outByte_runFilter_of_some {i : Instr} {n a : Nat} {b : Byte} (ha : a < n) (hr : s.race = false)
    (hb : resultByte i (writeTables i s) a = some b) : (runFilter i n s).outByte a = b :=
  outByte_writeOut_of_some ha (by rw [writeTables_race, hr]) hb

/-- A disturbed filter command leaves free values (20_memory R51 item 5). -/
theorem outByte_runFilter_of_race {i : Instr} {n a : Nat} (ha : a < n) (hr : s.race = true) :
    (runFilter i n s).outByte a = Config.anyByte s.draws a := by
  rw [runFilter, outByte_writeOut, if_pos ha, writeTables_race, hr, writeTables_draws]
  rfl

end Sys2Proof.Machine
end

section
/-! Writes to the input buffer of a command in flight or of an open result, and what closes a result (20_memory R51,
70_reset_and_hazards R230, R231). -/
namespace Sys2Proof.Machine
variable {s : State}

/-! ### What a write to IN disturbs -/

theorem storeByte_race (i : Nat) (b : Byte) (s : State) :
    (storeByte i b s).race = if i < s.params.sampleBytes then s.race || breachesInFlight i s else s.race := by
  unfold storeByte; split <;> rfl

theorem storeByte_outMem (i : Nat) (b : Byte) (s : State) :
    (storeByte i b s).outMem = if i < s.params.sampleBytes then (disturbResults i s).outMem else s.outMem := by
  unfold storeByte; split <;> rfl

/-- A write that is not to the input buffer in flight leaves the mark of a disturbed command. -/
theorem storeByte_race_of_not_breach {i : Nat} (b : Byte) (h : breachesInFlight i s = false) :
    (storeByte i b s).race = s.race := by
  rw [storeByte_race, h, Bool.or_false, ite_self]

/-- A write that is to the input buffer of no open result leaves OUT. -/
theorem storeByte_outMem_of_none {i : Nat} (b : Byte) (h : ∀ n ∈ openResults s, n ≤ i) :
    (storeByte i b s).outMem = s.outMem := by
  rw [storeByte_outMem, disturbResults_of_none h, ite_self]

theorem fetch_storeByte (i : Nat) (b : Byte) (s : State) : fetch (storeByte i b s) = fetch s := by
  unfold fetch State.busy
  rw [storeByte_status, storeByte_desc]

/-- An open result is an earlier one, or that of the latest command, completed without fault. -/
theorem mem_openResults {n : Nat} (h : n ∈ openResults s) :
    n ∈ s.earlier ∨ (n = resultBytes s ∧ s.busy = false ∧ s.err = false) := by
  unfold openResults at h
  split at h
  · split at h
    next => exact .inl h
    next hopen =>
      simp only [Bool.or_eq_true, not_or, Bool.not_eq_true] at hopen
      obtain ⟨⟨hbusy, herr⟩, -⟩ := hopen
      rcases List.mem_cons.1 h with h | h
      · exact .inr ⟨h, hbusy, herr⟩
      · exact .inl h
  · exact absurd h List.not_mem_nil

/-- With a command in flight, or after a fault, only earlier results are open. -/
theorem openResults_le_of_earlier {i : Nat} (h : ∀ n ∈ s.earlier, n ≤ i) (hopen : s.busy = true ∨ s.err = true) :
    ∀ n ∈ openResults s, n ≤ i := by
  intro n hn
  rcases mem_openResults hn with hn | ⟨-, hbusy, herr⟩
  · exact h n hn
  · simp [hbusy, herr] at hopen

/-- A byte of OUT that no open result covers is not disturbed. -/
theorem disturbs_of_le {i a : Nat} {l : List Nat} (h : ∀ n ∈ l, n ≤ a) : disturbs i l a = false := by
  have hnone : l.find? (fun n => decide (a < n)) = none :=
    List.find?_eq_none.2 fun n hn => by simpa using h n hn
  rw [disturbs, hnone]

/-- A write to IN leaves every byte of OUT that it does not disturb, also beyond the space. -/
theorem outByte_storeByte_of_not_disturbs {i a : Nat} (b : Byte) (h : disturbs i (openResults s) a = false) :
    (storeByte i b s).outByte a = s.outByte a := by
  have hout : (disturbResults i s).outByte a = s.outByte a := by
    unfold disturbResults
    dsimp only
    split
    · simp only [State.outByte, Memory.get?_fill, h, Bool.false_eq_true, if_false, ite_self]
    · rfl
  simp only [State.outByte, storeByte_outMem, storeByte_resets, disturbResults_resets] at hout ⊢
  split
  · exact hout
  · rfl

/-- Settles O30: the write's mark and what it disturbs, then the disturbed command's result. -/
theorem inputRaceAffectsOnlyTheResult : Obligations.InputRaceAffectsOnlyTheResult := by
  refine ⟨fun s i b bs l hb hp hk hin hspace h => ?_, fun s i b bs l hb hout h => ?_, fun s i b bs l hb h => ?_,
    fun i w h s hi hr => ?_, fun i w h s hi => ?_⟩
  · have hbreach : breachesInFlight i s = true := by simp [breachesInFlight, hb, hp, hk, resultBytes, hin]
    refine ⟨_, step_of_nextStore_cons h, ?_, fetch_storeByte i b s, storeByte_status s i b, storeByte_coef s i b,
      fun he => storeByte_outMem_of_none b (openResults_le_of_earlier he (.inl hb))⟩
    exact (storeByte_race i b s).trans (by rw [if_pos hspace, hbreach, Bool.or_true])
  · have hbreach : breachesInFlight i s = false := by
      rcases hout with hout | hk
      · simp [breachesInFlight, resultBytes, Nat.not_lt.2 hout]
      · simp [breachesInFlight, hk]
    exact ⟨_, step_of_nextStore_cons h, storeByte_race_of_not_breach b hbreach, fetch_storeByte i b s,
      storeByte_status s i b, storeByte_coef s i b,
      fun he => storeByte_outMem_of_none b (openResults_le_of_earlier he (.inl hb))⟩
  · have hbreach : breachesInFlight i s = false := by simp [breachesInFlight, hb]
    refine ⟨_, step_of_nextStore_cons h, storeByte_race_of_not_breach b hbreach, storeByte_status s i b,
      storeByte_coef s i b, storeByte_luma s i b,
      fun he herr => storeByte_outMem_of_none b (openResults_le_of_earlier he (.inr herr)), fun a ha he => ?_⟩
    refine outByte_storeByte_of_not_disturbs b (disturbs_of_le fun n hn => ?_)
    rcases mem_openResults hn with hn | ⟨rfl, -, -⟩
    · exact he n hn
    · exact ha
  · refine ⟨_, exec_eq_result i s, fun herr a ha => ?_⟩
    rcases result_of_isFilter_cases hi s with ⟨e, -, hres⟩ | ⟨-, hres⟩
    · rw [hres, raiseInvalidParameter_status, errOf_statusFaulted] at herr
      exact absurd herr (by decide)
    · rw [hres, complete_outByte, outByte_runFilter_of_race ha hr]
  · refine ⟨_, _, exec_eq_result i _, exec_eq_result i _, ?_⟩
    rw [result_of_isFilter hi, result_of_isFilter hi]
    cases failedCheck s.params i with
    | some e => exact ⟨rfl, rfl, rfl, rfl, fun _ _ => rfl⟩
    | none =>
      simp only [runChecked_none, runFilter, writeTables_withRace]
      refine ⟨rfl, rfl, rfl, rfl, fun a ha => ?_⟩
      rw [complete_outByte, complete_outByte, outByte_writeOut_of_le ha, outByte_writeOut_of_le ha]
      rfl

/-! ### What keeps a result open -/

/-- A command stays pending, and every open result stays open in its order; a new one may come before them. -/
def KeepsOpen (s t : State) : Prop := t.pending = true ∧ ∃ l, openResults t = l ++ openResults s

/-- What changes neither STATUS nor D nor the marks keeps every result. -/
theorem keepsOpen_of_same {t : State} (hp : s.pending = true) (hpending : t.pending = s.pending)
    (hearlier : t.earlier = s.earlier) (hstatus : t.status = s.status) (hdesc : t.desc = s.desc) : KeepsOpen s t := by
  refine ⟨hpending.trans hp, [], ?_⟩
  unfold openResults State.busy State.err resultBytes
  rw [hpending, hearlier, hstatus, hdesc, List.nil_append]

theorem KeepsOpen.refl (hp : s.pending = true) : KeepsOpen s s := keepsOpen_of_same hp rfl rfl rfl rfl

/-- The earlier results are the last of those that are open. -/
theorem openResults_of_pending (h : s.pending = true) : ∃ l, openResults s = l ++ s.earlier := by
  unfold openResults
  rw [if_pos h]
  split
  · exact ⟨[], rfl⟩
  · exact ⟨[resultBytes s], rfl⟩

theorem keepsOpen_launch (k : Kind) (s : State) : KeepsOpen s (launch k s) :=
  ⟨rfl, [], openResults_of_busy (busy_beginCommand _ _) rfl⟩

/-- The command in flight may add its own result. -/
theorem keepsOpen_result (i : Instr) (hp : s.pending = true) (hb : s.busy = true) : KeepsOpen s (result i s) := by
  have hkeeps := commandKeeps_result i s
  have hpending : (result i s).pending = true := hkeeps.pending.trans hp
  refine ⟨hpending, ?_⟩
  rw [openResults_of_busy hb hp, ← hkeeps.earlier]
  exact openResults_of_pending hpending

theorem keepsOpen_advance (x : Transfer) (hp : s.pending = true) : KeepsOpen s (advance x s) := by
  obtain ⟨-, hstatus, -, -, -, -, -, -, hdesc, -, -, hpending, -, -, hearlier⟩ := advance_keeps x s
  exact keepsOpen_of_same hp hpending hearlier hstatus hdesc

theorem keepsOpen_resumeTransfer (hp : s.pending = true) : KeepsOpen s (resumeTransfer s) := by
  unfold resumeTransfer
  split
  · exact keepsOpen_advance _ hp
  · exact KeepsOpen.refl hp

theorem keepsOpen_regWrite (o n : Nat) (v : Word) (hp : s.pending = true) : KeepsOpen s (regWrite o n v s) := by
  rw [regWrite_eq]
  exact keepsOpen_of_same hp rfl rfl rfl rfl

/-- Only a STATUS read of DONE = 1 closes results. -/
theorem keepsOpen_hostRead {o n : Nat} (hp : s.pending = true) (h : n = 4 ∧ o = 0x04 → s.done = false) :
    KeepsOpen s (hostRead o n s) := by
  unfold hostRead
  split
  next hstatus =>
    have hd := h hstatus
    exact keepsOpen_of_same hp (by simp [hd]) (by simp [hd]) rfl rfl
  next => exact keepsOpen_of_same hp rfl rfl rfl rfl

/-- A step's move keeps every result that is open in `s`. -/
def Turn.KeepsOpen (s : State) : Turn → Prop
  | .run i t => Machine.KeepsOpen s (result i t)
  | .move t => Machine.KeepsOpen s t

theorem turn_keepsOpen_engine (hp : s.pending = true) : (engineTurn s).KeepsOpen s := by
  cases hb : s.busy with
  | false => rw [engineTurn_of_idle hb]; exact KeepsOpen.refl hp
  | true => rw [engineTurn_of_busy hb]; exact keepsOpen_result _ hp hb

theorem turn_keepsOpen_ctrl (v : Word) (hp : s.pending = true) : (ctrlTurn v s).KeepsOpen s := by
  cases hb : s.busy with
  | true => rw [ctrlTurn_of_busy v hb]; exact KeepsOpen.refl hp
  | false =>
    rw [ctrlTurn_of_idle v hb]
    split
    · exact keepsOpen_launch .filter s
    · split
      · exact keepsOpen_launch .generate s
      · exact KeepsOpen.refl hp

theorem turn_keepsOpen_host {op : HostOp} (hp : s.pending = true) (h : op = .rd 0x04 4 → s.done = false) :
    (hostTurn op s).KeepsOpen s := by
  cases op with
  | wr o n v =>
    unfold hostTurn
    dsimp only
    split
    · exact turn_keepsOpen_ctrl v hp
    · exact keepsOpen_regWrite o n v hp
  | rd o n => exact keepsOpen_hostRead hp fun ⟨hn, ho⟩ => h (by rw [hn, ho])
  | st m a bytes =>
    cases m with
    | input => exact keepsOpen_advance _ hp
    | output => exact KeepsOpen.refl hp
  | ld m a n => exact keepsOpen_advance _ hp
  | stCoef | wait => exact KeepsOpen.refl hp
  | ldCoef a n => exact keepsOpen_of_same hp rfl rfl rfl rfl
  | copyByte a => exact keepsOpen_advance (.load .output a 1 []) hp

theorem turn_keepsOpen_op {op : HostOp} (rest : List Input) (hp : s.pending = true)
    (h : op = .rd 0x04 4 ∨ op = .wait → s.done = false) : (opTurn op rest s).KeepsOpen s := by
  by_cases hw : op = .wait
  · rw [hw]
    have hwait : opTurn .wait rest s = engineTurn s := waitTurn_of_not_done rest (h (.inr hw))
    rw [hwait]
    exact turn_keepsOpen_engine hp
  · rw [opTurn_of_ne_wait rest s hw]
    exact turn_keepsOpen_host (s := { s with inputs := rest }) hp fun hrd => h (.inl hrd)

/-- Every move but a reset and the STATUS read of DONE = 1 keeps the open results. -/
theorem turn_keepsOpen (hp : s.pending = true) (hreset : ∀ rest, s.inputs ≠ .reset :: rest)
    (hread : s.done = true → s.transfer = none →
      ∀ rest, s.inputs ≠ .host (.rd 0x04 4) :: rest ∧ s.inputs ≠ .host .wait :: rest) : (turn s).KeepsOpen s := by
  unfold turn
  split
  next rest _ => exact turn_keepsOpen_engine (s := { s with inputs := rest }) hp
  next rest hin => exact absurd hin (hreset rest)
  next rest _ => exact keepsOpen_resumeTransfer (s := { s with inputs := rest }) hp
  next =>
    split
    next x _ => exact keepsOpen_advance x hp
    next => exact turn_keepsOpen_engine hp
  next op rest hin =>
    split
    next x _ => exact keepsOpen_advance x hp
    next ht =>
      refine turn_keepsOpen_op rest hp fun hop => Bool.eq_false_iff.2 fun hd => ?_
      obtain ⟨hrd, hwait⟩ := hread hd ht rest
      rcases hop with rfl | rfl
      · exact hrd hin
      · exact hwait hin

/-- Settles O32, by what every move keeps. -/
theorem onlyADoneReadOrAResetClosesResults : Obligations.OnlyADoneReadOrAResetClosesResults := by
  intro s hp hreset hread
  have hk := turn_keepsOpen hp hreset hread
  cases ht : turn s with
  | move t => rw [ht] at hk; exact ⟨t, step_of_move ht, hk⟩
  | run i t => rw [ht] at hk; exact ⟨result i t, step_of_run ht, hk⟩

end Sys2Proof.Machine
end

section
/-! The result of a filter command as a function of its operands and of the image in IN (20_memory R43, R56): equal images
give equal results, and a transposed image a transposed result (44_edge_detector R151). -/
namespace Sys2Proof.Machine
variable {s : State}

/-! ### Images -/

/-- A `w` by `h` image, by column, row and channel (20_memory R43). -/
abbrev Image := Nat → Nat → Nat → Byte

/-- The image in IN; 0 outside the buffer. -/
def State.image (s : State) (w h : Nat) : Image := fun x y c =>
  if x < w ∧ y < h ∧ c < 4 then s.inByte (idx w x y c) else 0

/-- The image with columns and rows exchanged. -/
def Image.transpose (img : Image) : Image := fun x y c => img y x c

theorem State.image_of_lt {w h x y c : Nat} (hx : x < w) (hy : y < h) (hc : c < 4) :
    s.image w h x y c = s.inByte (idx w x y c) :=
  if_pos ⟨hx, hy, hc⟩

/-- A byte of a defined buffer holds the byte of the image. -/
theorem get?_eq_image {w h x y c : Nat} (hd : s.bufferDefined w h) (hx : x < w) (hy : y < h) (hc : c < 4) :
    s.inMem.get? (idx w x y c) = some (s.image w h x y c) := by
  rw [State.image_of_lt hx hy hc, get?_of_definedAt (hd _ (idx_lt hx hy hc))]

/-- Equal defined bytes are the same image. -/
theorem image_congr {t : State} {w h : Nat} (hd : s.bufferDefined w h)
    (heq : ∀ a, a < 4 * w * h → t.inMem.get? a = s.inMem.get? a) : t.image w h = s.image w h := by
  funext x y c
  unfold State.image
  split
  next hin =>
    obtain ⟨hx, hy, hc⟩ := hin
    have hlt := idx_lt hx hy hc
    rw [State.inByte, heq _ hlt, get?_of_definedAt (hd _ hlt)]
    rfl
  next => rfl

/-- A transposed input is the transposed image. -/
theorem image_of_transposedInput {t : State} {w h : Nat} (hd : s.bufferDefined w h) (ht : TransposedInput w h s t) :
    t.image h w = (s.image w h).transpose := by
  funext x y c
  unfold Image.transpose State.image
  by_cases hin : y < w ∧ x < h ∧ c < 4
  · obtain ⟨hy, hx, hc⟩ := hin
    rw [if_pos ⟨hx, hy, hc⟩, if_pos ⟨hy, hx, hc⟩, State.inByte, ht y x c hy hx hc,
      get?_of_definedAt (hd _ (idx_lt hy hx hc))]
    rfl
  · rw [if_neg (fun h => hin ⟨h.2.1, h.1, h.2.2⟩), if_neg hin]

/-- The transpose of a defined buffer is defined. -/
theorem bufferDefined_of_transposedInput {t : State} {w h : Nat} (hd : s.bufferDefined w h)
    (ht : TransposedInput w h s t) : t.bufferDefined h w := by
  intro a ha
  obtain ⟨y, x, c, hy, hx, hc, rfl⟩ := exists_idx ha
  rw [State.definedAt, ht x y c hx hy hc]
  exact hd _ (idx_lt hx hy hc)

/-! ### Convolution -/

/-- The byte of CONV at one pixel and channel, for the kernel of size `k` in `word` (42_convolution_engine R111 to R116). -/
def convPixel (w h k : Nat) (word : Nat → DWord) (img : Image) (x y c : Nat) : Byte :=
  if c = 3 then img x y 3
  else toByte (∑ ky ∈ Finset.range k, ∑ kx ∈ Finset.range k, weightOf (word (ky * k + kx)) *
    ((img (tapCoord x kx (k / 2) w) (tapCoord y ky (k / 2) h) c).toNat : ℚ))

/-- The index of a cell lies in its kernel. -/
theorem cell_lt {k kx ky : Nat} (hx : kx < k) (hy : ky < k) : ky * k + kx < k * k := by
  calc ky * k + kx < ky * k + k := Nat.add_lt_add_left hx _
    _ = (ky + 1) * k := (Nat.succ_mul ky k).symm
    _ ≤ k * k := Nat.mul_le_mul_right k hy

theorem val64_eq_weightOf {b : DWord} (h : isFinite64 b = true) : val64 b = some (weightOf b) := by
  unfold weightOf val64
  rw [if_pos h]
  rfl

theorem weightAt_writeCoef {n i : Nat} {word : Nat → DWord} (s : State) (hi : i < n) (hf : isFinite64 (word i) = true) :
    weightAt (writeCoef n word s) i = some (weightOf (word i)) := by
  rw [weightAt, coef_get?_writeCoef, if_pos hi, Option.bind_some, val64_eq_weightOf hf]

/-- CONV with a kernel of finite words, over a defined buffer. -/
theorem convByte_writeCoef {w h k x y c : Nat} {word : Nat → DWord} (hf : ∀ i < k * k, isFinite64 (word i) = true)
    (hd : s.bufferDefined w h) (hx : x < w) (hy : y < h) (hc : c < 4) :
    convByte w h k (writeCoef (k * k) word s) (idx w x y c) = some (convPixel w h k word (s.image w h) x y c) := by
  have tap (kx ky : Nat) : tapCoord x kx (k / 2) w < w ∧ tapCoord y ky (k / 2) h < h :=
    ⟨tapCoord_lt _ _ _ (Nat.zero_lt_of_lt hx), tapCoord_lt _ _ _ (Nat.zero_lt_of_lt hy)⟩
  unfold convPixel
  split
  next halpha => subst halpha; rw [convByte_alpha]; exact get?_eq_image hd hx hy hc
  next hcolour =>
    rw [convByte_colour hx (by omega), convSum_eq (fun kx ky => weightOf (word (ky * k + kx)))
      (fun kx ky hkx hky => weightAt_writeCoef s (cell_lt hkx hky) (hf _ (cell_lt hkx hky)))
      (fun kx ky _ _ _ => hd _ (idx_lt (tap kx ky).1 (tap kx ky).2 hc))]
    have himage (kx ky : Nat) := State.image_of_lt (s := s) (tap kx ky).1 (tap kx ky).2 hc
    simp only [Option.map_some, writeCoef_inByte, tapIndex, himage]

/-- A kernel that is its own transpose commutes with transposing the image. -/
theorem convPixel_transpose {w h k : Nat} {word : Nat → DWord}
    (hsym : ∀ kx ky, kx < k → ky < k → word (kx * k + ky) = word (ky * k + kx)) (img : Image) (x y c : Nat) :
    convPixel h w k word img.transpose y x c = convPixel w h k word img x y c := by
  unfold convPixel Image.transpose
  split
  next => rfl
  next =>
    rw [Finset.sum_comm]
    refine congrArg toByte (Finset.sum_congr rfl fun ky hky => Finset.sum_congr rfl fun kx hkx => ?_)
    rw [hsym kx ky (Finset.mem_range.1 hkx) (Finset.mem_range.1 hky)]

/-- A kernel within the contract is its own transpose: exchanged cells are equally far from the centre (R95). -/
theorem KernelContract.word_swap {k : Nat} {g : DWord} {word : Nat → DWord} (hw : KernelContract k g word) {kx ky : Nat}
    (hx : kx < k) (hy : ky < k) : word (kx * k + ky) = word (ky * k + kx) :=
  hw.radial ky kx kx ky hy hx hx hy (by rw [dist2, dist2, add_comm])

theorem sharpenWeight_swap : ∀ kx ky, kx < 3 → ky < 3 → sharpenWeight (kx * 3 + ky) = sharpenWeight (ky * 3 + kx) := by
  have h : ∀ kx < 3, ∀ ky < 3, sharpenWeight (kx * 3 + ky) = sharpenWeight (ky * 3 + kx) := by decide
  exact fun kx ky hx hy => h kx hx ky hy

/-! ### Luminance and edges -/

/-- `R + G + B` of a pixel (44_edge_detector R141). -/
def rgbAt (img : Image) (x y : Nat) : Nat := (img x y 0).toNat + (img x y 1).toNat + (img x y 2).toNat

/-- GX or GY at an interior pixel (44_edge_detector R140, R144). -/
def gradientAt (weight : Nat → Nat → Int) (img : Image) (x y : Nat) : Int :=
  ∑ ky ∈ Finset.range 3, ∑ kx ∈ Finset.range 3, weight kx ky * (rgbAt img (x + kx - 1) (y + ky - 1) : Int)

/-- The byte of EDGE at one pixel and channel (44_edge_detector R145, R146). -/
def edgePixel (w h : Nat) (img : Image) (x y c : Nat) : Byte :=
  if isInterior w h x y then
    if c = 3 then 255 else edgeMagnitude (gradientAt sobelX img x y) (gradientAt sobelY img x y)
  else 0

/-- The byte of GRAY at one pixel and channel (45_grayscale R160). -/
def grayPixel (img : Image) (x y c : Nat) : Byte := if c = 3 then img x y 3 else toByte ((rgbAt img x y : ℚ) / 3)

theorem pixel_lt {w h x y : Nat} (hx : x < w) (hy : y < h) : y * w + x < w * h := by
  have hlt := idx_lt (c := 0) hx hy (by decide)
  rw [idx, Nat.mul_assoc] at hlt
  omega

/-- The three colour bytes of the pixel at index `y*w + x` of a defined buffer. -/
theorem get?_colours {w h x y : Nat} (hd : s.bufferDefined w h) (hx : x < w) (hy : y < h) :
    s.inMem.get? (4 * (y * w + x)) = some (s.image w h x y 0) ∧
      s.inMem.get? (4 * (y * w + x) + 1) = some (s.image w h x y 1) ∧
      s.inMem.get? (4 * (y * w + x) + 2) = some (s.image w h x y 2) :=
  ⟨get?_eq_image (c := 0) hd hx hy (by decide), get?_eq_image (c := 1) hd hx hy (by decide),
    get?_eq_image (c := 2) hd hx hy (by decide)⟩

/-- The luminance sum over a defined buffer. -/
theorem lumaSum_eq {w h x y : Nat} (hd : s.bufferDefined w h) (hx : x < w) (hy : y < h) :
    lumaSum s (y * w + x) = some (BitVec.ofNat 10 (rgbAt (s.image w h) x y)) := by
  obtain ⟨hr, hg, hb⟩ := get?_colours hd hx hy
  simp only [lumaSum, hr, hg, hb]
  rfl

theorem rgbAt_lt (img : Image) (x y : Nat) : rgbAt img x y < 2 ^ 10 := by unfold rgbAt; omega

/-- The gradient over the luminance sums of a defined buffer, whose neighbours all lie in it. -/
theorem sobelGradient_writeLuma {weight : Nat → Nat → Int} {w h x y : Nat} (hd : s.bufferDefined w h)
    (hi : isInterior w h x y = true) :
    sobelGradient weight w (writeLuma (w * h) (lumaSum s) s) x y = some (gradientAt weight (s.image w h) x y) := by
  simp only [isInterior, Bool.and_eq_true, decide_eq_true_eq] at hi
  obtain ⟨⟨⟨hx1, hxw⟩, hy1⟩, hyh⟩ := hi
  unfold sobelGradient
  rw [sumDefined_map_some _ _
    fun p => weight p.1 p.2 * (rgbAt (s.image w h) (x + p.1 - 1) (y + p.2 - 1) : Int)]
  · exact congrArg some
      (sum_cells 3 fun kx ky => weight kx ky * (rgbAt (s.image w h) (x + kx - 1) (y + ky - 1) : Int))
  · rintro ⟨kx, ky⟩ hp
    obtain ⟨hkx, hky⟩ := mem_cells.1 hp
    have hx : x + kx - 1 < w := by omega
    have hy : y + ky - 1 < h := by omega
    dsimp only
    split
    next h0 => rw [h0, zero_mul]
    next =>
      rw [luma_get?_writeLuma, if_pos (pixel_lt hx hy), lumaSum_eq hd hx hy, Option.map_some, BitVec.toNat_ofNat,
        Nat.mod_eq_of_lt (rgbAt_lt ..)]

theorem edgeByte_writeLuma {w h x y c : Nat} (hd : s.bufferDefined w h) (hx : x < w) (hc : c < 4) :
    edgeByte w h (writeLuma (w * h) (lumaSum s) s) (idx w x y c) = some (edgePixel w h (s.image w h) x y c) := by
  unfold edgeByte edgePixel
  rw [pixelX_idx hx hc, pixelY_idx hx hc, channelOf_idx hc]
  split
  next hi =>
    split
    · rfl
    · rw [sobelGradient_writeLuma hd hi, sobelGradient_writeLuma hd hi]
  next => rfl

theorem grayByte_eq {w h x y c : Nat} (hd : s.bufferDefined w h) (hx : x < w) (hy : y < h) (hc : c < 4) :
    grayByte s (idx w x y c) = some (grayPixel (s.image w h) x y c) := by
  have hpixel : idx w x y c / 4 = y * w + x := by unfold idx; omega
  obtain ⟨hr, hg, hb⟩ := get?_colours hd hx hy
  unfold grayByte grayPixel
  rw [channelOf_idx hc]
  split
  next halpha => subst halpha; exact get?_eq_image hd hx hy (by decide)
  next => simp only [hpixel, hr, hg, hb]; rfl

theorem isInterior_swap (w h x y : Nat) : isInterior h w y x = isInterior w h x y := by
  rw [Bool.eq_iff_iff]
  simp only [isInterior, Bool.and_eq_true, decide_eq_true_eq]
  omega

/-- SOBELY is the transpose of SOBELX (44_edge_detector R143). -/
theorem sobelX_swap : ∀ kx < 3, ∀ ky < 3, sobelX kx ky = sobelY ky kx := by decide

theorem gradientAt_transpose {weight weight' : Nat → Nat → Int} (h : ∀ kx < 3, ∀ ky < 3, weight ky kx = weight' kx ky)
    (img : Image) (x y : Nat) : gradientAt weight img.transpose y x = gradientAt weight' img x y := by
  unfold gradientAt
  rw [Finset.sum_comm]
  refine Finset.sum_congr rfl fun ky hky => Finset.sum_congr rfl fun kx hkx => ?_
  rw [h kx (Finset.mem_range.1 hkx) ky (Finset.mem_range.1 hky)]
  rfl

theorem edgeMagnitude_comm (gx gy : Int) : edgeMagnitude gx gy = edgeMagnitude gy gx := by
  rw [edgeMagnitude, edgeMagnitude, add_comm (gx * gx)]

/-- The transpose exchanges GX and GY (44_edge_detector R151). -/
theorem edgePixel_transpose (w h : Nat) (img : Image) (x y c : Nat) :
    edgePixel h w img.transpose y x c = edgePixel w h img x y c := by
  have hx : gradientAt sobelX img.transpose y x = gradientAt sobelY img x y :=
    gradientAt_transpose (fun kx hkx ky hky => sobelX_swap ky hky kx hkx) img x y
  have hy : gradientAt sobelY img.transpose y x = gradientAt sobelX img x y :=
    gradientAt_transpose (fun kx hkx ky hky => (sobelX_swap kx hkx ky hky).symm) img x y
  rw [edgePixel, edgePixel, isInterior_swap, hx, hy, edgeMagnitude_comm]

/-! ### Every filter -/

/-- The byte of a filter command's result at one pixel and channel, from its operands and the image in IN alone. -/
def imageByte (i : Instr) (img : Image) (x y c : Nat) : Byte :=
  match i with
  | .identity _ _ => img x y c
  | .gaussian w h k g => convPixel w.toNat h.toNat k.toNat (Config.gaussKernel.words k.toNat g) img x y c
  | .box w h => convPixel w.toNat h.toNat 5 (fun _ => boxWeight) img x y c
  | .sharpen w h => convPixel w.toNat h.toNat 3 sharpenWeight img x y c
  | .edge w h => edgePixel w.toNat h.toNat img x y c
  | .gray _ _ => grayPixel img x y c
  | .unknown _ _ _ => img x y c
  | .genk _ _ => 0
  | .nolaunch => 0

theorem gaussKernel_contract_of_check {p : Params} {w h k : Word} {g : DWord}
    (hc : failedCheck p (.gaussian w h k g) = none) :
    sigmaValid g = true ∧ KernelContract k.toNat g (Config.gaussKernel.words k.toNat g) := by
  obtain ⟨⟨hodd, -⟩, hg⟩ := checkKernel_eq_none.1 (Option.or_eq_none_iff.1 hc).2
  exact ⟨hg, Config.gaussKernel.contract _ _ hodd hg⟩

/-- Over a defined buffer every byte of a filter command's result is defined, by the operands and the image. -/
theorem resultByte_eq_imageByte {i : Instr} {w h : Word} (hi : isFilter i w h) (hc : failedCheck s.params i = none)
    (hd : s.bufferDefined w.toNat h.toNat) {x y c : Nat} (hx : x < w.toNat) (hy : y < h.toNat) (h4 : c < 4) :
    resultByte i (writeTables i s) (idx w.toNat x y c) = some (imageByte i (s.image w.toNat h.toNat) x y c) := by
  cases i with
  | genk | nolaunch => exact hi.elim
  | identity | unknown => obtain ⟨rfl, rfl⟩ := hi; exact get?_eq_image hd hx hy h4
  | gaussian _ _ k g =>
    obtain ⟨rfl, rfl⟩ := hi
    obtain ⟨hg, hcontract⟩ := gaussKernel_contract_of_check hc
    exact convByte_writeCoef (fun _ hlt => hcontract.word_finite hg hlt) hd hx hy h4
  | box => obtain ⟨rfl, rfl⟩ := hi; exact convByte_writeCoef (k := 5) (fun _ _ => by decide) hd hx hy h4
  | sharpen =>
    obtain ⟨rfl, rfl⟩ := hi
    exact convByte_writeCoef (k := 3) (fun n _ => isFinite64_sharpenWeight n) hd hx hy h4
  | edge => obtain ⟨rfl, rfl⟩ := hi; exact edgeByte_writeLuma hd hx h4
  | gray => obtain ⟨rfl, rfl⟩ := hi; exact grayByte_eq hd hx hy h4

/-- What an undisturbed filter command that passes its checks leaves in OUT. -/
theorem outByte_result {i : Instr} {w h : Word} (hi : isFilter i w h) (hr : s.race = false)
    (hc : failedCheck s.params i = none) (hd : s.bufferDefined w.toNat h.toNat) {x y c : Nat} (hx : x < w.toNat)
    (hy : y < h.toNat) (h4 : c < 4) :
    (result i s).outByte (idx w.toNat x y c) = imageByte i (s.image w.toNat h.toNat) x y c := by
  rw [result_of_isFilter hi, hc, runChecked_none, complete_outByte]
  exact outByte_runFilter_of_some (idx_lt hx hy h4) hr (resultByte_eq_imageByte hi hc hd hx hy h4)

/-- Two filter commands whose checks agree end with the same STATUS. -/
theorem status_result_congr {t : State} {i j : Instr} {w h w' h' : Word} (hi : isFilter i w h) (hj : isFilter j w' h')
    (hc : failedCheck t.params j = failedCheck s.params i) (hst : t.status = s.status) :
    (result j t).status = (result i s).status := by
  rw [result_of_isFilter hi, result_of_isFilter hj, hc]
  cases failedCheck s.params i with
  | some e => rw [runChecked_some, runChecked_some, raiseInvalidParameter_status, raiseInvalidParameter_status, hst]
  | none =>
    simp only [runChecked_none, complete_status, runFilter, writeOut_status, writeTables_status, hst]

/-- A filter command that ends with STATUS 2 passed its checks. -/
theorem failedCheck_of_status {i : Instr} {w h : Word} (hi : isFilter i w h)
    (hst : (result i s).status = 0x00000002#32) : failedCheck s.params i = none := by
  rcases result_of_isFilter_cases hi s with ⟨e, -, hres⟩ | ⟨hc, -⟩
  · have herr : errOf (result i s).status = true := by rw [hres]; exact errOf_statusFaulted ..
    rw [hst] at herr
    exact absurd herr (by decide)
  · exact hc

/-- A COEF entry that a command writes depends on its operands alone. -/
theorem coefEntry_writeTables (i : Instr) (s t : State) (n : Nat) :
    (writeTables i s).coefEntry n = (writeTables i t).coefEntry n ∨
      ((writeTables i s).coefEntry n = s.coefEntry n ∧ (writeTables i t).coefEntry n = t.coefEntry n) := by
  have written (m : Nat) (word : Nat → DWord) : (writeCoef m word s).coefEntry n = (writeCoef m word t).coefEntry n ∨
      ((writeCoef m word s).coefEntry n = s.coefEntry n ∧ (writeCoef m word t).coefEntry n = t.coefEntry n) := by
    rw [coefEntry_writeCoef, coefEntry_writeCoef]
    split
    · exact .inl rfl
    · exact .inr ⟨rfl, rfl⟩
  cases i with
  | gaussian | box | sharpen | genk => exact written _ _
  | identity | edge | gray | unknown | nolaunch => exact .inr ⟨rfl, rfl⟩

/-- Settles O54: the result is a function of the operands and the image, which both runs share. -/
theorem resultsDependOnOperandsAndInputOnly : Obligations.ResultsDependOnOperandsAndInputOnly := by
  intro i w h s1 s2 hi hparams hst1 hst2 hr1 hr2 hd1 hin
  have hchecks : failedCheck s2.params i = failedCheck s1.params i := by rw [hparams]
  have hd2 : s2.bufferDefined w.toNat h.toNat := fun a ha => by rw [State.definedAt, hin a ha]; exact hd1 a ha
  refine ⟨_, _, exec_eq_result i s1, exec_eq_result i s2,
    (status_result_congr hi hi hchecks (hst2.trans hst1.symm)).symm, fun hst => ?_⟩
  have hc1 := failedCheck_of_status hi hst
  have hc2 := hchecks.trans hc1
  refine ⟨fun a ha => ?_, fun n => ?_⟩
  · obtain ⟨x, y, c, hx, hy, h4, rfl⟩ := exists_idx ha
    rw [outByte_result hi hr1 hc1 hd1 hx hy h4, outByte_result hi hr2 hc2 hd2 hx hy h4, image_congr hd1 hin]
  · rw [result_of_isFilter hi, result_of_isFilter hi, hc1, hc2]
    exact coefEntry_writeTables i s1 s2 n

/-! ### Transposition -/

theorem isFilter_transposed {i : Instr} {w h : Word} (hi : isFilter i w h) : isFilter (transposed i) h w := by
  cases i with
  | genk | nolaunch => exact hi.elim
  | identity | gaussian | box | sharpen | edge | gray | unknown => exact hi.symm

theorem checkGeometry_swap (p : Params) (w h : Word) : checkGeometry p h w = checkGeometry p w h := by
  rw [checkGeometry, checkGeometry, geomValid, geomValid, Nat.mul_comm]

theorem failedCheck_transposed (p : Params) (i : Instr) : failedCheck p (transposed i) = failedCheck p i := by
  cases i with
  | genk | nolaunch => rfl
  | identity | box | sharpen | edge | gray | unknown => exact checkGeometry_swap ..
  | gaussian w h k g => exact congrArg (·.or (checkKernel p k g)) (checkGeometry_swap p w h)

/-- Every filter commutes with transposing the image. -/
theorem imageByte_transposed {p : Params} {i : Instr} (hc : failedCheck p i = none) (img : Image) (x y c : Nat) :
    imageByte (transposed i) img.transpose y x c = imageByte i img x y c := by
  cases i with
  | genk | nolaunch | identity | unknown | gray => rfl
  | gaussian w h k g =>
    exact convPixel_transpose (fun _ _ hkx hky => (gaussKernel_contract_of_check hc).2.word_swap hkx hky) img x y c
  | box => exact convPixel_transpose (k := 5) (word := fun _ => boxWeight) (fun _ _ _ _ => rfl) img x y c
  | sharpen => exact convPixel_transpose (k := 3) sharpenWeight_swap img x y c
  | edge => exact edgePixel_transpose _ _ img x y c

/-- Settles O55: the transposed command's result is that of the transposed image. -/
theorem everyFilterCommutesWithTransposition : Obligations.EveryFilterCommutesWithTransposition := by
  intro i w h s t hi hparams hst hst' hr hr' hd ht
  have hi' := isFilter_transposed hi
  have hd' := bufferDefined_of_transposedInput hd ht
  have hchecks : failedCheck t.params (transposed i) = failedCheck s.params i := by
    rw [failedCheck_transposed, hparams]
  refine ⟨_, _, exec_eq_result i s, exec_eq_result (transposed i) t,
    (status_result_congr hi hi' hchecks (hst'.trans hst.symm)).symm, fun hdone x y c hx hy h4 => ?_⟩
  have hc := failedCheck_of_status hi hdone
  rw [outByte_result hi hr hc hd hx hy h4, outByte_result hi' hr' (hchecks.trans hc) hd' hy hx h4,
    image_of_transposedInput hd ht, imageByte_transposed hc]

end Sys2Proof.Machine
end

section
/-! Encoding and decoding of commands (30_encoding R71 to R74), and the rows of the opcode table (R80). -/
namespace Sys2Proof
variable {c : CommandWords}

/-! ### Decoding by launch word and selector -/

/-- The command of a filter launch, by the number of its selector (30_encoding R72, R73). -/
def filterCommand (c : CommandWords) : Nat → Instr
  | 0 => .identity c.width c.height
  | 1 => .gaussian c.width c.height c.ksize (sigmaWord c.sigmaHi c.sigmaLo)
  | 2 => .box c.width c.height
  | 3 => .sharpen c.width c.height
  | 4 => .edge c.width c.height
  | 5 => .gray c.width c.height
  | _ + 6 => .unknown c.fsel c.width c.height

theorem filterCommand_of_six_le {n : Nat} (h : 6 ≤ n) : filterCommand c n = .unknown c.fsel c.width c.height := by
  obtain ⟨k, rfl⟩ := Nat.exists_eq_add_of_le' h
  rfl

theorem decodeFilter_eq_filterCommand (c : CommandWords) : decodeFilter c = filterCommand c c.fsel.toNat := by
  unfold decodeFilter
  split_ifs with h0 h1 h2 h3 h4 h5
  · rw [h0]; rfl
  · rw [h1]; rfl
  · rw [h2]; rfl
  · rw [h3]; rfl
  · rw [h4]; rfl
  · rw [h5]; rfl
  · exact (filterCommand_of_six_le (by bv_omega)).symm

theorem decode_of_start_eq_filterCommand (h : c.launch.getLsbD 0 = true) : decode c = filterCommand c c.fsel.toNat :=
  (decode_of_start h).trans (decodeFilter_eq_filterCommand c)

/-- Settles O2: START leaves the choice to the selector's number, and without it the launch word decides. -/
theorem decodeByLaunchWordAndSelector : Obligations.DecodeByLaunchWordAndSelector := by
  refine fun c => ⟨fun hstart => ?_, decode_of_genk, decode_of_neither⟩
  rw [decode_of_start_eq_filterCommand hstart]
  refine ⟨fun h => ?_, fun h => ?_, fun h => ?_, fun h => ?_, fun h => ?_, fun h => ?_, filterCommand_of_six_le⟩
  all_goals rw [h]; rfl

/-! ### Encoding -/

theorem startWord_start : startWord.getLsbD 0 = true := by decide
theorem genkWord_start : genkWord.getLsbD 0 = false := by decide
theorem genkWord_genk : genkWord.getLsbD 1 = true := by decide

theorem decode_filterWords (f w h : Word) : decode (filterWords f w h) = filterCommand (filterWords f w h) f.toNat :=
  decode_of_start_eq_filterCommand startWord_start

/-- The words of a well-formed command decode to it (30_encoding R71, R73). -/
theorem decode_encode {i : Instr} (hi : i.wellFormed = true) : decode (encode i) = i := by
  cases i with
  | identity w h => exact decode_filterWords 0 w h
  | gaussian w h k g =>
    rw [decode_of_start_eq_filterCommand startWord_start]
    exact congrArg (Instr.gaussian w h k) (sigmaWord_halves g)
  | box w h => exact decode_filterWords 2 w h
  | sharpen w h => exact decode_filterWords 3 w h
  | edge w h => exact decode_filterWords 4 w h
  | gray w h => exact decode_filterWords 5 w h
  | unknown f w h =>
    exact (decode_filterWords f w h).trans (filterCommand_of_six_le (of_decide_eq_true hi))
  | genk k g =>
    rw [decode_of_genk genkWord_start genkWord_genk]
    exact congrArg (Instr.genk k) (sigmaWord_halves g)
  | nolaunch => exact decode_of_neither rfl rfl

/-- Settles O3: the 28 bytes decode as the seven words, and these as the command. -/
theorem decodeBytesOfEncodeIsTheCommand : Obligations.DecodeBytesOfEncodeIsTheCommand := by
  intro i h
  rw [decodeBytes_bytesOfWords, decode_encode h]

/-- Only a selector from 6 up becomes UNKNOWN (30_encoding R72). -/
theorem wellFormed_filterCommand {n : Nat} (h : c.fsel.toNat = n) : (filterCommand c n).wellFormed = true := by
  by_cases h6 : 6 ≤ n
  · rw [filterCommand_of_six_le h6]
    exact decide_eq_true (h ▸ h6)
  · interval_cases n <;> rfl

theorem wellFormed_decode (c : CommandWords) : (decode c).wellFormed = true := by
  cases h0 : c.launch.getLsbD 0 with
  | true => rw [decode_of_start_eq_filterCommand h0]; exact wellFormed_filterCommand rfl
  | false =>
    cases h1 : c.launch.getLsbD 1 with
    | true => rw [decode_of_genk h0 h1]; rfl
    | false => rw [decode_of_neither h0 h1]; rfl

/-- Settles O4: what is decoded is well formed, so its encoding decodes to it. -/
theorem decodedCommandsAreWellFormed : Obligations.DecodedCommandsAreWellFormed :=
  fun c => ⟨wellFormed_decode c, decode_encode (wellFormed_decode c)⟩

/-! ### The opcode table -/

/-- Settles O5: a table word decodes as its seven words do. -/
theorem decodeOfWrittenOutPatterns : Obligations.DecodeOfWrittenOutPatterns := by
  simp only [Obligations.DecodeOfWrittenOutPatterns, Machine.decodeTableWord_64]
  decide

theorem OpcodeRow.covers_iff {r : OpcodeRow} {w : Nat} : r.covers w = true ↔ w &&& r.mask = r.pattern := beq_iff_eq

/-- Two rows that cover one pattern ask the same of it where both masks look. -/
theorem OpcodeRow.pattern_and_mask_of_covers {r r' : OpcodeRow} {w : Nat} (h : r.covers w = true)
    (h' : r'.covers w = true) : r.pattern &&& r'.mask = r'.pattern &&& r.mask := by
  rw [OpcodeRow.covers_iff] at h h'
  rw [← h, ← h', Nat.and_right_comm]

/-- No two rows of the table ask the same of a pattern where both masks look (30_encoding R80). -/
theorem opcodeRows_disjoint : ∀ r ∈ opcodeRows, ∀ r' ∈ opcodeRows,
    r.pattern &&& r'.mask = r'.pattern &&& r.mask → r' = r := by decide +kernel

/-- A selector's row covers every pattern with START and a selector that agrees with it under the mask. -/
theorem covers_filterRow {w : Nat} (mnemonic : String) (mask : Nat) (hodd : w % 2 = 1) :
    (filterRow mnemonic (w / 2 ^ 32 &&& mask) mask).covers w = true := by
  have hdiv (a : Nat) : (a * 2 ^ 32 + 1) / 2 ^ 32 = a := by omega
  have hmod (a : Nat) : (a * 2 ^ 32 + 1) % 2 ^ 32 = 1 := by omega
  refine OpcodeRow.covers_iff.2 (Nat.ext_div_mod (n := 2 ^ 32) ?_ ?_)
  · simp only [filterRow, Nat.and_div_two_pow, hdiv]
  · simp only [filterRow, Nat.and_mod_two_pow, hmod, Nat.and_one_is_mod]
    omega

/-- A mask of the bits from `k` up clears the bits below. -/
theorem and_highMask {f k : Nat} (hf : f < 2 ^ 32) (hk : k ≤ 32) : f &&& (2 ^ 32 - 2 ^ k) = f / 2 ^ k * 2 ^ k := by
  have hpos : 0 < 2 ^ k := Nat.two_pow_pos k
  have hsplit : 2 ^ (32 - k) * 2 ^ k = 2 ^ 32 := by rw [← pow_add, Nat.sub_add_cancel hk]
  have hmask : 2 ^ 32 - 2 ^ k = (2 ^ (32 - k) - 1) * 2 ^ k := by rw [Nat.sub_mul, one_mul, hsplit]
  have hhigh : f / 2 ^ k < 2 ^ (32 - k) := (Nat.div_lt_iff_lt_mul hpos).2 (hsplit ▸ hf)
  rw [hmask]
  refine Nat.ext_div_mod (n := 2 ^ k) ?_ ?_
  · rw [Nat.and_div_two_pow, Nat.mul_div_cancel _ hpos, Nat.mul_div_cancel _ hpos, Nat.and_two_pow_sub_one_eq_mod,
      Nat.mod_eq_of_lt hhigh]
  · rw [Nat.and_mod_two_pow, Nat.mul_mod_left, Nat.mul_mod_left, Nat.and_zero]

/-- Every selector has a row, whose mask keeps the bits from some `k` up: all of them for the named ones, and for the
others those from the highest set bit up, but 6 and 7 share a row. -/
theorem exists_filterRow (c : CommandWords) {f : Nat} (hf : f < 2 ^ 32) :
    ∃ k, filterRow (filterCommand c f).mnemonic (f &&& (2 ^ 32 - 2 ^ k)) (2 ^ 32 - 2 ^ k) ∈ opcodeRows := by
  by_cases h8 : 8 ≤ f
  · have h0 : f ≠ 0 := by omega
    have hlow : 2 ^ f.log2 ≤ f := Nat.log2_self_le h0
    have hk3 : 3 ≤ f.log2 := (Nat.le_log2 h0).2 h8
    have hk32 : f.log2 < 32 := (Nat.log2_lt h0).2 hf
    have htop : f / 2 ^ f.log2 = 1 :=
      Nat.div_eq_of_lt_le (by omega) (by have := Nat.lt_log2_self (n := f); omega)
    refine ⟨f.log2, ?_⟩
    rw [and_highMask hf hk32.le, htop, one_mul, filterCommand_of_six_le (by omega)]
    refine List.mem_append_left _ (List.mem_append_right _ (List.mem_map.2 ⟨f.log2 - 3, ?_, ?_⟩))
    · rw [List.mem_range]; omega
    · rw [Nat.sub_add_cancel hk3]; rfl
  · by_cases h6 : 6 ≤ f
    · refine ⟨1, ?_⟩
      rw [filterCommand_of_six_le h6]
      interval_cases f <;> simp [opcodeRows, Instr.mnemonic]
    · refine ⟨0, ?_⟩
      interval_cases f <;> simp [opcodeRows, filterCommand, Instr.mnemonic]

theorem launch_tableWords {w i : Nat} (hw : w < 2 ^ 64) (hi : i < 32) :
    (tableWords 64 w).launch.getLsbD i = w.testBit i := by
  simp only [tableWords, BitVec.getLsbD_ofNat, Nat.mod_eq_of_lt hw, hi, decide_true, Bool.true_and]

theorem fsel_tableWords {w : Nat} (hw : w < 2 ^ 64) : (tableWords 64 w).fsel.toNat = w / 2 ^ 32 := by
  have hf : w / 2 ^ 32 < 2 ^ 32 := by omega
  simp only [tableWords, Nat.mod_eq_of_lt hw, BitVec.toNat_ofNat, Nat.mod_eq_of_lt hf]

/-- Every pattern is covered by a row that names the command the decoder reads (30_encoding R80). -/
theorem exists_row_of_pattern {w : Nat} (hw : w < 2 ^ 64) :
    ∃ r ∈ opcodeRows, r.covers w = true ∧ (decode (tableWords 64 w)).mnemonic = r.mnemonic := by
  have bit0 := launch_tableWords (i := 0) hw (by omega)
  have bit1 := launch_tableWords (i := 1) hw (by omega)
  have hlow : w &&& 3 = w % 4 := Nat.and_two_pow_sub_one_eq_mod w 2
  rw [Nat.testBit_zero] at bit0
  rw [Nat.testBit_succ, Nat.testBit_zero] at bit1
  by_cases h0 : w % 2 = 1
  · rw [decode_of_start_eq_filterCommand (by rw [bit0]; exact decide_eq_true h0), fsel_tableWords hw]
    obtain ⟨k, hrow⟩ := exists_filterRow (tableWords 64 w) (f := w / 2 ^ 32) (by omega)
    exact ⟨_, hrow, covers_filterRow _ _ h0, rfl⟩
  · rw [decide_eq_false h0] at bit0
    by_cases h1 : w / 2 % 2 = 1
    · rw [decide_eq_true h1] at bit1
      refine ⟨⟨"GENK", 2, 3⟩, by decide, OpcodeRow.covers_iff.2 (hlow.trans ?_),
        by rw [decode_of_genk bit0 bit1]; rfl⟩
      show w % 4 = 2
      omega
    · rw [decide_eq_false h1] at bit1
      refine ⟨⟨"NOLAUNCH", 0, 3⟩, by decide, OpcodeRow.covers_iff.2 (hlow.trans ?_),
        by rw [decode_of_neither bit0 bit1]; rfl⟩
      show w % 4 = 0
      omega

/-- Settles O1: the row that names the command covers the pattern, and no other does. -/
theorem opcodeRowsPartitionAllPatterns : Obligations.OpcodeRowsPartitionAllPatterns := by
  refine ⟨rfl, fun w hw => ?_⟩
  obtain ⟨r, hr, hcovers, hname⟩ := exists_row_of_pattern hw
  exact ⟨r, hr, hcovers,
    fun r' hr' h' => opcodeRows_disjoint r hr r' hr' (OpcodeRow.pattern_and_mask_of_covers hcovers h'),
    _, Machine.decodeTableWord_64 w, hname⟩

end Sys2Proof
end

section
/-! The Host's pseudo-commands WAIT, APPLY, GENKERNEL and COPYBACK, and the CTRL write that launches nothing
(30_encoding R75, R78, R79). -/
namespace Sys2Proof.Machine
variable {s : State}

/-- Settles O9: a CTRL write is dropped while BUSY, and runs NOLAUNCH while idle. -/
theorem nolaunchChangesNoState : Obligations.NolaunchChangesNoState := by
  refine ⟨fun s => rfl, fun s v rest h0 h1 ht hin => ?_⟩
  have hturn := turn_of_ctrl ht hin
  cases hb : s.busy with
  | true => exact step_of_move (hturn.trans (ctrlTurn_of_busy v hb))
  | false => exact step_of_run (hturn.trans (ctrlTurn_of_nolaunch hb (decode_of_neither h0 h1)))

/-! ### WAIT -/

/-- A WAIT with DONE = 1 is one STATUS read. -/
theorem step_of_wait_done {rest : List Input} (hd : s.done = true) (ht : s.transfer = none)
    (hin : s.inputs = .host .wait :: rest) : step s = .next (hostRead 0x04 4 { s with inputs := rest }) :=
  step_of_move ((turn_of_wait ht hin).trans (if_pos hd))

/-- A WAIT with DONE = 0 is the Engine's move. -/
theorem turn_of_wait_not_done {rest : List Input} (hd : s.done = false) (ht : s.transfer = none)
    (hin : s.inputs = .host .wait :: rest) : turn s = engineTurn s :=
  (turn_of_wait ht hin).trans (waitTurn_of_not_done rest hd)

/-- What the STATUS read that ends a WAIT does (20_memory R51, 70 R230, R231). -/
theorem wait_ends {rest : List Input} (hd : s.done = true) (ht : s.transfer = none)
    (hin : s.inputs = .host .wait :: rest) :
    ∃ u, step s = .next u ∧ u.inputs = rest ∧ u.replies = .word s.status :: s.replies ∧ u.pending = false ∧
      u.earlier = [] ∧ u.race = s.race ∧ u.transfer = none ∧ SamePfe s u := by
  refine ⟨_, step_of_wait_done hd ht hin, rfl, rfl, ?_, if_pos hd, rfl, ht, samePfe_hostSide ..⟩
  exact (congrArg (s.pending && !·) hd).trans (Bool.and_false _)

/-- Every launched command ends with BUSY 0 and DONE 1 (46_dispatcher R174). -/
theorem busy_done_result {i : Instr} (s : State) (hi : i ≠ .nolaunch) :
    (result i s).busy = false ∧ (result i s).done = true := by
  rcases result_ends s hi with ⟨e, he⟩ | hc
  · rw [he]
    exact ⟨busyOf_statusFaulted .., doneOf_statusFaulted ..⟩
  · rw [State.busy, State.done, hc]
    exact ⟨busyOf_statusCompleted _, doneOf_statusCompleted _⟩

/-- Settles O12: the Engine's step completes the command, and the WAIT then ends as one that began with DONE = 1. -/
theorem waitEndsAfterTheCommand : Obligations.WaitEndsAfterTheCommand := by
  refine ⟨fun s rest hb hd ht hin => ?_, fun s rest hd ht hin => wait_ends hd ht hin, fun s rest hb hd ht hin => ?_⟩
  · have hkeeps := commandKeeps_result (decode s.desc.words) s
    obtain ⟨hbusy, hdone⟩ := busy_done_result s (decode_descriptor_ne s.desc)
    obtain ⟨u, hstep, hinputs, hreplies, hpending, hearlier, -, -, hpfe⟩ :=
      wait_ends hdone (hkeeps.transfer.trans ht) (hkeeps.inputs.trans hin)
    exact ⟨_, u, step_of_run ((turn_of_wait_not_done hd ht hin).trans (engineTurn_of_busy hb)), hstep, hbusy, hdone,
      hinputs, hkeeps.replies ▸ hreplies, hpending, hearlier, hpfe⟩
  · exact step_of_move ((turn_of_wait_not_done hd ht hin).trans (engineTurn_of_idle hb))

/-! ### Register writes and a launch -/

/-- Register writes, by offset and value. -/
abbrev RegWrites := List (Nat × Word)

/-- The Host's moves that make these register writes. -/
def RegWrites.moves (ws : RegWrites) : List Input := ws.map fun x => wrReg x.1 x.2

/-- The registers after these writes, one after the other. -/
def writeRegs (ws : RegWrites) (s : State) : State := ws.foldl (fun t x => regWrite x.1 4 x.2 t) s

theorem regWrite_inputs (o n : Nat) (v : Word) (s : State) (l : List Input) :
    regWrite o n v { s with inputs := l } = { regWrite o n v s with inputs := l } := by
  rw [regWrite_eq, regWrite_eq]

theorem writeRegs_inputs (ws : RegWrites) (s : State) (l : List Input) :
    writeRegs ws { s with inputs := l } = { writeRegs ws s with inputs := l } := by
  induction ws generalizing s with
  | nil => rfl
  | cons x ws ih => exact (congrArg (writeRegs ws) (regWrite_inputs x.1 4 x.2 s l)).trans (ih _)

/-- Register writes change the parameter registers alone. -/
theorem writeRegs_eq (ws : RegWrites) (s : State) : ∃ f w h k lo hi, writeRegs ws s =
    { s with fsel := f, width := w, height := h, ksize := k, sigmaLo := lo, sigmaHi := hi } := by
  induction ws generalizing s with
  | nil => exact ⟨_, _, _, _, _, _, rfl⟩
  | cons x ws ih =>
    obtain ⟨f, w, h, k, lo, hi, heq⟩ := ih (regWrite x.1 4 x.2 s)
    exact ⟨f, w, h, k, lo, hi, heq.trans (by rw [regWrite_eq])⟩

/-- Writes to registers other than CTRL take one step each. -/
theorem run_of_regWrites {n : Nat} {l : List Input} {ws : RegWrites} (hctrl : ∀ x ∈ ws, x.1 ≠ 0x00)
    (ht : s.transfer = none) (hin : s.inputs = ws.moves ++ l) :
    core.run (ws.length + n) s = core.run n { writeRegs ws s with inputs := l } := by
  induction ws generalizing s with
  | nil =>
    subst hin
    rw [List.length_nil, Nat.zero_add]
    rfl
  | cons x ws ih =>
    obtain ⟨hx, hws⟩ := List.forall_mem_cons.1 hctrl
    have hstep : step s = .next { regWrite x.1 4 x.2 s with inputs := RegWrites.moves ws ++ l } :=
      (step_of_write ht hin hx).trans (congrArg _ (regWrite_inputs ..))
    have ht' : (regWrite x.1 4 x.2 s).transfer = none := by rw [regWrite_eq]; exact ht
    have hrest := ih (s := { regWrite x.1 4 x.2 s with inputs := RegWrites.moves ws ++ l }) hws ht' rfl
    rw [writeRegs_inputs] at hrest
    rw [List.length_cons, Nat.add_right_comm, core_run_succ _ hstep]
    exact hrest

/-- A CTRL write that sets START or GENK puts in flight the command that it and the registers encode
(46_dispatcher R171). -/
theorem step_of_launch_fetches {v : Word} {rest : List Input} (hb : s.busy = false)
    (hv : v.getLsbD 0 = true ∨ v.getLsbD 1 = true) (ht : s.transfer = none) (hin : s.inputs = wrReg 0x00 v :: rest) :
    ∃ k, step s = .next (launch k { s with inputs := rest }) ∧
      fetch (launch k { s with inputs := rest }) = some (decode (wordsAt v s)) := by
  have hturn := (turn_of_ctrl ht hin).trans (ctrlTurn_of_idle (s := { s with inputs := rest }) v hb)
  cases h0 : v.getLsbD 0 with
  | true =>
    rw [if_pos h0] at hturn
    exact ⟨.filter, step_of_move hturn, (fetch_beginCommand ..).trans (congrArg some (decode_latched_filter s h0))⟩
  | false =>
    have h1 : v.getLsbD 1 = true := hv.resolve_left (by rw [h0]; exact Bool.false_ne_true)
    rw [h0, if_neg Bool.false_ne_true, if_pos h1] at hturn
    exact ⟨.generate, step_of_move hturn,
      (fetch_beginCommand ..).trans (congrArg some (decode_latched_generate s h0 h1))⟩

/-- Register writes and then a launching CTRL write put in flight the command that the registers then encode, and change
no memory. -/
theorem run_of_regWrites_launch {v : Word} {l : List Input} {ws : RegWrites} (hctrl : ∀ x ∈ ws, x.1 ≠ 0x00)
    (hv : v.getLsbD 0 = true ∨ v.getLsbD 1 = true) (hb : s.busy = false) (ht : s.transfer = none)
    (hin : s.inputs = ws.moves ++ wrReg 0x00 v :: l) :
    ∃ n t, core.run n s = .next t ∧ t.inputs = l ∧ fetch t = some (decode (wordsAt v (writeRegs ws s))) ∧
      t.inMem = s.inMem ∧ t.outMem = s.outMem ∧ t.coef = s.coef ∧ t.luma = s.luma := by
  have hrun := run_of_regWrites (n := 1) hctrl ht hin
  obtain ⟨f, w, h, k, lo, hi, heq⟩ := writeRegs_eq ws s
  rw [heq] at hrun ⊢
  obtain ⟨kind, hstep, hfetch⟩ := step_of_launch_fetches
    (s := { s with
      fsel := f, width := w, height := h, ksize := k, sigmaLo := lo, sigmaHi := hi, inputs := wrReg 0x00 v :: l })
    hb hv ht rfl
  exact ⟨_, _, hrun.trans (core_run_succ 0 hstep), rfl, hfetch, rfl, rfl, rfl, rfl⟩

/-! ### APPLY and GENKERNEL -/

/-- The two register writes of a sigma word (30_encoding R78). -/
def sigmaWrites (sigma : DWord) : RegWrites := [(0x18, sigmaLow sigma), (0x1C, sigmaHigh sigma)]

/-- The register writes that encode a Filter Spec (30_encoding R79). -/
def specWrites (f : FilterSpec) : RegWrites :=
  match f with
  | .identity => [(0x08, 0)]
  | .gaussian k g => [(0x08, 1), (0x14, k)] ++ sigmaWrites g
  | .box => [(0x08, 2)]
  | .sharpen => [(0x08, 3)]
  | .edgeDetect => [(0x08, 4)]
  | .grayscale => [(0x08, 5)]
  | .unrecognised u => [(0x08, u)]

/-- The register writes of APPLY (30_encoding R78). -/
def applyWrites (f : FilterSpec) (w h : Word) : RegWrites := [(0x0C, w), (0x10, h)] ++ specWrites f

/-- The register writes of GENKERNEL (30_encoding R78). -/
def genKernelWrites (size : Word) (sigma : DWord) : RegWrites := (0x14, size) :: sigmaWrites sigma

theorem applyMoves_eq (f : FilterSpec) (w h : Word) :
    applyMoves f w h = (applyWrites f w h).moves ++ [wrReg 0x00 startWord, .host .wait] := by
  cases f <;> rfl

theorem genKernelMoves_eq (size : Word) (sigma : DWord) :
    genKernelMoves size sigma = (genKernelWrites size sigma).moves ++ [wrReg 0x00 genkWord, .host .wait] := rfl

theorem applyWrites_ne_ctrl (f : FilterSpec) (w h : Word) : ∀ x ∈ applyWrites f w h, x.1 ≠ 0x00 := by
  cases f <;> simp [applyWrites, specWrites, sigmaWrites]

theorem genKernelWrites_ne_ctrl (size : Word) (sigma : DWord) : ∀ x ∈ genKernelWrites size sigma, x.1 ≠ 0x00 := by
  simp [genKernelWrites, sigmaWrites]

/-- START after the writes of APPLY encodes the command of the Filter Spec (30_encoding R79). -/
theorem decode_applyWrites {f : FilterSpec} (w h : Word) (s : State) (hf : f.Encodable) :
    decode (wordsAt startWord (writeRegs (applyWrites f w h) s)) = f.command w h := by
  rw [decode_of_start_eq_filterCommand startWord_start]
  cases f with
  | gaussian k g => exact congrArg (Instr.gaussian w h k) (sigmaWord_halves g)
  | unrecognised u => exact filterCommand_of_six_le hf
  | identity | box | sharpen | edgeDetect | grayscale => rfl

/-- GENK after the writes of GENKERNEL encodes the generator's command. -/
theorem decode_genKernelWrites (size : Word) (sigma : DWord) (s : State) :
    decode (wordsAt genkWord (writeRegs (genKernelWrites size sigma) s)) = .genk size sigma := by
  rw [decode_of_genk genkWord_start genkWord_genk]
  exact congrArg (Instr.genk size) (sigmaWord_halves sigma)

/-- Settles O13: APPLY is register writes and START, which launches what the registers then encode. -/
theorem applyLaunchesTheFilterSpec : Obligations.ApplyLaunchesTheFilterSpec := by
  intro f w h s hf hb ht hin
  have hrun := run_of_regWrites_launch (applyWrites_ne_ctrl f w h) (.inl startWord_start) hb ht
    (hin.trans (applyMoves_eq f w h))
  rwa [decode_applyWrites w h s hf] at hrun

/-- Settles O14: GENKERNEL is register writes and GENK, which launches what the registers then encode. -/
theorem genKernelLaunchesTheGenerator : Obligations.GenKernelLaunchesTheGenerator := by
  intro size sigma s hb ht hin
  have hrun := run_of_regWrites_launch (genKernelWrites_ne_ctrl size sigma) (.inr genkWord_genk) hb ht
    (hin.trans (genKernelMoves_eq size sigma))
  rwa [decode_genKernelWrites] at hrun

/-! ### COPYBACK -/

/-- The read of a COPYBACK line, with no command pending, records the byte of OUT and leaves its write to IN as the
access in progress (30_encoding R78, 20_memory R51). -/
theorem copyByteBack_of_not_pending {i : Nat} (hp : s.pending = false) (hi : i < s.params.sampleBytes) :
    copyByteBack i s =
      { s with
        draws := s.draws + 1, replies := .bytes [s.outByte i] :: s.replies,
        transfer := some (.store i [s.outByte i]) } := by
  have hread : readByte .output i s = s.outByte i := by rw [readByte, loadByte_output_of_not_pending hp hi]; rfl
  rw [← hread]
  rfl

/-- With no command pending a write to IN changes nothing of the PFE but IN. -/
theorem samePfe_storeByte_of_not_pending (i : Nat) (b : Byte) (hp : s.pending = false) :
    SamePfe s { storeByte i b s with inMem := s.inMem } := by
  rw [storeByte_of_not_pending i b hp]
  exact samePfe_hostSide ..

/-- Settles O15: the read is `copyByteBack`, and the write it leaves is `storeByte`. -/
theorem copyBackLineCopiesOneByte : Obligations.CopyBackLineCopiesOneByte := by
  intro s i rest hp hi ht hin
  have hread := step_of_host ht hin nofun rfl
  rw [copyByteBack_of_not_pending (s := { s with inputs := rest }) hp hi] at hread
  refine ⟨_, hread, samePfe_hostSide .., rfl, rfl, rfl, fun hrest => ?_⟩
  refine ⟨_, step_of_nextStore_cons (.inr ⟨rfl, hostContinues_of_hostNext hrest, afterByte_of_hostNext hrest⟩), ?_, ?_,
    ?_, rfl, rfl⟩
  · exact (inByte_storeByte ..).trans (if_pos ⟨rfl, hi⟩)
  · exact fun a ha => (inByte_storeByte ..).trans (if_neg fun h => ha h.1)
  · exact samePfe_storeByte_of_not_pending i _ hp

end Sys2Proof.Machine
end

section
/-! The Kernel Generator: GENK and what the contract of GaussKernel says of its words (41_kernel_generator R90 to R98). -/
namespace Sys2Proof.Machine

/-! ### Sigma -/

theorem magnitude64_nonneg (b : DWord) : 0 ≤ magnitude64 b := by
  unfold magnitude64
  split <;> rw [scaleTwo_eq] <;> positivity

/-- The two words without exponent and fraction are the zeros. -/
theorem magnitude64_eq_zero {b : DWord} (h : b.extractLsb' 0 63 = 0) : magnitude64 b = 0 := by
  have hlow : b.toNat % 2 ^ 63 = 0 := by simpa using congrArg BitVec.toNat h
  have hexp : biasedExp b = 0 := by rw [biasedExp_toNat]; omega
  have hfrac : fraction b = 0 := by rw [fraction_toNat]; omega
  rw [magnitude64_of_subnormal hexp, hfrac, Nat.cast_zero, mul_zero]

/-- The sigma that the bit test of R192 accepts is the finite positive one. -/
theorem goodSigma_iff {g : DWord} : GoodSigma g ↔ sigmaValid g = true := by
  refine ⟨fun ⟨q, hq, hpos⟩ => ?_, val64_of_sigmaValid⟩
  have hfinite := isFinite64_of_val64 hq
  rw [val64, if_pos hfinite, Option.some.injEq] at hq
  have hmag := magnitude64_nonneg g
  have hsign : signBit g = false := by
    by_contra hs
    rw [if_pos (Bool.eq_true_of_not_eq_false hs)] at hq
    linarith
  have hlow : g.extractLsb' 0 63 ≠ 0 := fun hz => by
    rw [hsign, magnitude64_eq_zero hz] at hq
    exact hpos.ne hq
  rw [sigmaValid, hsign, hfinite, bne_iff_ne.2 hlow]
  rfl

/-! ### The checks of GENK -/

theorem checkKernel_of_badSize {p : Params} {k : Word} (g : DWord) (h : ¬ GoodSize p k) :
    checkKernel p k g = some .ksize := by
  have hk : ksizeValid p k = false := by
    rw [Bool.eq_false_iff]
    exact fun hv => h (by simpa [ksizeValid, GoodSize] using hv)
  rw [checkKernel, hk]
  rfl

theorem checkKernel_of_badSigma {p : Params} {k : Word} {g : DWord} (hk : GoodSize p k) (hg : ¬ GoodSigma g) :
    checkKernel p k g = some .sigma := by
  have hv : ksizeValid p k = true := by simpa [ksizeValid, GoodSize] using hk
  rw [checkKernel, if_pos hv, if_neg (mt goodSigma_iff.2 hg)]

theorem checkKernel_of_good {p : Params} {k : Word} {g : DWord} (hk : GoodSize p k) (hg : GoodSigma g) :
    checkKernel p k g = none := checkKernel_eq_none.2 ⟨hk, goodSigma_iff.1 hg⟩

/-- A command whose first failing check is `e` ends in the fault of `e` (60_exceptions R194). -/
theorem endsInFault_of_result {i : Instr} {s : State} {e : ParamError} (h : result i s = raiseInvalidParameter e s) :
    EndsInFault i s (ecodeOf e) :=
  ⟨_, (exec_eq_result i s).trans (congrArg _ h), busyOf_statusFaulted .., doneOf_statusFaulted ..,
    errOf_statusFaulted .., ecodeField_statusFaulted .., fun _ hj => getLsbD_statusFaulted _ _ hj⟩

theorem result_genk_of_check {k : Word} {g : DWord} {s : State} {e : ParamError}
    (h : checkKernel s.params k g = some e) : result (.genk k g) s = raiseInvalidParameter e s := by
  rw [result, h, runChecked_some]

/-- GENK with good operands writes the words of GaussKernel and completes. -/
theorem result_genk_of_good {k : Word} {g : DWord} {s : State} (hk : GoodSize s.params k) (hg : GoodSigma g) :
    result (.genk k g) s = complete (generateKernel k.toNat g s) := by
  rw [result, checkKernel_of_good hk hg, runChecked_none]

theorem completedStatus_complete {s t : State} (h : t.status = s.status) : CompletedStatus s (complete t) := by
  rw [CompletedStatus, complete_status, h]
  exact ⟨busyOf_statusCompleted _, doneOf_statusCompleted _, fun _ hi => getLsbD_statusCompleted _ hi⟩

/-! ### What the contract says of a kernel's words -/

/-- The contract is about the words of the kernel's cells alone. -/
theorem KernelContract.congr {k : Nat} {g : DWord} {w w' : Nat → DWord} (hw : KernelContract k g w)
    (h : ∀ i < k * k, w' i = w i) : KernelContract k g w' where
  accurate x y hx hy := by rw [h _ (cell_lt hx hy)]; exact hw.accurate x y hx hy
  nonneg i hi := by rw [h i hi]; exact hw.nonneg i hi
  radial x y x' y' hx hy hx' hy' hd := by
    rw [h _ (cell_lt hx hy), h _ (cell_lt hx' hy')]
    exact hw.radial x y x' y' hx hy hx' hy' hd
  monotone x y x' y' hx hy hx' hy' hd := by
    rw [h _ (cell_lt hx hy), h _ (cell_lt hx' hy')]
    exact hw.monotone x y x' y' hx hy hx' hy' hd
  sizeOne h1 := by rw [h 0 (by simp [h1])]; exact hw.sizeOne h1

theorem coefEntry_generateKernel {k i : Nat} (g : DWord) (s : State) (hi : i < k * k) :
    (generateKernel k g s).coefEntry i = Config.gaussKernel.words k g i :=
  (coefEntry_writeCoef ..).trans (if_pos hi)

/-- The kernel that GENK leaves in COEF is within the contract. -/
theorem kernelContract_generateKernel {k : Nat} {g : DWord} (s : State) (hk : k % 2 = 1) (hg : GoodSigma g) :
    KernelContract k g (generateKernel k g s).coefEntry :=
  (Config.gaussKernel.contract k g hk (goodSigma_iff.1 hg)).congr fun _ hi => coefEntry_generateKernel g s hi

/-- Settles O50: the two checks in order, then one write of the words of GaussKernel to COEF. -/
theorem genkWritesAKernelWithinTheContract : Obligations.GenkWritesAKernelWithinTheContract := by
  intro k g s
  refine ⟨fun hk => endsInFault_of_result (result_genk_of_check (checkKernel_of_badSize g hk)),
    fun hk hg => endsInFault_of_result (result_genk_of_check (checkKernel_of_badSigma hk hg)), fun hk hg => ?_⟩
  have hwrites : WritesBelow 0 (k.toNat * k.toNat) 0 s (generateKernel k.toNat g s) := writesBelow_writeCoef ..
  obtain ⟨hout, hcoef, hluma⟩ := hwrites
  refine ⟨_, (exec_eq_result ..).trans (congrArg _ (result_genk_of_good hk hg)), completedStatus_complete rfl,
    (commandKeeps_writeCoef ..).trans (commandKeeps_complete _), fun _ hi => coefEntry_generateKernel g s hi,
    kernelContract_generateKernel s hk.1 hg, hcoef, hout, hluma⟩

/-! ### Symmetry and falloff -/

/-- The offset of a column or row from the centre, squared, is the same for its mirror image. -/
theorem dist2_flipX {k x : Nat} (hk : k % 2 = 1) (hx : x < k) (y : Nat) : dist2 k (k - 1 - x) y = dist2 k x y := by
  have hmirror : ((k - 1 - x : Nat) : Int) - (k / 2 : Nat) = -((x : Int) - (k / 2 : Nat)) := by omega
  rw [dist2, dist2, hmirror, neg_sq]

theorem dist2_swap (k x y : Nat) : dist2 k y x = dist2 k x y := by rw [dist2, dist2, add_comm]

theorem dist2_flipY {k y : Nat} (hk : k % 2 = 1) (hy : y < k) (x : Nat) : dist2 k x (k - 1 - y) = dist2 k x y := by
  rw [dist2_swap, dist2_flipX hk hy, dist2_swap]

/-- No column or row is farther from the centre than the first. -/
theorem offset_sq_le {k x : Nat} (hx : x < k) :
    ((x : Int) - (k / 2 : Nat)) ^ 2 ≤ (((0 : Nat) : Int) - (k / 2 : Nat)) ^ 2 := by
  rw [Nat.cast_zero, zero_sub, neg_sq]
  exact sq_le_sq' (by omega) (by omega)

theorem dist2_le_corner {k x y : Nat} (hx : x < k) (hy : y < k) : dist2 k x y ≤ dist2 k 0 0 :=
  Int.toNat_le_toNat (add_le_add (offset_sq_le hx) (offset_sq_le hy))

theorem weightOf_nonneg {b : DWord} (h : signBit b = false) : 0 ≤ weightOf b := by
  unfold weightOf val64
  split
  next => rw [h]; exact magnitude64_nonneg b
  next => exact le_rfl

/-- R95 and R96 together: no weight exceeds that of a cell that is at least as near. -/
theorem KernelContract.weightOf_le {k : Nat} {g : DWord} {w : Nat → DWord} (hw : KernelContract k g w)
    (hg : GoodSigma g) {x y x' y' : Nat} (hx : x < k) (hy : y < k) (hx' : x' < k) (hy' : y' < k)
    (hd : dist2 k x y ≤ dist2 k x' y') : weightOf (w (y' * k + x')) ≤ weightOf (w (y * k + x)) := by
  have hval (x y : Nat) (hx : x < k) (hy : y < k) := val64_eq_weightOf (hw.word_finite (goodSigma_iff.1 hg) (cell_lt hx hy))
  rcases hd.lt_or_eq with hlt | heq
  · exact hw.monotone x y x' y' hx hy hx' hy' hlt _ _ (hval x y hx hy) (hval x' y' hx' hy')
  · rw [hw.radial x y x' y' hx hy hx' hy' heq]

/-- Settles O51: mirrored cells are equally far from the centre, which is the nearest cell, as a corner is the farthest. -/
theorem generatedKernelIsSymmetricAndFallsOff : Obligations.GeneratedKernelIsSymmetricAndFallsOff := by
  intro k g s hk hg
  have hodd := hk.1
  have hw : KernelContract k.toNat g (complete (generateKernel k.toNat g s)).coefEntry :=
    kernelContract_generateKernel s hodd hg
  refine ⟨_, (exec_eq_result ..).trans (congrArg _ (result_genk_of_good hk hg)), fun x y hx hy => ?_⟩
  have hcentre : k.toNat / 2 < k.toNat := by omega
  refine ⟨hw.word_swap hy hx, ?_, ?_, ?_, ?_, weightOf_nonneg (hw.nonneg _ (cell_lt hx hy))⟩
  · exact hw.radial _ _ _ _ hx hy (by omega) hy (dist2_flipX hodd hx y).symm
  · exact hw.radial _ _ _ _ hx hy hx (by omega) (dist2_flipY hodd hy x).symm
  · exact hw.weightOf_le hg hcentre hcentre hx hy (by rw [dist2_centre]; exact Nat.zero_le _)
  · simpa using hw.weightOf_le hg hx hy (x' := 0) (y' := 0) (by omega) (by omega) (dist2_le_corner hx hy)

end Sys2Proof.Machine
end

section
/-! The ideal weights of a Gaussian kernel, which sum to 1, and so the sum of a generated kernel's weights
(41_kernel_generator R91, R97). -/
namespace Sys2Proof.Machine
variable {σ : ℚ} {k : Nat}

/-! ### Sums over the cells of a kernel -/

theorem cellSum_const (k : Nat) (c : ℝ) : cellSum k (fun _ _ => c) = (k * k : Nat) * c := by
  simp only [cellSum, Finset.sum_const, Finset.card_range, nsmul_eq_mul]
  push_cast
  ring

theorem cellSum_div (k : Nat) (f : Nat → Nat → ℝ) (c : ℝ) : cellSum k (fun x y => f x y / c) = cellSum k f / c := by
  simp only [cellSum, Finset.sum_div]

/-- Two sums over cells that agree within `ε` agree within `k*k*ε`. -/
theorem abs_cellSum_sub_le {f g : Nat → Nat → ℝ} {ε : ℝ} (h : ∀ x y, x < k → y < k → |f x y - g x y| ≤ ε) :
    |cellSum k f - cellSum k g| ≤ (k * k : Nat) * ε := by
  have hsub : cellSum k f - cellSum k g = cellSum k fun x y => f x y - g x y := by
    simp only [cellSum, Finset.sum_sub_distrib]
  have habs : |cellSum k fun x y => f x y - g x y| ≤ cellSum k fun x y => |f x y - g x y| :=
    (Finset.abs_sum_le_sum_abs ..).trans (Finset.sum_le_sum fun _ _ => Finset.abs_sum_le_sum_abs ..)
  rw [hsub, ← cellSum_const]
  exact habs.trans (cellSum_mono k _ _ h)

/-- No cell's value exceeds the sum of values that are not negative. -/
theorem le_cellSum {f : Nat → Nat → ℝ} (hf : ∀ x y, 0 ≤ f x y) {x y : Nat} (hx : x < k) (hy : y < k) :
    f x y ≤ cellSum k f :=
  calc f x y ≤ ∑ x ∈ Finset.range k, f x y :=
        Finset.single_le_sum (f := fun x => f x y) (fun x _ => hf x y) (Finset.mem_range.2 hx)
    _ ≤ cellSum k f :=
        Finset.single_le_sum (f := fun y => ∑ x ∈ Finset.range k, f x y) (fun y _ => Finset.sum_nonneg fun x _ => hf x y)
          (Finset.mem_range.2 hy)

/-! ### The ideal weights -/

/-- The Gaussian value of a cell, 1 at the centre: the factor `1/(2πσ²)` cancels in the weight (R99). -/
noncomputable def gaussValue (σ : ℚ) (k x y : Nat) : ℝ := Real.exp (-((gaussArg σ k x y : ℚ) : ℝ))

/-- The ideal weight of a cell (R91, R99). -/
noncomputable def idealWeight (σ : ℚ) (k x y : Nat) : ℝ := gaussValue σ k x y / cellSum k (gaussValue σ k)

theorem eq_idealWeight (hσ : 0 < σ) {x y : Nat} {ω : ℝ} (h : IsIdealWeight k σ x y ω) : ω = idealWeight σ k x y :=
  isIdealWeight_eq hσ h

theorem isIdealWeight_idealWeight (hσ : 0 < σ) (k x y : Nat) : IsIdealWeight k σ x y (idealWeight σ k x y) :=
  (isIdealWeight_eq hσ rfl).symm

theorem gaussValue_pos (σ : ℚ) (k x y : Nat) : 0 < gaussValue σ k x y := Real.exp_pos _

theorem gaussValue_le_one (σ : ℚ) (k x y : Nat) : gaussValue σ k x y ≤ 1 :=
  Real.exp_le_one_iff.2 (neg_nonpos.2 (Rat.cast_nonneg.2 (gaussArg_nonneg ..)))

theorem gaussValue_of_dist2 {x y : Nat} (h : dist2 k x y = 0) : gaussValue σ k x y = 1 := by
  simp [gaussValue, gaussArg, h]

/-- The centre alone gives 1. -/
theorem one_le_cellSum_gaussValue (σ : ℚ) (hk : 0 < k) : 1 ≤ cellSum k (gaussValue σ k) := by
  have hcentre : k / 2 < k := Nat.div_lt_self hk one_lt_two
  rw [← gaussValue_of_dist2 (σ := σ) (dist2_centre k)]
  exact le_cellSum (fun x y => (gaussValue_pos σ k x y).le) hcentre hcentre

theorem cellSum_idealWeight (σ : ℚ) (hk : 0 < k) : cellSum k (idealWeight σ k) = 1 := by
  have hsum := one_le_cellSum_gaussValue σ hk
  exact (cellSum_div ..).trans (div_self (by linarith))

/-! ### The sum of a kernel's weights -/

/-- R93 with the value of a word: each weight is within `2^-40` of the ideal one. -/
theorem KernelContract.abs_weightOf_sub_le {g : DWord} {w : Nat → DWord} (hw : KernelContract k g w)
    (hσ : val64 g = some σ) (hpos : 0 < σ) {x y : Nat} (hx : x < k) (hy : y < k) :
    |(weightOf (w (y * k + x)) : ℝ) - idealWeight σ k x y| ≤ 1 / 2 ^ 40 := by
  obtain ⟨q, hq, hacc⟩ := hw.accurate x y hx hy σ hσ _ (isIdealWeight_idealWeight hpos k x y)
  rw [weightOf, hq]
  exact hacc

/-- R97 for any kernel within the contract. -/
theorem KernelContract.abs_sum_sub_one_le {g : DWord} {w : Nat → DWord} (hw : KernelContract k g w) (hg : GoodSigma g)
    (hk : 0 < k) : |cellSum k (fun x y => weightOf (w (y * k + x))) - 1| ≤ (k * k : Nat) * (1 / 2 ^ 40) := by
  obtain ⟨σ, hσ, hpos⟩ := hg
  have h := abs_cellSum_sub_le fun x y hx hy => hw.abs_weightOf_sub_le hσ hpos hx hy
  rw [cellSum_idealWeight σ hk, ← cellSum_cast] at h
  rw [← Rat.cast_le (K := ℝ)]
  push_cast at h ⊢
  exact h

/-- Settles O52: every weight is within `2^-40` of the ideal one, and the ideal ones sum to 1. -/
theorem generatedKernelSumsToOne : Obligations.GeneratedKernelSumsToOne := by
  intro p k g hodd _ hg
  have hw := Config.gaussKernel.contract k g hodd (goodSigma_iff.1 hg)
  refine ⟨hw.abs_sum_sub_one_le hg (by omega), fun hk => ?_⟩
  have hsq : ((k * k : Nat) : ℚ) ≤ 441 := by exact_mod_cast Nat.mul_le_mul hk hk
  linarith

end Sys2Proof.Machine
end

section
/-! The special-case kernels of the reference realisation (41_kernel_generator R100): a kernel that depends on the distance
from the centre alone, and near its limiting shape (R103), is within the contract. -/
namespace Sys2Proof.Machine
variable {σ : ℚ} {k : Nat}

/-! ### Kernels near a limiting shape -/

/-- Where every Gaussian value is within `ε` of a shape `p`, every ideal weight is within `(k*k+1)*ε` of that of the
normalised shape (R103). -/
theorem abs_idealWeight_sub_le {p : Nat → Nat → ℝ} {ε : ℝ} (hk : 0 < k) (hp : ∀ x y, 0 ≤ p x y)
    (hsum : 1 ≤ cellSum k p) (hε : ∀ x y, x < k → y < k → |gaussValue σ k x y - p x y| ≤ ε) {x y : Nat} (hx : x < k) (hy : y < k) :
    |p x y / cellSum k p - idealWeight σ k x y| ≤ ((k * k : Nat) + 1) * ε := by
  have hS := one_le_cellSum_gaussValue σ hk
  have hdiff := abs_cellSum_sub_le hε
  have hshare : p x y / cellSum k p ≤ 1 := (div_le_one (by linarith)).2 (le_cellSum hp hx hy)
  have hcell := hε x y hx hy
  rw [idealWeight]
  generalize cellSum k (gaussValue σ k) = S at *
  generalize cellSum k p = P at *
  generalize gaussValue σ k x y = v at *
  have hsplit : p x y / P - v / S = (p x y / P * (S - P) - (v - p x y)) / S := by field_simp; ring
  have hnum : |p x y / P * (S - P) - (v - p x y)| ≤ ((k * k : Nat) + 1) * ε :=
    calc |p x y / P * (S - P) - (v - p x y)| ≤ |p x y / P * (S - P)| + |v - p x y| := abs_sub _ _
      _ ≤ 1 * |S - P| + |v - p x y| := by
        rw [abs_mul, abs_of_nonneg (div_nonneg (hp x y) (by linarith))]
        gcongr
      _ ≤ ((k * k : Nat) + 1) * ε := by linarith
  rw [hsplit, abs_div, abs_of_pos (by linarith : 0 < S)]
  exact (div_le_self (abs_nonneg _) hS).trans hnum

/-- A kernel whose words depend on the distance from the centre alone, are not negative, do not grow with it and are
accurate is within the contract. -/
theorem kernelContract_of_dist2 {g : DWord} {w word : Nat → DWord} (hσ : val64 g = some σ) (hpos : 0 < σ) (hk : 0 < k)
    (hw : ∀ x y, x < k → y < k → w (y * k + x) = word (dist2 k x y)) (hfinite : ∀ d, isFinite64 (word d) = true)
    (hsign : ∀ d, signBit (word d) = false) (hfall : Antitone fun d => weightOf (word d))
    (hacc : ∀ x y, x < k → y < k → |(weightOf (word (dist2 k x y)) : ℝ) - idealWeight σ k x y| ≤ 1 / 2 ^ 40)
    (hone : k = 1 → word 0 = 0x3FF0000000000000#64) : KernelContract k g w where
  accurate x y hx hy σ' hσ' ω hω := by
    obtain rfl : σ = σ' := Option.some.inj (hσ.symm.trans hσ')
    rw [hw x y hx hy, eq_idealWeight hpos hω]
    exact ⟨_, val64_eq_weightOf (hfinite _), hacc x y hx hy⟩
  nonneg i hi := by
    rw [← Nat.div_add_mod' i k, hw _ _ (Nat.mod_lt i hk) (Nat.div_lt_of_lt_mul hi)]
    exact hsign _
  radial x y x' y' hx hy hx' hy' hd := by rw [hw x y hx hy, hw x' y' hx' hy', hd]
  monotone x y x' y' hx hy hx' hy' hd q q' hq hq' := by
    rw [hw x y hx hy, val64_eq_weightOf (hfinite _)] at hq
    rw [hw x' y' hx' hy', val64_eq_weightOf (hfinite _)] at hq'
    rw [← Option.some.inj hq, ← Option.some.inj hq']
    exact hfall hd.le
  sizeOne h1 := by
    subst h1
    exact (hw 0 0 hk hk).trans (hone rfl)

/-- The number of cells of a kernel whose size fits KSIZE. -/
theorem cells_le (hk32 : k < 2 ^ 32) : k * k ≤ 2 ^ 64 :=
  calc k * k ≤ 2 ^ 32 * 2 ^ 32 := Nat.mul_le_mul hk32.le hk32.le
    _ = 2 ^ 64 := by norm_num

/-! ### A tiny sigma -/

/-- The word of a cell for a tiny sigma, by its squared distance from the centre. -/
def tinySigmaWord (d : Nat) : DWord := if d = 0 then 0x3FF0000000000000#64 else 0x0000000000000000#64

theorem weightOf_tinySigmaWord (d : Nat) : weightOf (tinySigmaWord d) = if d = 0 then 1 else 0 := by
  unfold tinySigmaWord
  split <;> decide +kernel

theorem dist2_eq_zero_iff {x y : Nat} : dist2 k x y = 0 ↔ x = k / 2 ∧ y = k / 2 := by
  have hx := sq_nonneg ((x : Int) - (k / 2 : Nat))
  have hy := sq_nonneg ((y : Int) - (k / 2 : Nat))
  rw [dist2, Int.toNat_eq_zero, (add_nonneg hx hy).ge_iff_eq', add_eq_zero_iff_of_nonneg hx hy, sq_eq_zero_iff,
    sq_eq_zero_iff]
  omega

theorem cell_index_eq_iff {x y x' y' : Nat} (hx : x < k) (hx' : x' < k) :
    y * k + x = y' * k + x' ↔ x = x' ∧ y = y' := by
  refine ⟨fun h => ?_, by rintro ⟨rfl, rfl⟩; rfl⟩
  have hxx : x = x' := by
    simpa [Nat.mul_add_mod', Nat.mod_eq_of_lt hx, Nat.mod_eq_of_lt hx'] using congrArg (· % k) h
  subst hxx
  exact ⟨rfl, Nat.eq_of_mul_eq_mul_right (Nat.zero_lt_of_lt hx) (Nat.add_right_cancel h)⟩

theorem getElem?_tinySigmaKernel {x y : Nat} (hx : x < k) (hy : y < k) :
    (tinySigmaKernel k)[y * k + x]? = some (tinySigmaWord (dist2 k x y)) := by
  have hc : k / 2 < k := Nat.div_lt_self (Nat.zero_lt_of_lt hx) one_lt_two
  simp only [tinySigmaKernel, List.getElem?_map, List.getElem?_range (cell_lt hx hy), Option.map_some, tinySigmaWord,
    dist2_eq_zero_iff, cell_index_eq_iff hx hc, BitVec.ofNat_eq_ofNat]

/-- The limiting shape for a tiny sigma: 1 at the centre and 0 elsewhere (R103). -/
def centreShape (k x y : Nat) : ℝ := if dist2 k x y = 0 then 1 else 0

theorem centreShape_nonneg (k x y : Nat) : 0 ≤ centreShape k x y := by
  unfold centreShape
  split
  · exact zero_le_one
  · exact le_rfl

theorem cellSum_centreShape (hk : 0 < k) : cellSum k (centreShape k) = 1 := by
  have hcentre : k / 2 < k := Nat.div_lt_self hk one_lt_two
  simp [cellSum, centreShape, dist2_eq_zero_iff, ite_and, hcentre]

theorem weightOf_tinySigmaWord_dist2 (k x y : Nat) :
    ((weightOf (tinySigmaWord (dist2 k x y)) : ℚ) : ℝ) = centreShape k x y := by
  rw [weightOf_tinySigmaWord, centreShape]
  split
  · exact Rat.cast_one
  · exact Rat.cast_zero

/-- Off the centre the argument of the exponential is large for a small sigma. -/
theorem le_gaussArg {x y : Nat} (hpos : 0 < σ) (hσ : σ ≤ 1 / 2 ^ 100) (hd : dist2 k x y ≠ 0) :
    2 ^ 110 ≤ gaussArg σ k x y := by
  have hd1 : (1 : ℚ) ≤ dist2 k x y := by exact_mod_cast Nat.one_le_iff_ne_zero.2 hd
  have hsq : σ ^ 2 ≤ (1 / 2 ^ 100) ^ 2 := pow_le_pow_left₀ hpos.le hσ 2
  rw [gaussArg, le_div_iff₀ (by positivity)]
  linarith

/-- `exp(-t) ≤ 1/t`. -/
theorem gaussValue_le_one_div {x y : Nat} (h : 0 < gaussArg σ k x y) :
    gaussValue σ k x y ≤ ((1 / gaussArg σ k x y : ℚ) : ℝ) := by
  have hpos : (0 : ℝ) < (gaussArg σ k x y : ℚ) := Rat.cast_pos.2 h
  have hexp := Real.add_one_le_exp ((gaussArg σ k x y : ℚ) : ℝ)
  rw [gaussValue, Real.exp_neg, ← one_div, Rat.cast_div, Rat.cast_one]
  exact one_div_le_one_div_of_le hpos (by linarith)

/-- Up to `2^-100` the Gaussian is near its limiting shape for a tiny sigma. -/
theorem abs_gaussValue_sub_centreShape_le (hpos : 0 < σ) (hσ : σ ≤ 1 / 2 ^ 100) (k x y : Nat) :
    |gaussValue σ k x y - centreShape k x y| ≤ ((1 / 2 ^ 110 : ℚ) : ℝ) := by
  unfold centreShape
  split
  next hd => rw [gaussValue_of_dist2 hd]; norm_num
  next hd =>
    have harg := le_gaussArg hpos hσ hd
    have harg0 : 0 < gaussArg σ k x y := by linarith
    rw [sub_zero, abs_of_pos (gaussValue_pos σ k x y)]
    exact (gaussValue_le_one_div harg0).trans (Rat.cast_le.2 (one_div_le_one_div_of_le (by norm_num) harg))

/-- The special case of a tiny sigma is within the contract up to `2^-100`. -/
theorem kernelContract_tinySigmaKernel {g : DWord} (hσ : val64 g = some σ) (hpos : 0 < σ) (hsmall : σ ≤ 1 / 2 ^ 100)
    (hk : 0 < k) (hk32 : k < 2 ^ 32) : KernelContract k g fun i => (tinySigmaKernel k).getD i 0 := by
  have hcells : ((k * k : Nat) : ℝ) ≤ 2 ^ 64 := by exact_mod_cast cells_le hk32
  refine kernelContract_of_dist2 (word := tinySigmaWord) hσ hpos hk (fun x y hx hy => ?_) (fun d => ?_) (fun d => ?_)
    (fun d e hde => ?_) (fun x y hx hy => ?_) fun _ => rfl
  · rw [List.getD_eq_getElem?_getD, getElem?_tinySigmaKernel hx hy, Option.getD_some]
  · unfold tinySigmaWord; split <;> decide
  · unfold tinySigmaWord; split <;> decide
  · simp only [weightOf_tinySigmaWord]
    rcases Nat.eq_zero_or_pos d with rfl | hd
    · rw [if_pos rfl]; split <;> norm_num
    · rw [if_neg (by omega), if_neg (by omega)]
  · have h := abs_idealWeight_sub_le hk (centreShape_nonneg k) (cellSum_centreShape hk).ge
      (fun x y _ _ => abs_gaussValue_sub_centreShape_le hpos hsmall k x y) hx hy
    rw [cellSum_centreShape hk, div_one] at h
    rw [weightOf_tinySigmaWord_dist2]
    push_cast at h hcells ⊢
    linarith

/-! ### A huge sigma -/

theorem dist2_le_cells {x y : Nat} (hx : x < k) (hy : y < k) : dist2 k x y ≤ k * k := by
  have hcorner : dist2 k 0 0 = 2 * (k / 2 * (k / 2)) := by
    rw [dist2, Nat.cast_zero, zero_sub, neg_sq, ← two_mul, sq]
    exact Int.toNat_natCast (2 * (k / 2 * (k / 2)))
  have hhalf : k / 2 * 2 * (k / 2 * 2) ≤ k * k := Nat.mul_le_mul (Nat.div_mul_le_self k 2) (Nat.div_mul_le_self k 2)
  have hfar := dist2_le_corner hx hy
  linarith

/-- From `2^100` on the Gaussian is near its limiting shape for a huge sigma, 1 everywhere (R103). -/
theorem abs_gaussValue_sub_one_le {x y : Nat} (hσ : 2 ^ 100 ≤ σ) (hk32 : k < 2 ^ 32) (hx : x < k) (hy : y < k) :
    |gaussValue σ k x y - 1| ≤ ((1 / 2 ^ 110 : ℚ) : ℝ) := by
  have hd : (dist2 k x y : ℚ) ≤ 2 ^ 64 := by exact_mod_cast (dist2_le_cells hx hy).trans (cells_le hk32)
  have hsq : (2 ^ 100) ^ 2 ≤ σ ^ 2 := pow_le_pow_left₀ (by norm_num) hσ 2
  have harg : gaussArg σ k x y ≤ 1 / 2 ^ 110 := by
    rw [gaussArg, div_le_iff₀ (by linarith)]
    linarith
  have harg' : ((gaussArg σ k x y : ℚ) : ℝ) ≤ ((1 / 2 ^ 110 : ℚ) : ℝ) := Rat.cast_le.2 harg
  have hexp := Real.add_one_le_exp (-((gaussArg σ k x y : ℚ) : ℝ))
  rw [abs_sub_comm, abs_of_nonneg (sub_nonneg.2 (gaussValue_le_one σ k x y)), gaussValue]
  linarith

/-- The word of the weight of a huge sigma is the one nearest `1/(k*k)`, with sign 0. -/
theorem val64_fl64_one_div_cells (hk : 0 < k) (hk32 : k < 2 ^ 32) :
    ∃ v : ℚ, val64 (fl64 (1 / (k * k : Nat))) = some v ∧ |v - 1 / (k * k : Nat)| ≤ 1 / 2 ^ 53 ∧
      signBit (fl64 (1 / (k * k : Nat))) = false := by
  have hn1 : (1 : ℚ) ≤ (k * k : Nat) := by exact_mod_cast Nat.mul_pos hk hk
  have hn2 : ((k * k : Nat) : ℚ) ≤ 2 ^ 64 := by exact_mod_cast cells_le hk32
  have hle : (1 / (k * k : Nat) : ℚ) ≤ 1 := (div_le_one (by linarith)).2 hn1
  have hge : (2 : ℚ) ^ (-1000 : Int) ≤ 1 / (k * k : Nat) :=
    calc (2 : ℚ) ^ (-1000 : Int) ≤ 2 ^ (-64 : Int) := zpow_le_zpow_right₀ one_le_two (by norm_num)
      _ = 1 / 2 ^ 64 := by norm_num
      _ ≤ 1 / (k * k : Nat) := one_div_le_one_div_of_le (by linarith) hn2
  obtain ⟨v, hv, herr, hsign⟩ := val64_fl64 hge hle
  exact ⟨v, hv, herr.trans (div_le_div_of_nonneg_right hle (by norm_num)), hsign⟩

/-- The special case of a huge sigma is within the contract from `2^100` on. -/
theorem kernelContract_hugeSigmaKernel {g : DWord} (hσ : val64 g = some σ) (hlarge : 2 ^ 100 ≤ σ) (hk : 0 < k)
    (hk32 : k < 2 ^ 32) : KernelContract k g fun i => (hugeSigmaKernel k).getD i 0 := by
  have hn1 : (1 : ℝ) ≤ (k * k : Nat) := by exact_mod_cast Nat.mul_pos hk hk
  have hn2 : ((k * k : Nat) : ℝ) ≤ 2 ^ 64 := by exact_mod_cast cells_le hk32
  obtain ⟨v, hv, herr, hsign⟩ := val64_fl64_one_div_cells hk hk32
  refine kernelContract_of_dist2 (word := fun _ => fl64 (1 / (k * k : Nat))) hσ (by linarith) hk (fun x y hx hy => ?_)
    (fun _ => isFinite64_of_val64 hv) (fun _ => hsign) antitone_const (fun x y hx hy => ?_) fun h1 => ?_
  · rw [List.getD_eq_getElem?_getD, hugeSigmaKernel, List.getElem?_replicate, if_pos (cell_lt hx hy), Option.getD_some]
  · have hshape : cellSum k (fun _ _ => 1) = ((k * k : Nat) : ℝ) := (cellSum_const k 1).trans (mul_one _)
    have hideal := abs_idealWeight_sub_le (p := fun _ _ => 1) hk (fun _ _ => zero_le_one) (hn1.trans_eq hshape.symm)
      (fun x y hx hy => abs_gaussValue_sub_one_le hlarge hk32 hx hy) hx hy
    have hword := (Rat.cast_le (K := ℝ)).2 herr
    have htri := abs_sub_le (v : ℝ) (1 / (k * k : Nat)) (idealWeight σ k x y)
    rw [hshape] at hideal
    rw [weightOf, hv, Option.getD_some]
    push_cast at hideal hword htri hn2 ⊢
    linarith
  · subst h1; decide +kernel

/-! ### The reference realisation -/

theorem referenceKernel_eq {g : DWord} (exp64 : DWord → DWord) (hσ : val64 g = some σ) (hpos : 0 < σ) :
    referenceKernel exp64 k g = if σ < 1 / 2 ^ 500 then some (tinySigmaKernel k)
      else if 2 ^ 500 < σ then some (hugeSigmaKernel k) else gaussKernelRef exp64 k g := by
  have hlow : scaleTwo 1 (-500) = 1 / 2 ^ 500 := by rw [scaleTwo_eq]; norm_num
  have hhigh : scaleTwo 1 500 = 2 ^ 500 := by rw [scaleTwo_eq]; norm_num
  simp only [referenceKernel, hσ, if_neg hpos.not_ge, hlow, hhigh]

/-- Settles O58: outside the range the Gaussian is so near its limiting shape that the shape's words are within the
contract. -/
theorem referenceSpecialCasesMeetTheContract : Obligations.ReferenceSpecialCasesMeetTheContract := by
  intro exp64 k g σ hodd hk32 hσ hpos
  have hk : 0 < k := by omega
  have hpow : (2 : ℚ) ^ 100 ≤ 2 ^ 500 := pow_le_pow_right₀ one_le_two (by omega)
  have hone : (1 : ℚ) ≤ 2 ^ 500 := one_le_pow₀ one_le_two
  have hinv : (1 / 2 ^ 500 : ℚ) ≤ 1 := (div_le_one (by positivity)).2 hone
  rw [referenceKernel_eq exp64 hσ hpos]
  refine ⟨fun hlow => ?_, fun hhigh => ?_, fun hlow hhigh => ?_⟩
  · have hsmall : σ ≤ 1 / 2 ^ 100 := hlow.le.trans (one_div_le_one_div_of_le (by positivity) hpow)
    rw [if_pos hlow]
    refine ⟨_, rfl, by simp [tinySigmaKernel], fun x y hx hy => ?_,
      kernelContract_tinySigmaKernel hσ hpos hsmall hk hk32⟩
    simp only [getElem?_tinySigmaKernel hx hy, tinySigmaWord, dist2_eq_zero_iff]
  · rw [if_neg ((hinv.trans hone).trans hhigh.le).not_gt, if_pos hhigh]
    exact ⟨_, rfl, List.length_replicate, fun i hi => List.getElem?_replicate_of_lt hi,
      kernelContract_hugeSigmaKernel hσ (hpow.trans hhigh.le) hk hk32⟩
  · rw [if_neg hlow.not_gt, if_neg hhigh.not_gt]

end Sys2Proof.Machine
end

section
/-! ToByte: it is monotone, rounding commutes with clamping, and it gives back a byte from any value nearer than one half
(42_convolution_engine R116). -/
namespace Sys2Proof.Machine

theorem abs_sub_rne_le (q : ℚ) : |q - (rne q : ℚ)| ≤ 1 / 2 := (roundingIsToNearestTiesToEven q).1

/-- Results in the wrong order would be at least 1 apart, and each within 1/2 of its argument only if the two arguments are
equal. -/
theorem rne_mono : Monotone rne := by
  intro p q hpq
  by_contra hlt
  have hp := (abs_le.1 (abs_sub_rne_le p)).1
  have hq := (abs_le.1 (abs_sub_rne_le q)).2
  have hone : (rne q : ℚ) + 1 ≤ rne p := by exact_mod_cast Int.not_le.1 hlt
  have heq : p = q := by linarith
  exact hlt (heq ▸ le_rfl)

theorem clampi_eq_max_min {v lo hi : Int} (h : lo ≤ hi) : clampi v lo hi = max lo (min v hi) := by
  unfold clampi
  split
  · omega
  · split <;> omega

/-- Rounding commutes with clamping to integers, as every monotone function that fixes the bounds does. -/
theorem rne_clamp (q : ℚ) (lo hi : Int) : rne (max (lo : ℚ) (min q hi)) = max lo (min (rne q) hi) := by
  rw [rne_mono.map_max, rne_mono.map_min, rne_intCast, rne_intCast]

theorem toNat_toByte_eq_rne (q : ℚ) : ((toByte q).toNat : Int) = rne (max 0 (min q 255)) := by
  rw [toNat_toByte, clampi_eq_max_min (by decide)]
  exact_mod_cast (rne_clamp q 0 255).symm

/-- Settles O36: ToByte rounds the clamped value, and clamping and `rne` are monotone. -/
theorem toByteIsMonotoneAndClampCommutes : Obligations.ToByteIsMonotoneAndClampCommutes := by
  refine ⟨fun p q hpq => ?_, toNat_toByte_eq_rne⟩
  have hmono : rne (max 0 (min p 255)) ≤ rne (max 0 (min q 255)) :=
    rne_mono (max_le_max_left 0 (min_le_min_right 255 hpq))
  rwa [← toNat_toByte_eq_rne, ← toNat_toByte_eq_rne, Int.ofNat_le] at hmono

/-- A value nearer than one half to a byte is stored as that byte. -/
theorem toByte_eq_of_near {q : ℚ} {b : Byte} (h : |q - b.toNat| < 1 / 2) : toByte q = b := by
  obtain ⟨hlow, hhigh⟩ := abs_lt.1 h
  have hrne : rne q = (b.toNat : Int) := rne_eq_of_near (by push_cast; linarith) (by push_cast; linarith)
  have hbyte : b.toNat < 256 := b.isLt
  apply BitVec.eq_of_toNat_eq
  zify
  rw [toNat_toByte, hrne, clampi_of_mem (by omega) (by omega)]

end Sys2Proof.Machine
end

section
/-! Convolution of a channel that is uniform over the image: the sum is the sum of the weights times the channel's value,
and rounds to that value when the weights sum to nearly 1 (42_convolution_engine R121). -/
namespace Sys2Proof.Machine
variable {s : State}

/-- Channel `c` of the `w` by `h` image in IN is defined and has the value `v` at every pixel. -/
def State.UniformChannel (s : State) (w h c v : Nat) : Prop :=
  ∀ x y, x < w → y < h → s.definedAt (idx w x y c) ∧ s.sample w x y c = v

/-- The sum of the weights of the kernel of size `k` in `word`. -/
def weightSum (k : Nat) (word : Nat → DWord) : ℚ := cellSum k fun kx ky => weightOf (word (ky * k + kx))

/-- The word of every cell is finite, and the weights sum so nearly to 1 that 255 times the sum is within 1/2 of 255. -/
structure NearUnitKernel (k : Nat) (word : Nat → DWord) : Prop where
  finite : ∀ i < k * k, isFinite64 (word i) = true
  sum : 510 * |weightSum k word - 1| < 1

/-- Such a kernel moves the value of a byte by less than 1/2. -/
theorem NearUnitKernel.abs_mul_sub_lt {k : Nat} {word : Nat → DWord} (hw : NearUnitKernel k word) (b : Byte) :
    |weightSum k word * b.toNat - b.toNat| < 1 / 2 := by
  have hb : (b.toNat : ℚ) ≤ 255 := by exact_mod_cast Nat.le_of_lt_succ b.isLt
  have hsum := hw.sum
  calc |weightSum k word * b.toNat - b.toNat| = |weightSum k word - 1| * b.toNat := by
        rw [← sub_one_mul, abs_mul, Nat.abs_cast]
    _ ≤ |weightSum k word - 1| * 255 := mul_le_mul_of_nonneg_left hb (abs_nonneg _)
    _ < 1 / 2 := by linarith

/-! ### The kernels -/

theorem weightSum_box : weightSum 5 (fun _ => boxWeight) = 1 + 3 / 2 ^ 57 := by decide +kernel

theorem weightSum_sharpen : weightSum 3 sharpenWeight = 1 := by decide +kernel

theorem nearUnitKernel_box : NearUnitKernel 5 fun _ => boxWeight where
  finite _ _ := by decide
  sum := by rw [weightSum_box]; norm_num

theorem nearUnitKernel_sharpen : NearUnitKernel 3 sharpenWeight where
  finite i _ := isFinite64_sharpenWeight i
  sum := by rw [weightSum_sharpen]; norm_num

/-- The bound `k*k*2^-40` of 41_kernel_generator R97 is small enough for the sizes of R121 and beyond. -/
theorem KernelContract.nearUnitKernel {k : Nat} {g : DWord} {word : Nat → DWord} (hw : KernelContract k g word)
    (hg : GoodSigma g) (hk : 0 < k) (hsize : 510 * (k * k) < 2 ^ 40) : NearUnitKernel k word where
  finite _ hi := hw.word_finite (goodSigma_iff.1 hg) hi
  sum := by
    have hbound : |weightSum k word - 1| ≤ (k * k : Nat) * (1 / 2 ^ 40) := hw.abs_sum_sub_one_le hg hk
    have hsize' : (510 : ℚ) * (k * k : Nat) < 2 ^ 40 := by exact_mod_cast hsize
    linarith

/-! ### The uniform channel -/

/-- Every tap reads the channel's one value, clamped coordinates included. -/
theorem convSum_of_uniformChannel {w h k c v x y : Nat} {word : Nat → DWord}
    (hf : ∀ i < k * k, isFinite64 (word i) = true) (hu : s.UniformChannel w h c v) (hx : x < w) (hy : y < h) :
    convSum w h k (writeCoef (k * k) word s) x y c = some (weightSum k word * v) := by
  have tap (kx ky : Nat) := hu _ _ (tapCoord_lt x kx (k / 2) (Nat.zero_lt_of_lt hx))
    (tapCoord_lt y ky (k / 2) (Nat.zero_lt_of_lt hy))
  have hread (kx ky : Nat) : (s.inByte (tapIndex w h k x y c kx ky)).toNat = v := (tap kx ky).2
  rw [convSum_eq (fun kx ky => weightOf (word (ky * k + kx)))
    (fun kx ky hkx hky => weightAt_writeCoef s (cell_lt hkx hky) (hf _ (cell_lt hkx hky)))
    (fun kx ky _ _ _ => (tap kx ky).1)]
  simp only [writeCoef_inByte, hread, weightSum, cellSum, Finset.sum_mul]

/-- CONV with weights that sum to nearly 1 leaves every byte of a uniform channel as it is. -/
theorem convByte_of_uniformChannel {w h k c v x y : Nat} {word : Nat → DWord} (hw : NearUnitKernel k word)
    (hu : s.UniformChannel w h c v) (hc : c < 3) (hx : x < w) (hy : y < h) :
    convByte w h k (writeCoef (k * k) word s) (idx w x y c) = some (s.inByte (idx w x y c)) := by
  have hv : (s.inByte (idx w x y c)).toNat = v := (hu x y hx hy).2
  rw [convByte_colour hx hc, convSum_of_uniformChannel hw.finite hu hx hy, Option.map_some, ← hv]
  exact congrArg some (toByte_eq_of_near (hw.abs_mul_sub_lt _))

/-- A filter that passes its checks and whose result leaves the bytes of a uniform channel as they are. -/
theorem exec_uniformChannel {i : Instr} {w h : Word} {c v : Nat} (hi : isFilter i w h) (hr : s.race = false)
    (hcheck : failedCheck s.params i = none) (hu : s.UniformChannel w.toNat h.toNat c v) (hc : c < 3)
    (hbyte : ∀ x y, x < w.toNat → y < h.toNat →
      resultByte i (writeTables i s) (idx w.toNat x y c) = some (s.inByte (idx w.toNat x y c))) :
    ∃ t, exec i s = .next t ∧
      ∀ x y, x < w.toNat → y < h.toNat → (t.outByte (idx w.toNat x y c)).toNat = v := by
  refine ⟨_, exec_eq_result i s, fun x y hx hy => ?_⟩
  rw [result_of_isFilter hi, hcheck, runChecked_none, complete_outByte,
    outByte_runFilter_of_some (idx_lt hx hy (by omega)) hr (hbyte x y hx hy)]
  exact (hu x y hx hy).2

/-- Settles O53: each of the three convolves with weights that sum to nearly 1. -/
theorem uniformChannelsAreUnchanged : Obligations.UniformChannelsAreUnchanged := by
  intro w h s c v hgeom hr hc hu i hi
  have hcheck : checkGeometry s.params w h = none := checkGeometry_eq_none.2 hgeom
  rcases hi with rfl | rfl | ⟨k, g, rfl, hk, hg, hsize⟩
  · exact exec_uniformChannel ⟨rfl, rfl⟩ hr hcheck hu hc
      fun x y => convByte_of_uniformChannel nearUnitKernel_box hu hc
  · exact exec_uniformChannel ⟨rfl, rfl⟩ hr hcheck hu hc
      fun x y => convByte_of_uniformChannel nearUnitKernel_sharpen hu hc
  · have hodd := hk.1
    have hw := (Config.gaussKernel.contract k.toNat g hodd (goodSigma_iff.1 hg)).nearUnitKernel hg (by omega) hsize
    exact exec_uniformChannel ⟨rfl, rfl⟩ hr (Option.or_eq_none_iff.2 ⟨hcheck, checkKernel_of_good hk hg⟩) hu hc
      fun x y => convByte_of_uniformChannel hw hu hc

end Sys2Proof.Machine
end

section
/-! The fixed-kernel filters BOX and SHARPEN (43_fixed_kernel_filters): the weights of their kernels, what a command that
writes a kernel and convolves with it leaves, and the closed forms of the two results. -/
namespace Sys2Proof.Machine
variable {s : State}

/-! ### The fixed kernels -/

theorem fl64_one_div_twentyFive : fl64 (1 / 25) = boxWeight := by decide +kernel

theorem val64_boxWeight : val64 boxWeight = some (1 / 25 + 3 / (25 * 2 ^ 57)) := by decide +kernel

theorem weightOf_boxWeight : weightOf boxWeight = 1 / 25 + 3 / (25 * 2 ^ 57) := by
  rw [weightOf, val64_boxWeight, Option.getD_some]

/-- The values of the nine Sharpen words (R133). -/
theorem map_weightOf_sharpenWeight :
    (List.range 9).map (fun i => weightOf (sharpenWeight i)) = [0, -1, 0, -1, 5, -1, 0, -1, 0] := by
  decide +kernel

/-- Settles O57: the words' values, and their sums by arithmetic. -/
theorem fixedKernelWeights : Obligations.FixedKernelWeights := by
  refine ⟨rfl, fl64_one_div_twentyFive, val64_boxWeight, ?_, rfl, map_weightOf_sharpenWeight, ?_⟩
  · rw [weightOf_boxWeight]; norm_num
  · rw [map_weightOf_sharpenWeight]; norm_num

/-- Only the centre and its four orthogonal neighbours have a weight (R133). -/
theorem onCross_of_sharpenWeight {kx ky : Nat} (hx : kx < 3) (hy : ky < 3)
    (h : weightOf (sharpenWeight (ky * 3 + kx)) ≠ 0) : kx = 1 ∨ ky = 1 := by
  have hcorner : ∀ kx < 3, ∀ ky < 3, weightOf (sharpenWeight (ky * 3 + kx)) ≠ 0 → kx = 1 ∨ ky = 1 := by decide +kernel
  exact hcorner kx hx ky hy h

/-- The Sharpen sum is 5 times the centre less the four orthogonal neighbours (R135). -/
theorem sum_sharpenWeight_mul (f : Nat → Nat → ℚ) :
    ∑ ky ∈ Finset.range 3, ∑ kx ∈ Finset.range 3, weightOf (sharpenWeight (ky * 3 + kx)) * f kx ky =
      5 * f 1 1 - f 1 0 - f 1 2 - f 0 1 - f 2 1 := by
  have hweights := map_weightOf_sharpenWeight
  simp only [List.range_succ, List.range_zero, List.nil_append, List.cons_append, List.map_cons, List.map_nil,
    List.cons.injEq] at hweights
  simp [Finset.sum_range_succ, hweights]
  ring

/-! ### A convolution with a kernel that the command writes itself -/

/-- The state after a kernel of size `k` is written, convolved with, and the command completed. -/
def convolved (w h k : Nat) (word : Nat → DWord) (s : State) : State := complete (conv w h k (writeCoef (k * k) word s))

theorem completedStatus_convolved (w h k : Nat) (word : Nat → DWord) (s : State) :
    CompletedStatus s (convolved w h k word s) :=
  completedStatus_complete rfl

theorem commandKeeps_convolved (w h k : Nat) (word : Nat → DWord) (s : State) :
    CommandKeeps s (convolved w h k word s) :=
  ((commandKeeps_writeCoef ..).trans (commandKeeps_writeOut ..)).trans (commandKeeps_complete _)

theorem writesBelow_convolved (w h k : Nat) (word : Nat → DWord) (s : State) :
    WritesBelow (4 * w * h) (k * k) 0 s (convolved w h k word s) :=
  (writesBelow_writeCoef ..).trans (writesBelow_writeOut ..)

theorem coefEntry_convolved (w h : Nat) {k i : Nat} (word : Nat → DWord) (s : State) (hi : i < k * k) :
    (convolved w h k word s).coefEntry i = word i :=
  (coefEntry_writeCoef ..).trans (if_pos hi)

/-! ### The commands -/

/-- Every filter command checks the geometry before all else (46_dispatcher R173, 60_exceptions R193). -/
theorem failedCheck_of_geometry {p : Params} {i : Instr} {w h : Word} (hi : isFilter i w h)
    (hc : p.capPix < w.toNat * h.toNat) : failedCheck p i = some .geometry := by
  have hgeom := checkGeometry_eq_some hc
  cases i with
  | genk | nolaunch => exact hi.elim
  | gaussian => obtain ⟨rfl, rfl⟩ := hi; rw [failedCheck, hgeom]; rfl
  | identity | box | sharpen | edge | gray | unknown => obtain ⟨rfl, rfl⟩ := hi; exact hgeom

theorem endsInFault_of_geometry {i : Instr} {w h : Word} (hi : isFilter i w h)
    (hc : s.params.capPix < w.toNat * h.toNat) : EndsInFault i s 3 :=
  endsInFault_of_result (by rw [result_of_isFilter hi, failedCheck_of_geometry hi hc, runChecked_some])

theorem exec_box {w h : Word} (hc : w.toNat * h.toNat ≤ s.params.capPix) :
    exec (.box w h) s = .next (convolved w.toNat h.toNat 5 (fun _ => boxWeight) s) := by
  rw [exec_eq_result, result, checkGeometry_eq_none.2 hc]
  rfl

theorem exec_sharpen {w h : Word} (hc : w.toNat * h.toNat ≤ s.params.capPix) :
    exec (.sharpen w h) s = .next (convolved w.toNat h.toNat 3 sharpenWeight s) := by
  rw [exec_eq_result, result, checkGeometry_eq_none.2 hc]
  rfl

/-! ### The bytes -/

variable {w h k x y c : Nat} {word : Nat → DWord}

/-- A colour byte, when every sample under a weight other than 0 is defined. -/
theorem outByte_convolved_colour (hf : ∀ i < k * k, isFinite64 (word i) = true) (hr : s.race = false) (hx : x < w)
    (hy : y < h) (hc : c < 3)
    (hd : ∀ kx ky, kx < k → ky < k → weightOf (word (ky * k + kx)) ≠ 0 → s.definedAt (tapIndex w h k x y c kx ky)) :
    (convolved w h k word s).outByte (idx w x y c) = toByte (∑ ky ∈ Finset.range k, ∑ kx ∈ Finset.range k,
      weightOf (word (ky * k + kx)) * ((s.inByte (tapIndex w h k x y c kx ky)).toNat : ℚ)) := by
  refine outByte_writeOut_of_some (idx_lt hx hy (by omega)) hr ?_
  rw [convByte_colour hx hc, convSum_eq (fun kx ky => weightOf (word (ky * k + kx)))
    (fun kx ky hkx hky => weightAt_writeCoef s (cell_lt hkx hky) (hf _ (cell_lt hkx hky))) hd]
  rfl

/-- A defined alpha byte is copied. -/
theorem outByte_convolved_alpha (hr : s.race = false) (hx : x < w) (hy : y < h) (hd : s.definedAt (idx w x y 3)) :
    (convolved w h k word s).outByte (idx w x y 3) = s.inByte (idx w x y 3) :=
  outByte_writeOut_of_some (idx_lt hx hy (by decide)) hr (convByte_alpha.trans (get?_of_definedAt hd))

/-! ### BOX -/

theorem toNat_toByte_of_near {q : ℚ} {n : Nat} (hn : n < 256) (h : |q - n| < 1 / 2) : (toByte q).toNat = n := by
  have hbyte : (BitVec.ofNat 8 n).toNat = n := Nat.mod_eq_of_lt hn
  rw [toByte_eq_of_near (b := BitVec.ofNat 8 n) (by rwa [hbyte]), hbyte]

/-- `S/25` is never within 1/50 of a tie, and BOXW exceeds 1/25 by too little to move it there (R132). -/
theorem toNat_toByte_boxWeight_mul {S : Nat} (hS : S ≤ 6375) :
    (toByte (weightOf boxWeight * S)).toNat = (2 * S + 25) / 50 := by
  obtain ⟨n, hn⟩ : ∃ n, n = (2 * S + 25) / 50 := ⟨_, rfl⟩
  have hlow : ((50 * n : Nat) : ℚ) ≤ (2 * S + 24 : Nat) := Nat.cast_le.2 (by omega)
  have hhigh : ((2 * S : Nat) : ℚ) ≤ (50 * n + 24 : Nat) := Nat.cast_le.2 (by omega)
  have hS' : (S : ℚ) ≤ 6375 := by exact_mod_cast hS
  rw [← hn]
  refine toNat_toByte_of_near (by omega) ?_
  rw [weightOf_boxWeight, abs_lt]
  push_cast at hlow hhigh
  constructor <;> linarith [S.cast_nonneg (α := ℚ)]

/-- The 25 samples of a pixel's channel are bytes. -/
theorem sum_toNat_le (f : Nat → Nat → Byte) :
    ∑ ky ∈ Finset.range 5, ∑ kx ∈ Finset.range 5, (f kx ky).toNat ≤ 6375 :=
  calc ∑ ky ∈ Finset.range 5, ∑ kx ∈ Finset.range 5, (f kx ky).toNat
      ≤ ∑ ky ∈ Finset.range 5, ∑ kx ∈ Finset.range 5, 255 :=
        Finset.sum_le_sum fun ky _ => Finset.sum_le_sum fun kx _ => Nat.le_of_lt_succ (f kx ky).isLt
    _ = 6375 := by decide

/-- 25 equal weights are one weight times the sum of the samples (R132). -/
theorem toNat_outByte_box (hr : s.race = false) (hx : x < w) (hy : y < h) (hc : c < 3)
    (hd : ∀ kx ky, kx < 5 → ky < 5 → s.definedAt (tapIndex w h 5 x y c kx ky)) :
    ((convolved w h 5 (fun _ => boxWeight) s).outByte (idx w x y c)).toNat =
      (2 * (∑ ky ∈ Finset.range 5, ∑ kx ∈ Finset.range 5, (s.inByte (tapIndex w h 5 x y c kx ky)).toNat) + 25) / 50 := by
  rw [outByte_convolved_colour (fun _ _ => by decide) hr hx hy hc fun kx ky hkx hky _ => hd kx ky hkx hky,
    ← toNat_toByte_boxWeight_mul (sum_toNat_le fun kx ky => s.inByte (tapIndex w h 5 x y c kx ky))]
  simp only [← Finset.mul_sum, Nat.cast_sum]

/-- Settles O44: BOXW is written, then convolved with. -/
theorem boxStoresTheRoundedMeanOfTwentyFive : Obligations.BoxStoresTheRoundedMeanOfTwentyFive := by
  intro w h s
  refine ⟨endsInFault_of_geometry ⟨rfl, rfl⟩, fun hgeom => ?_⟩
  obtain ⟨hout, hcoef, hluma⟩ := writesBelow_convolved w.toNat h.toNat 5 (fun _ => boxWeight) s
  exact ⟨_, exec_box hgeom, completedStatus_convolved .., commandKeeps_convolved ..,
    fun _ hi => coefEntry_convolved (k := 5) _ _ (fun _ => boxWeight) s hi,
    fun hr x y hx hy => ⟨fun _ hc => toNat_outByte_box hr hx hy hc, outByte_convolved_alpha hr hx hy⟩,
    hout, hcoef, hluma⟩

/-! ### SHARPEN -/

/-- The three columns or rows that a kernel of size 3 reads: the pixel's own between its two clamped neighbours. -/
@[simp] theorem tapCoord_zero (x w : Nat) : tapCoord x 0 1 w = edgeClamp (x - 1) w := by simp [tapCoord, edgeClamp]

@[simp] theorem tapCoord_one {x w : Nat} (hx : x < w) : tapCoord x 1 1 w = x := by
  rw [tapCoord, add_sub_cancel_right, clampi_of_mem (by omega) (by omega), Int.toNat_natCast]

@[simp] theorem tapCoord_two (x w : Nat) : tapCoord x 2 1 w = edgeClamp (x + 1) w := by
  rw [tapCoord, edgeClamp, Nat.cast_ofNat, Nat.cast_one, add_sub_assoc]
  rfl

theorem toNat_toByte_intCast (n : Int) : ((toByte (n : ℚ)).toNat : Int) = clampi n 0 255 := by
  rw [toNat_toByte, rne_intCast]

/-- The saturated difference (R135); a corner, of weight 0, may be undefined. -/
theorem toNat_outByte_sharpen (hr : s.race = false) (hx : x < w) (hy : y < h) (hc : c < 3)
    (hcentre : s.definedAt (idx w x y c)) (hnorth : s.definedAt (idx w x (edgeClamp (y - 1) h) c))
    (hsouth : s.definedAt (idx w x (edgeClamp (y + 1) h) c)) (hwest : s.definedAt (idx w (edgeClamp (x - 1) w) y c))
    (heast : s.definedAt (idx w (edgeClamp (x + 1) w) y c)) :
    (((convolved w h 3 sharpenWeight s).outByte (idx w x y c)).toNat : Int) =
      clampi (5 * (s.sample w x y c : Int) - s.sample w x (edgeClamp (y - 1) h) c
        - s.sample w x (edgeClamp (y + 1) h) c - s.sample w (edgeClamp (x - 1) w) y c
        - s.sample w (edgeClamp (x + 1) w) y c) 0 255 := by
  have htaps : ∀ kx ky, kx < 3 → ky < 3 → weightOf (sharpenWeight (ky * 3 + kx)) ≠ 0 →
      s.definedAt (tapIndex w h 3 x y c kx ky) := by
    intro kx ky hkx hky hweight
    rcases onCross_of_sharpenWeight hkx hky hweight with rfl | rfl
    · interval_cases ky <;> simpa [tapIndex, hx, hy]
    · interval_cases kx <;> simpa [tapIndex, hx, hy]
  rw [outByte_convolved_colour (fun i _ => isFinite64_sharpenWeight i) hr hx hy hc htaps,
    sum_sharpenWeight_mul fun kx ky => ((s.inByte (tapIndex w h 3 x y c kx ky)).toNat : ℚ),
    ← toNat_toByte_intCast]
  simp [tapIndex, hx, hy, State.sample]

/-- Settles O45: the nine words are written, then convolved with. -/
theorem sharpenStoresTheClampedDifference : Obligations.SharpenStoresTheClampedDifference := by
  intro w h s
  refine ⟨endsInFault_of_geometry ⟨rfl, rfl⟩, fun hgeom => ?_⟩
  obtain ⟨hout, hcoef, hluma⟩ := writesBelow_convolved w.toNat h.toNat 3 sharpenWeight s
  have hwords : (List.range 9).map (convolved w.toNat h.toNat 3 sharpenWeight s).coefEntry =
      (List.range 9).map sharpenWeight :=
    List.map_congr_left fun i hi => coefEntry_convolved _ _ sharpenWeight s (List.mem_range.1 hi)
  exact ⟨_, exec_sharpen hgeom, completedStatus_convolved .., commandKeeps_convolved .., hwords,
    fun hr x y hx hy => ⟨fun _ hc => toNat_outByte_sharpen hr hx hy hc, outByte_convolved_alpha hr hx hy⟩,
    hout, hcoef, hluma⟩

end Sys2Proof.Machine
end

section
/-! The edge detector (44_edge_detector): the magnitude as the rounded norm of the two gradients, the gradients over the
luminance sums that EDGE itself writes, and the bytes of its result. -/
namespace Sys2Proof.Machine
variable {s : State}

/-! ### The magnitude -/

/-- `sqrt(N)/3` rounded to nearest, in integers and before saturation (44_edge_detector R147). -/
def roundedNorm (N : Nat) : Nat := (Nat.sqrt (4 * N) + 3) / 6

theorem isqrt_eq_sqrt (n : Nat) : isqrt n = Nat.sqrt n := Nat.eq_sqrt.2 (isqrt_spec n)

theorem toNat_edgeMagnitude (gx gy : Int) :
    (edgeMagnitude gx gy).toNat = min 255 (roundedNorm (gx ^ 2 + gy ^ 2).toNat) := by
  rw [edgeMagnitude, isqrt_eq_sqrt, ← sq, ← sq, BitVec.toNat_ofNat]
  exact Nat.mod_eq_of_lt (by omega)

/-- The result exceeds `k` when `2 sqrt(N) ≥ 6k + 3`; the square of `6k + 3` is odd, so it is never `4N`. -/
theorem lt_roundedNorm_iff {N k : Nat} : k < roundedNorm N ↔ 9 * (k * k) + 9 * k + 2 < N :=
  calc k < roundedNorm N ↔ 6 * k + 3 ≤ Nat.sqrt (4 * N) := by unfold roundedNorm; omega
    _ ↔ (6 * k + 3) * (6 * k + 3) ≤ 4 * N := Nat.le_sqrt
    _ ↔ 4 * (9 * (k * k) + 9 * k + 2) + 1 ≤ 4 * N := by
      rw [show (6 * k + 3) * (6 * k + 3) = 4 * (9 * (k * k) + 9 * k + 2) + 1 by ring]
    _ ↔ 9 * (k * k) + 9 * k + 2 < N := by omega

/-- `9 (k + 1/2)^2` is a quarter above an integer. -/
theorem nine_mul_half_sq (k : Nat) :
    (3 * ((k : ℝ) + 1 / 2)) ^ 2 = ((9 * (k * k) + 9 * k + 2 : Nat) : ℝ) + 1 / 4 := by
  push_cast; ring

theorem half_lt_norm {N k : Nat} (h : k < roundedNorm N) : (k : ℝ) + 1 / 2 < Real.sqrt N / 3 := by
  have hN : ((9 * (k * k) + 9 * k + 2 : Nat) : ℝ) + 1 ≤ N := by exact_mod_cast lt_roundedNorm_iff.1 h
  have hsq : 3 * ((k : ℝ) + 1 / 2) < Real.sqrt N :=
    Real.lt_sqrt_of_sq_lt (by rw [nine_mul_half_sq]; linarith)
  linarith

theorem norm_lt_half {N k : Nat} (h : roundedNorm N ≤ k) : Real.sqrt N / 3 < (k : ℝ) + 1 / 2 := by
  have hN : (N : ℝ) ≤ ((9 * (k * k) + 9 * k + 2 : Nat) : ℝ) :=
    Nat.cast_le.2 (Nat.not_lt.1 (mt lt_roundedNorm_iff.2 (Nat.not_lt.2 h)))
  have hsq : Real.sqrt N < 3 * ((k : ℝ) + 1 / 2) :=
    (Real.sqrt_lt' (by positivity)).2 (by rw [nine_mul_half_sq]; linarith)
  linarith

/-- The rounded norm is nearer than one half to the norm (R147). -/
theorem abs_roundedNorm_sub_lt (N : Nat) : |(roundedNorm N : ℝ) - Real.sqrt N / 3| < 1 / 2 := by
  have hupper := norm_lt_half (le_refl (roundedNorm N))
  have hlower : (roundedNorm N : ℝ) - 1 / 2 < Real.sqrt N / 3 := by
    cases hn : roundedNorm N with
    | zero => rw [Nat.cast_zero]; linarith [Real.sqrt_nonneg (N : ℝ)]
    | succ k =>
      have hhalf : (k : ℝ) + 1 / 2 < Real.sqrt N / 3 := half_lt_norm (by omega)
      push_cast; linarith
  rw [abs_lt]
  constructor <;> linarith

/-- A real that is nearer than one half to an integer is not half way between two. -/
theorem ne_half_of_near {q : ℝ} {m : Nat} (h : |(m : ℝ) - q| < 1 / 2) (n : Int) : q ≠ n + 1 / 2 := by
  rintro rfl
  obtain ⟨hlow, hhigh⟩ := abs_lt.1 h
  have h0 : n < m := by exact_mod_cast (by linarith : (n : ℝ) < m)
  have h1 : (m : Int) < n + 1 := by exact_mod_cast (by linarith : (m : ℝ) < n + 1)
  omega

/-- Settles O38: the integer form is the rounded norm, and 255 is reached where it exceeds 254. -/
theorem edgeMagnitudeIsTheRoundedNorm : Obligations.EdgeMagnitudeIsTheRoundedNorm := by
  intro gx gy
  obtain ⟨N, hN⟩ : ∃ N : Nat, gx ^ 2 + gy ^ 2 = N := Int.eq_ofNat_of_zero_le (by positivity)
  have hreal : (gx : ℝ) ^ 2 + (gy : ℝ) ^ 2 = N := by exact_mod_cast hN
  have hm := toNat_edgeMagnitude gx gy
  rw [hN, Int.toNat_natCast] at hm
  rw [hreal, hN, Int.toNat_natCast]
  have hnear := abs_roundedNorm_sub_lt N
  obtain ⟨hlow, hhigh⟩ := abs_lt.1 hnear
  refine ⟨fun h => ?_, fun h => ?_, ne_half_of_near hnear, hm, ?_⟩
  · have hlt : roundedNorm N < 255 := by exact_mod_cast (by linarith : (roundedNorm N : ℝ) < 255)
    rwa [hm, min_eq_right hlt.le]
  · have hlt : 254 < roundedNorm N := by exact_mod_cast (by linarith : (254 : ℝ) < roundedNorm N)
    rw [hm, min_eq_left hlt]
  · have h255 : 254 < roundedNorm N ↔ 582932 < N := lt_roundedNorm_iff
    omega

/-! ### Luminance and gradients -/

variable {w h x y c : Nat}

/-- The bytes of IN as they read, for a buffer of width `w`; its `rgbAt` is `State.rgbSum`. -/
def State.inImage (s : State) (w : Nat) : Image := fun x y c => s.inByte (idx w x y c)

theorem rgbAt_inImage (s : State) (w x y : Nat) : rgbAt (s.inImage w) x y = s.rgbSum w x y := rfl

/-- The three colour bytes of a pixel are defined. -/
def State.ColoursDefined (s : State) (w x y : Nat) : Prop := ∀ c, c < 3 → s.definedAt (idx w x y c)

/-- The luminance sum of a pixel whose colour bytes are defined (R141). -/
theorem lumaSum_of_coloursDefined (hd : s.ColoursDefined w x y) :
    lumaSum s (y * w + x) = some (BitVec.ofNat 10 (s.rgbSum w x y)) := by
  have hr : s.inMem.get? (4 * (y * w + x)) = some (s.inByte (idx w x y 0)) := get?_of_definedAt (hd 0 (by decide))
  have hg : s.inMem.get? (4 * (y * w + x) + 1) = some (s.inByte (idx w x y 1)) := get?_of_definedAt (hd 1 (by decide))
  have hb : s.inMem.get? (4 * (y * w + x) + 2) = some (s.inByte (idx w x y 2)) := get?_of_definedAt (hd 2 (by decide))
  simp only [lumaSum, hr, hg, hb]
  rfl

/-- A luminance sum fits its entry (R141). -/
theorem toNat_ofNat_rgbSum (s : State) (w x y : Nat) : (BitVec.ofNat 10 (s.rgbSum w x y)).toNat = s.rgbSum w x y :=
  Nat.mod_eq_of_lt (rgbAt_lt (s.inImage w) x y)

/-- The entry of LUMA that stage 1 leaves for a pixel (R140, R141). -/
theorem luma_get?_of_coloursDefined (hx : x < w) (hy : y < h) (hd : s.ColoursDefined w x y) :
    (writeLuma (w * h) (lumaSum s) s).luma.get? (y * w + x) = some (BitVec.ofNat 10 (s.rgbSum w x y)) := by
  rw [luma_get?_writeLuma, if_pos (pixel_lt hx hy), lumaSum_of_coloursDefined hd]

theorem isInterior_iff : isInterior w h x y = true ↔ (1 ≤ x ∧ x + 1 < w) ∧ 1 ≤ y ∧ y + 1 < h := by
  simp only [isInterior, Bool.and_eq_true, decide_eq_true_eq, and_assoc]

/-- The gradient at an interior pixel, when every pixel under a weight other than 0 is defined (R140, R144). -/
theorem sobelGradient_of_coloursDefined {weight : Nat → Nat → Int} (hi : isInterior w h x y = true)
    (hd : ∀ kx ky, kx < 3 → ky < 3 → weight kx ky ≠ 0 → s.ColoursDefined w (x + kx - 1) (y + ky - 1)) :
    sobelGradient weight w (writeLuma (w * h) (lumaSum s) s) x y = some (gradientAt weight (s.inImage w) x y) := by
  obtain ⟨⟨hx1, hxw⟩, hy1, hyh⟩ := isInterior_iff.1 hi
  unfold sobelGradient
  rw [sumDefined_map_some _ _ fun p => weight p.1 p.2 * (rgbAt (s.inImage w) (x + p.1 - 1) (y + p.2 - 1) : Int)]
  · exact congrArg some
      (sum_cells 3 fun kx ky => weight kx ky * (rgbAt (s.inImage w) (x + kx - 1) (y + ky - 1) : Int))
  · rintro ⟨kx, ky⟩ hp
    obtain ⟨hkx, hky⟩ := mem_cells.1 hp
    dsimp only
    split
    next h0 => rw [h0, zero_mul]
    next h0 =>
      rw [luma_get?_of_coloursDefined (by omega) (by omega) (hd kx ky hkx hky h0), Option.map_some, toNat_ofNat_rgbSum,
        rgbAt_inImage]

/-- GX is the right column less the left one (R143, R144). -/
theorem gradientAt_sobelX (img : Image) (x y : Nat) : gradientAt sobelX img x y =
    ((rgbAt img (x + 1) (y - 1) : Int) + 2 * rgbAt img (x + 1) y + rgbAt img (x + 1) (y + 1))
      - (rgbAt img (x - 1) (y - 1) + 2 * rgbAt img (x - 1) y + rgbAt img (x - 1) (y + 1)) := by
  simp [gradientAt, Finset.sum_range_succ, sobelX]
  ring

/-- GY is the lower row less the upper one (R143, R144). -/
theorem gradientAt_sobelY (img : Image) (x y : Nat) : gradientAt sobelY img x y =
    ((rgbAt img (x - 1) (y + 1) : Int) + 2 * rgbAt img x (y + 1) + rgbAt img (x + 1) (y + 1))
      - (rgbAt img (x - 1) (y - 1) + 2 * rgbAt img x (y - 1) + rgbAt img (x + 1) (y - 1)) := by
  simp [gradientAt, Finset.sum_range_succ, sobelY]
  ring

/-- The centre has weight 0 in both Sobel kernels (R143). -/
theorem not_centre_of_sobel {kx ky : Nat} (h : sobelX kx ky ≠ 0 ∨ sobelY kx ky ≠ 0) : (kx, ky) ≠ (1, 1) := by
  rintro ⟨⟩
  exact h.elim (· rfl) (· rfl)

/-! ### The command -/

/-- EDGE over a buffer that fits: both stages, then the completion. -/
theorem exec_edge {w h : Word} (hc : w.toNat * h.toNat ≤ s.params.capPix) :
    exec (.edge w h) s = .next (complete (runEdge w.toNat h.toNat s)) := by
  rw [exec_eq_result, result, checkGeometry_eq_none.2 hc]
  rfl

theorem commandKeeps_runEdge (w h : Nat) (s : State) : CommandKeeps s (complete (runEdge w h s)) :=
  ((commandKeeps_writeLuma ..).trans (commandKeeps_writeOut ..)).trans (commandKeeps_complete _)

theorem writesBelow_runEdge (w h : Nat) (s : State) :
    WritesBelow (4 * w * h) 0 (w * h) s (complete (runEdge w h s)) :=
  (writesBelow_writeLuma ..).trans (writesBelow_writeOut ..)

theorem exists_luma_runEdge (hx : x < w) (hy : y < h) (hd : s.ColoursDefined w x y) :
    ∃ l, (complete (runEdge w h s)).luma.get? (y * w + x) = some l ∧ l.toNat = s.rgbSum w x y :=
  ⟨_, luma_get?_of_coloursDefined hx hy hd, toNat_ofNat_rgbSum ..⟩

/-- A byte of OUT, once stage 2 has a value for it. -/
theorem outByte_runEdge {b : Byte} (hr : s.race = false) (hx : x < w) (hy : y < h) (hc : c < 4)
    (hb : edgeByte w h (writeLuma (w * h) (lumaSum s) s) (idx w x y c) = some b) :
    (complete (runEdge w h s)).outByte (idx w x y c) = b :=
  outByte_writeOut_of_some (idx_lt hx hy hc) hr hb

/-- The ring is 0 in every channel, alpha included (R145). -/
theorem outByte_runEdge_ring (hr : s.race = false) (hx : x < w) (hy : y < h) (hc : c < 4)
    (hring : x = 0 ∨ y = 0 ∨ x + 1 = w ∨ y + 1 = h) : (complete (runEdge w h s)).outByte (idx w x y c) = 0 := by
  have hi : ¬ isInterior w h x y = true := by rw [isInterior_iff]; omega
  exact outByte_runEdge hr hx hy hc (by rw [edgeByte, pixelX_idx hx hc, pixelY_idx hx hc, if_neg hi])

/-- An interior pixel's alpha is 255 (R146). -/
theorem outByte_runEdge_alpha (hr : s.race = false) (hi : isInterior w h x y = true) :
    (complete (runEdge w h s)).outByte (idx w x y 3) = 255 := by
  obtain ⟨⟨-, hxw⟩, -, hyh⟩ := isInterior_iff.1 hi
  have hx : x < w := by omega
  refine outByte_runEdge hr hx (by omega) (by decide) ?_
  rw [edgeByte, pixelX_idx hx (by decide), pixelY_idx hx (by decide), if_pos hi, channelOf_idx (by decide), if_pos rfl]

/-- An interior pixel's colours are the magnitude of the two gradients, when its eight neighbours are defined (R146). -/
theorem outByte_runEdge_colour (hr : s.race = false) (hi : isInterior w h x y = true) (hc : c < 3)
    (hd : ∀ kx ky, kx < 3 → ky < 3 → (kx, ky) ≠ (1, 1) → s.ColoursDefined w (x + kx - 1) (y + ky - 1)) :
    (complete (runEdge w h s)).outByte (idx w x y c) =
      edgeMagnitude (gradientAt sobelX (s.inImage w) x y) (gradientAt sobelY (s.inImage w) x y) := by
  obtain ⟨⟨-, hxw⟩, -, hyh⟩ := isInterior_iff.1 hi
  have hx : x < w := by omega
  have h4 : c < 4 := by omega
  refine outByte_runEdge hr hx (by omega) h4 ?_
  rw [edgeByte, pixelX_idx hx h4, pixelY_idx hx h4, if_pos hi, channelOf_idx h4, if_neg (by omega),
    sobelGradient_of_coloursDefined hi fun kx ky hkx hky hX => hd kx ky hkx hky (not_centre_of_sobel (.inl hX)),
    sobelGradient_of_coloursDefined hi fun kx ky hkx hky hY => hd kx ky hkx hky (not_centre_of_sobel (.inr hY))]

/-- Settles O48: stage 1 leaves the luminance sums, stage 2 the ring, the magnitude and alpha. -/
theorem edgeStoresTheSobelMagnitude : Obligations.EdgeStoresTheSobelMagnitude := by
  intro w h s
  refine ⟨endsInFault_of_geometry ⟨rfl, rfl⟩, fun hgeom => ?_⟩
  obtain ⟨hout, hcoef, hluma⟩ := writesBelow_runEdge w.toNat h.toNat s
  refine ⟨_, exec_edge hgeom, completedStatus_complete rfl, commandKeeps_runEdge .., fun _ _ => exists_luma_runEdge,
    fun hr x y hx hy => ⟨fun hring _ hc => outByte_runEdge_ring hr hx hy hc hring, fun hx1 hxw hy1 hyh => ?_⟩,
    hout, hcoef, hluma⟩
  have hi : isInterior w.toNat h.toNat x y = true := isInterior_iff.2 ⟨⟨hx1, hxw⟩, hy1, hyh⟩
  refine ⟨outByte_runEdge_alpha hr hi, fun hd => ?_⟩
  intro L GX GY c hc
  have hneighbours : ∀ kx ky, kx < 3 → ky < 3 → (kx, ky) ≠ (1, 1) →
      s.ColoursDefined w.toNat (x + kx - 1) (y + ky - 1) := by
    intro kx ky hkx hky hne c hc
    refine hd _ _ c (by omega) (by omega) (by omega) (by omega) ?_ hc
    simp only [ne_eq, Prod.mk.injEq] at hne ⊢
    omega
  rw [outByte_runEdge_colour hr hi hc hneighbours, toNat_edgeMagnitude, gradientAt_sobelX, gradientAt_sobelY]
  rfl

end Sys2Proof.Machine
end

section
/-! The grayscale filter (45_grayscale): the rounded mean of three samples, and the bytes of GRAY's result. -/
namespace Sys2Proof.Machine
variable {s : State}

/-! ### The rounded mean -/

/-- `(S + 1) div 3` is within 1/3 of `S/3`, so no mean of three samples is near a tie (R161). -/
theorem abs_third_sub_lt (S : Nat) : |(S : ℚ) / 3 - ((S + 1) / 3 : Nat)| < 1 / 2 := by
  obtain ⟨n, hn⟩ : ∃ n, n = (S + 1) / 3 := ⟨_, rfl⟩
  have hlow : ((3 * n : Nat) : ℚ) ≤ (S + 1 : Nat) := Nat.cast_le.2 (by omega)
  have hhigh : (S : ℚ) ≤ (3 * n + 1 : Nat) := Nat.cast_le.2 (by omega)
  rw [← hn, abs_lt]
  push_cast at hlow hhigh
  constructor <;> linarith

theorem rne_third (S : Nat) : rne ((S : ℚ) / 3) = ((S + 1) / 3 : Nat) := by
  obtain ⟨hlow, hhigh⟩ := abs_lt.1 (abs_third_sub_lt S)
  exact rne_eq_of_near (by rw [Int.cast_natCast]; linarith) (by rw [Int.cast_natCast]; linarith)

theorem toNat_toByte_third {S : Nat} (hS : S ≤ 765) : (toByte ((S : ℚ) / 3)).toNat = (S + 1) / 3 :=
  toNat_toByte_of_near (by omega) (abs_third_sub_lt S)

/-- Settles O39: `S/3` is nearer than one half to `(S + 1) div 3`, which is a byte. -/
theorem grayRounding : Obligations.GrayRounding :=
  fun S hS => ⟨rne_third S, toNat_toByte_third hS⟩

/-! ### The bytes -/

variable {w h x y c : Nat}

theorem rgbSum_le (s : State) (w x y : Nat) : s.rgbSum w x y ≤ 765 := by
  unfold State.rgbSum State.sample
  omega

theorem grayByte_alpha (hd : s.definedAt (idx w x y 3)) : grayByte s (idx w x y 3) = some (s.inByte (idx w x y 3)) := by
  rw [grayByte, channelOf_idx (by decide), if_pos rfl, get?_of_definedAt hd]

/-- A colour byte of GRAY depends on the pixel's three colour bytes alone (R160). -/
theorem grayByte_colour (hc : c < 3) (hd : s.ColoursDefined w x y) :
    grayByte s (idx w x y c) = some (toByte ((s.rgbSum w x y : ℚ) / 3)) := by
  have hpixel : idx w x y c / 4 = y * w + x := by unfold idx; omega
  have hr : s.inMem.get? (4 * (y * w + x)) = some (s.inByte (idx w x y 0)) := get?_of_definedAt (hd 0 (by decide))
  have hg : s.inMem.get? (4 * (y * w + x) + 1) = some (s.inByte (idx w x y 1)) := get?_of_definedAt (hd 1 (by decide))
  have hb : s.inMem.get? (4 * (y * w + x) + 2) = some (s.inByte (idx w x y 2)) := get?_of_definedAt (hd 2 (by decide))
  rw [grayByte, channelOf_idx (by omega), if_neg (by omega)]
  simp only [hpixel, hr, hg, hb]
  rfl

/-! ### The command -/

/-- GRAY over a buffer that fits: its result, then the completion. -/
theorem exec_gray {w h : Word} (hc : w.toNat * h.toNat ≤ s.params.capPix) :
    exec (.gray w h) s = .next (complete (runGray w.toNat h.toNat s)) := by
  rw [exec_eq_result, result, checkGeometry_eq_none.2 hc, runChecked_none]

theorem commandKeeps_runGray (w h : Nat) (s : State) : CommandKeeps s (complete (runGray w h s)) :=
  (commandKeeps_writeOut ..).trans (commandKeeps_complete _)

theorem writesBelow_runGray (w h : Nat) (s : State) : WritesBelow (4 * w * h) 0 0 s (complete (runGray w h s)) :=
  writesBelow_writeOut ..

/-- A defined alpha byte is copied. -/
theorem outByte_runGray_alpha (hr : s.race = false) (hx : x < w) (hy : y < h) (hd : s.definedAt (idx w x y 3)) :
    (complete (runGray w h s)).outByte (idx w x y 3) = s.inByte (idx w x y 3) :=
  outByte_writeOut_of_some (idx_lt hx hy (by decide)) hr (grayByte_alpha hd)

theorem outByte_runGray_colour (hr : s.race = false) (hx : x < w) (hy : y < h) (hc : c < 3)
    (hd : s.ColoursDefined w x y) :
    (complete (runGray w h s)).outByte (idx w x y c) = toByte ((s.rgbSum w x y : ℚ) / 3) :=
  outByte_writeOut_of_some (idx_lt hx hy (by omega)) hr (grayByte_colour hc hd)

/-- The mean of three equal samples is the sample, so GRAY leaves a pixel of equal colours as it is (R162). -/
theorem outByte_runGray_of_equalColours {b : Byte} (hr : s.race = false) (hx : x < w) (hy : y < h) (hc : c < 3)
    (hd : s.ColoursDefined w x y) (heq : ∀ c, c < 3 → s.inByte (idx w x y c) = b) :
    (complete (runGray w h s)).outByte (idx w x y c) = b := by
  have hsum : s.rgbSum w x y = b.toNat * 3 := by
    simp only [State.rgbSum, State.sample, heq 0 (by decide), heq 1 (by decide), heq 2 (by decide)]
    omega
  rw [outByte_runGray_colour hr hx hy hc hd, hsum]
  exact toByte_eq_of_near (by norm_num)

/-- Settles O42: the colours' mean rounds to `(S + 1) div 3`, and alpha is copied. -/
theorem grayStoresTheRoundedMean : Obligations.GrayStoresTheRoundedMean := by
  intro w h s
  refine ⟨endsInFault_of_geometry ⟨rfl, rfl⟩, fun hgeom => ?_⟩
  obtain ⟨hout, hcoef, hluma⟩ := writesBelow_runGray w.toNat h.toNat s
  refine ⟨_, exec_gray hgeom, completedStatus_complete rfl, commandKeeps_runGray ..,
    fun hr x y hx hy => ⟨fun hd c hc => ?_, outByte_runGray_alpha hr hx hy⟩, hout, hcoef, hluma⟩
  rw [outByte_runGray_colour hr hx hy hc hd, toNat_toByte_third (rgbSum_le s w.toNat x y)]

/-- Settles O43: the first GRAY leaves three equal colours in every pixel, which the second keeps. -/
theorem grayIsIdempotent : Obligations.GrayIsIdempotent := by
  intro w h s s2 hgeom hparams hr hr2 hd
  refine ⟨_, exec_gray hgeom, fun hin => ⟨_, exec_gray (by rwa [hparams]), fun a ha => ?_⟩⟩
  have hd2 : s2.bufferDefined w.toNat h.toNat := fun a ha => by rw [State.definedAt, hin a ha]; rfl
  have hbyte : ∀ a < 4 * w.toNat * h.toNat, s2.inByte a = (complete (runGray w.toNat h.toNat s)).outByte a :=
    fun a ha => by rw [State.inByte, hin a ha, Option.getD_some]
  obtain ⟨x, y, c, hx, hy, hc, rfl⟩ := exists_idx ha
  have hcolour (c : Nat) (hc : c < 3) : idx w.toNat x y c < 4 * w.toNat * h.toNat := idx_lt hx hy (by omega)
  have hpixel : s.ColoursDefined w.toNat x y := fun c hc => hd _ (hcolour c hc)
  have hpixel2 : s2.ColoursDefined w.toNat x y := fun c hc => hd2 _ (hcolour c hc)
  rcases Nat.lt_succ_iff_lt_or_eq.1 hc with hc | rfl
  · rw [outByte_runGray_colour hr hx hy hc hpixel]
    exact outByte_runGray_of_equalColours hr2 hx hy hc hpixel2 fun c hc => by
      rw [hbyte _ (hcolour c hc), outByte_runGray_colour hr hx hy hc hpixel]
  · rw [outByte_runGray_alpha hr2 hx hy (hd2 _ ha), hbyte _ ha]

end Sys2Proof.Machine
end

section
/-! The dispatcher: the CTRL write that launches a command or is dropped, the two ends of a command, and the commands
whose whole meaning is in the routing table (46_dispatcher R171 to R178). -/
namespace Sys2Proof.Machine
variable {s : State}

/-! ### Launches -/

/-- What a launching CTRL write launches: START wins over GENK (10_state R15, 30_encoding R74). -/
def launchKind (v : Word) : Kind := if v.getLsbD 0 then .filter else .generate

theorem ctrlTurn_of_launch {v : Word} (hb : s.busy = false) (hv : v.getLsbD 0 = true ∨ v.getLsbD 1 = true) :
    ctrlTurn v s = .move (launch (launchKind v) s) := by
  rw [ctrlTurn_of_idle v hb, launchKind]
  split_ifs with h0 h1
  · rfl
  · rfl
  · exact (hv.elim h0 h1).elim

theorem step_of_launch_kind {v : Word} {rest : List Input} (hb : s.busy = false)
    (hv : v.getLsbD 0 = true ∨ v.getLsbD 1 = true) (ht : s.transfer = none)
    (hin : s.inputs = .host (.wr 0x00 4 v) :: rest) :
    step s = .next (launch (launchKind v) { s with inputs := rest }) :=
  step_of_move ((turn_of_ctrl ht hin).trans (ctrlTurn_of_launch (s := { s with inputs := rest }) hb hv))

/-- The command in flight after a launch is the one that the CTRL write and the registers encode. -/
theorem fetch_launch {v : Word} (s : State) (hv : v.getLsbD 0 = true ∨ v.getLsbD 1 = true) :
    fetch (launch (launchKind v) s) = some (decode (wordsAt v s)) := by
  refine (fetch_beginCommand ..).trans (congrArg some ?_)
  unfold launchKind
  split_ifs with h0
  · exact decode_latched_filter s h0
  · exact decode_latched_generate s (Bool.eq_false_iff.2 h0) (hv.resolve_left h0)

/-- The Engine's move executes the command in flight. -/
theorem step_engine_of_fetch {i : Instr} (rest : List Input) (h : fetch s = some i) :
    step { s with inputs := .engine :: rest } = exec i { s with inputs := rest } :=
  step_eq_exec ((turn_of_engine rfl).trans (engineTurn_of_fetch h))

/-- Settles O7: the step is the launch of the kind that the CTRL write names, whose descriptor decodes to the command. -/
theorem launchLatchesTheDescriptor : Obligations.LaunchLatchesTheDescriptor := by
  intro s v rest hb hv ht hin
  have hfetch := fetch_launch { s with inputs := rest } hv
  exact ⟨_, step_of_launch_kind hb hv ht hin, rfl, busyOf_statusLaunched _, doneOf_statusLaunched _,
    errOf_statusLaunched _, ecodeField_statusLaunched _, fun _ hj => getLsbD_statusLaunched _ hj,
    ⟨rfl, rfl, rfl, rfl, rfl, rfl, rfl, rfl, rfl, rfl, rfl, rfl, rfl, rfl⟩, hfetch,
    fun r => step_engine_of_fetch r hfetch, rfl⟩

/-- Settles O8: `ctrlTurn` leaves the state while BUSY. -/
theorem ctrlWriteWhileBusyIsDropped : Obligations.CtrlWriteWhileBusyIsDropped :=
  fun s v rest hb ht hin =>
    step_of_move ((turn_of_ctrl ht hin).trans (ctrlTurn_of_busy (s := { s with inputs := rest }) v hb))

/-! ### The two ends of a command -/

theorem statusCompleted_one : statusCompleted 0x00000001#32 = 0x00000002#32 := by decide

/-- The three values of STATUS after a fault, one for each sub-code (60_exceptions R191). -/
theorem statusFaulted_one (e : ParamError) :
    statusFaulted (ecodeOf e) 0x00000001#32 = 0x00000106#32 ∨ statusFaulted (ecodeOf e) 0x00000001#32 = 0x00000206#32 ∨
      statusFaulted (ecodeOf e) 0x00000001#32 = 0x00000306#32 := by
  cases e with
  | ksize => exact .inl (by decide)
  | sigma => exact .inr (.inl (by decide))
  | geometry => exact .inr (.inr (by decide))

/-- Settles O10: a launched command raises InvalidParameter or ends with STATUS completed. -/
theorem everyCommandReachesOneEnd : Obligations.EveryCommandReachesOneEnd := by
  intro i s hi hst
  refine ⟨_, exec_eq_result i s, commandKeeps_result i s, ?_⟩
  rcases result_ends s hi with ⟨e, he⟩ | hc
  · rw [he, raiseInvalidParameter_status, hst]
    exact .inr ⟨statusFaulted_one e, by rw [← hst]; rfl⟩
  · exact .inl (by rw [hc, hst, statusCompleted_one])

/-! ### IDENTITY and UNKNOWN -/

/-- IDENTITY and UNKNOWN over a buffer that fits: the copy, then the completion. -/
theorem exec_copy {f w h : Word} {i : Instr} (hi : i = .identity w h ∨ i = .unknown f w h)
    (hc : w.toNat * h.toNat ≤ s.params.capPix) :
    exec i s = .next (complete (copyBuffer w.toNat h.toNat s)) := by
  rcases hi with rfl | rfl
  all_goals rw [exec_eq_result, result, checkGeometry_eq_none.2 hc, runChecked_none]

theorem outByte_copyBuffer {w h a : Nat} (hr : s.race = false) (ha : a < 4 * w * h) (hd : s.definedAt a) :
    (copyBuffer w h s).outByte a = s.inByte a :=
  outByte_writeOut_of_some ha hr (get?_of_definedAt hd)

/-- Settles O41: one write of the defined bytes of IN to OUT. -/
theorem identityAndUnknownCopyTheBuffer : Obligations.IdentityAndUnknownCopyTheBuffer := by
  intro w h f s i hi
  have hfilter : isFilter i w h := by rcases hi with rfl | rfl <;> exact ⟨rfl, rfl⟩
  refine ⟨endsInFault_of_geometry hfilter, fun hgeom => ?_⟩
  have hwrites : WritesBelow (4 * w.toNat * h.toNat) 0 0 s (copyBuffer w.toNat h.toNat s) := writesBelow_writeOut ..
  obtain ⟨hout, hcoef, hluma⟩ := hwrites
  exact ⟨_, exec_copy hi hgeom, completedStatus_complete rfl,
    (commandKeeps_writeOut ..).trans (commandKeeps_complete _), fun hr _ => outByte_copyBuffer hr, hout, hcoef, hluma⟩

/-- Settles O56: the two decode to UNKNOWN and IDENTITY over the same dimensions, which have one meaning. -/
theorem unknownSelectorBehavesAsIdentity : Obligations.UnknownSelectorBehavesAsIdentity := by
  intro c s hstart hsel
  have hunknown : decode c = .unknown c.fsel c.width c.height :=
    (decode_of_start_eq_filterCommand hstart).trans (filterCommand_of_six_le hsel)
  have hidentity : decode { c with fsel := 0 } = .identity c.width c.height := decode_of_start_eq_filterCommand hstart
  rw [hunknown, hidentity]
  rfl

/-! ### GAUSSIAN -/

variable {w h k : Word} {g : DWord}

/-- With the geometry good, the checks of the kernel's parameters decide how GAUSSIAN ends (60_exceptions R193). -/
theorem result_gaussian (hc : w.toNat * h.toNat ≤ s.params.capPix) :
    result (.gaussian w h k g) s =
      runChecked (checkKernel s.params k g) (runGaussian w.toNat h.toNat k.toNat g) s := by
  rw [result, checkGeometry_eq_none.2 hc, Option.none_or]

theorem endsInFault_gaussian {e : ParamError} (hc : w.toNat * h.toNat ≤ s.params.capPix)
    (he : checkKernel s.params k g = some e) : EndsInFault (.gaussian w h k g) s (ecodeOf e) :=
  endsInFault_of_result (by rw [result_gaussian hc, he, runChecked_some])

/-- GAUSSIAN with good operands convolves with the words of GaussKernel (R177). -/
theorem exec_gaussian (hc : w.toNat * h.toNat ≤ s.params.capPix) (hk : GoodSize s.params k) (hg : GoodSigma g) :
    exec (.gaussian w h k g) s =
      .next (convolved w.toNat h.toNat k.toNat (Config.gaussKernel.words k.toNat g) s) := by
  rw [exec_eq_result, result_gaussian hc, checkKernel_of_good hk hg]
  rfl

theorem gaussKernel_finite {k : Nat} (hk : k % 2 = 1) (hg : GoodSigma g) :
    ∀ i < k * k, isFinite64 (Config.gaussKernel.words k g i) = true :=
  have hvalid := goodSigma_iff.1 hg
  fun _ hi => (Config.gaussKernel.contract k g hk hvalid).word_finite hvalid hi

/-- Settles O46: the three checks in order, then the words of GaussKernel are written and convolved with. -/
theorem gaussianStoresTheWeightedSum : Obligations.GaussianStoresTheWeightedSum := by
  intro w h k g s
  refine ⟨endsInFault_of_geometry ⟨rfl, rfl⟩, fun hgeom hk => endsInFault_gaussian hgeom (checkKernel_of_badSize g hk),
    fun hgeom hk hg => endsInFault_gaussian hgeom (checkKernel_of_badSigma hk hg), fun hgeom hk hg => ?_⟩
  obtain ⟨hout, hcoef, hluma⟩ :=
    writesBelow_convolved w.toNat h.toNat k.toNat (Config.gaussKernel.words k.toNat g) s
  exact ⟨_, exec_gaussian hgeom hk hg, completedStatus_convolved .., commandKeeps_convolved ..,
    fun _ hi => coefEntry_convolved _ _ _ s hi,
    fun hr x y hx hy => ⟨fun _ hc hd =>
        outByte_convolved_colour (gaussKernel_finite hk.1 hg) hr hx hy hc fun kx ky hkx hky _ => hd kx ky hkx hky,
      outByte_convolved_alpha hr hx hy⟩,
    hout, hcoef, hluma⟩

/-! ### GAUSSIAN with size 1 -/

/-- The word of the one weight of size 1 is exactly 1.0 (41_kernel_generator R98). -/
theorem weightOf_one : weightOf 0x3FF0000000000000#64 = 1 := by decide +kernel

/-- The one tap of size 1 reads the pixel's own column and row. -/
theorem tapCoord_sizeOne {x w : Nat} (hx : x < w) : tapCoord x 0 0 w = x := by
  rw [tapCoord, Nat.cast_zero, add_zero, sub_zero, clampi_of_mem (by omega) (by omega), Int.toNat_natCast]

/-- A kernel of the one weight 1.0 copies every defined byte (42_convolution_engine R120). -/
theorem outByte_convolved_sizeOne {w h a : Nat} {word : Nat → DWord} (hword : word 0 = 0x3FF0000000000000#64)
    (hr : s.race = false) (ha : a < 4 * w * h) (hd : s.definedAt a) :
    (convolved w h 1 word s).outByte a = s.inByte a := by
  obtain ⟨x, y, c, hx, hy, hc, rfl⟩ := exists_idx ha
  have htap : tapIndex w h 1 x y c 0 0 = idx w x y c := by
    rw [tapIndex, tapCoord_sizeOne hx, tapCoord_sizeOne hy]
  rcases Nat.lt_succ_iff_lt_or_eq.1 hc with hc | rfl
  · rw [outByte_convolved_colour (k := 1) (fun i hi => ?_) hr hx hy hc fun kx ky hkx hky _ => ?_]
    · simp only [Finset.sum_range_one, Nat.zero_mul, Nat.zero_add, hword, weightOf_one, htap, one_mul]
      exact toByte_eq_of_near (by norm_num)
    · rw [Nat.lt_one_iff.1 hi, hword]; decide
    · rw [Nat.lt_one_iff.1 hkx, Nat.lt_one_iff.1 hky, htap]; exact hd
  · exact outByte_convolved_alpha hr hx hy hd

/-- Settles O47: the contract makes the one weight 1.0, and CONV with it is a copy. -/
theorem gaussianOfSizeOneCopiesTheBuffer : Obligations.GaussianOfSizeOneCopiesTheBuffer := by
  intro w h g s hgeom hk hg hr hd
  have hword : Config.gaussKernel.words 1 g 0 = 0x3FF0000000000000#64 :=
    (Config.gaussKernel.contract 1 g rfl (goodSigma_iff.1 hg)).sizeOne rfl
  exact ⟨_, exec_gaussian hgeom hk hg, (coefEntry_convolved _ _ _ s Nat.one_pos).trans hword,
    fun a ha => outByte_convolved_sizeOne hword hr ha (hd a ha)⟩

end Sys2Proof.Machine
end

section
/-! The checks of the commands: their order and the sub-code that each reports, and the bit test of sigma
(60_exceptions R191 to R194). -/
namespace Sys2Proof.Machine
variable {s : State}

/-- GENK makes the checks of the kernel's parameters alone (60_exceptions R193). -/
theorem endsInFault_genk {k : Word} {g : DWord} {e : ParamError} (he : checkKernel s.params k g = some e) :
    EndsInFault (.genk k g) s (ecodeOf e) :=
  endsInFault_of_result (result_genk_of_check he)

/-- Settles O11: the geometry decides for every filter command, and after it the size and then sigma decide for GAUSSIAN;
for GENK these two alone. -/
theorem firstFailingCheckIsReported : Obligations.FirstFailingCheckIsReported := by
  intro s
  refine ⟨?filterGeometry, ?gaussianSize, ?gaussianSigma, ?genkSize, ?genkSigma⟩
  case filterGeometry => exact fun _ _ _ => endsInFault_of_geometry
  case gaussianSize => exact fun _ _ _ g hgeom hk => endsInFault_gaussian hgeom (checkKernel_of_badSize g hk)
  case gaussianSigma => exact fun _ _ _ _ hgeom hk hg => endsInFault_gaussian hgeom (checkKernel_of_badSigma hk hg)
  case genkSize => exact fun _ g hk => endsInFault_genk (checkKernel_of_badSize g hk)
  case genkSigma => exact fun _ _ hk hg => endsInFault_genk (checkKernel_of_badSigma hk hg)

/-- Settles O34: a good sigma is, by definition, a word with a positive value, and the bit test accepts just these. -/
theorem sigmaValidExactlyWhenPositive : Obligations.SigmaValidExactlyWhenPositive :=
  fun _ => goodSigma_iff.symm

end Sys2Proof.Machine
end

section
/-! The platform's reset, and launches right after it (70_reset_and_hazards R220, R221, R223). -/
namespace Sys2Proof.Machine
variable {s : State}

theorem busy_reset : State.reset.busy = false := by decide

/-- With BUSY 0 no command is in flight (00_scope R5). -/
theorem fetch_of_idle (h : s.busy = false) : fetch s = none := by simp [fetch, h]

/-- Settles O18: the step is `platformReset`, which keeps the parameters and puts the rest of the PFE as it is at reset. -/
theorem platformResetFromAnyState : Obligations.PlatformResetFromAnyState :=
  fun _ _ hin => ⟨_, step_of_reset hin, rfl, rfl, rfl, rfl, rfl, rfl, rfl, fetch_of_idle busy_reset, rfl,
    fun _ => ⟨rfl, rfl, rfl, rfl, rfl, rfl, rfl⟩⟩

/-- A launch and the Engine's next move execute the command that the CTRL write and the registers encode. -/
theorem run_of_launch_engine {v : Word} {rest : List Input} (hb : s.busy = false)
    (hv : v.getLsbD 0 = true ∨ v.getLsbD 1 = true) (ht : s.transfer = none) :
    core.run 2 { s with inputs := wrReg 0x00 v :: .engine :: rest } =
      exec (decode (wordsAt v s)) (launch (launchKind v) { s with inputs := rest }) := by
  have hlaunch : step { s with inputs := wrReg 0x00 v :: .engine :: rest } =
      .next (launch (launchKind v) { s with inputs := .engine :: rest }) := step_of_launch_kind hb hv ht rfl
  have hengine : step (launch (launchKind v) { s with inputs := .engine :: rest }) =
      exec (decode (wordsAt v s)) (launch (launchKind v) { s with inputs := rest }) :=
    step_engine_of_fetch rest (fetch_launch { s with inputs := rest } hv)
  rw [core_run_succ 1 hlaunch, exec_eq_result]
  exact core_run_succ 0 (hengine.trans (exec_eq_result ..))

/-- The reset state of a machine with parameters `p`, of which `d` values have been drawn. -/
def resetWith (d : Nat) (p : Params) : State := { State.reset with draws := d, params := p }

/-- A launch right after reset latches registers that are all 0. -/
theorem launch_resetWith (k : Kind) (d : Nat) (p : Params) : launch k (resetWith d p) =
    { resetWith d p with status := 0x00000001#32, desc := ⟨0, 0, 0, 0, 0, k⟩, pending := true } := by
  have hstatus : statusLaunched 0 = 0x00000001#32 := by decide
  have hsigma : sigmaWord 0 0 = 0 := by decide
  rw [launch, beginCommand, openResults_of_not_pending (s := resetWith d p) rfl]
  simp only [latched, resetWith, State.reset, hstatus, hsigma]

/-- A launching CTRL write right after reset, and the Engine's move. -/
theorem run_of_launch_resetWith (v : Word) (d : Nat) (p : Params) (hv : v.getLsbD 0 = true ∨ v.getLsbD 1 = true) :
    core.run 2 { resetWith d p with inputs := [wrReg 0x00 v, .engine] } = exec (decode ⟨v, 0, 0, 0, 0, 0, 0⟩)
      { resetWith d p with status := 0x00000001#32, desc := ⟨0, 0, 0, 0, 0, launchKind v⟩, pending := true } := by
  rw [← launch_resetWith]
  exact run_of_launch_engine (s := resetWith d p) busy_reset hv rfl

/-- Settles O19: the registers encode IDENTITY on an empty buffer, which fits every CAP_PIX, and GENK with size 0, which is
even. -/
theorem launchesRightAfterReset : Obligations.LaunchesRightAfterReset := by
  intro d p
  refine ⟨(run_of_launch_resetWith 1 d p (.inl rfl)).trans ?start, (run_of_launch_resetWith 2 d p (.inr rfl)).trans ?genk⟩
  case start =>
    have hidentity : decode ⟨1, 0, 0, 0, 0, 0, 0⟩ = .identity 0 0 := by decide
    have hkind : launchKind 1 = .filter := by decide
    have hgeom : (0 : Word).toNat * (0 : Word).toNat ≤ p.capPix := Nat.zero_le _
    rw [hidentity, hkind, exec_copy (f := 0) (.inl rfl) hgeom, complete, copyBuffer, writeOut_status, statusCompleted_one]
    rfl
  case genk =>
    have hgenk : decode ⟨2, 0, 0, 0, 0, 0, 0⟩ = .genk 0 0 := by decide
    have hkind : launchKind 2 = .generate := by decide
    have hsize : checkKernel p 0 0 = some .ksize := checkKernel_of_badSize 0 fun h => absurd h.1 (by decide)
    have hstatus : statusFaulted (ecodeOf .ksize) 0x00000001#32 = 0x00000106#32 := by decide
    rw [hgenk, hkind, exec_eq_result, result_genk_of_check hsize, raiseInvalidParameter, hstatus]
    rfl

end Sys2Proof.Machine
end

section
/-! Results that stay open to writes of their input buffers (20_memory R51, 70_reset_and_hazards R230). -/
namespace Sys2Proof.Machine
variable {s : State}

/-- A command in flight, a faulted one and GENK have no result of their own that is open. -/
theorem openResults_of_no_result (hp : s.pending = true) (h : s.busy = true ∨ s.err = true ∨ s.desc.kind = .generate) :
    openResults s = s.earlier := by
  rcases h with h | h | h <;> simp [openResults, hp, h]

/-- A filter command completed without fault has its result open, the latest (20_memory R49). -/
theorem openResults_of_result (hp : s.pending = true) (hb : s.busy = false) (he : s.err = false)
    (hk : s.desc.kind = .filter) : openResults s = resultBytes s :: s.earlier := by
  simp [openResults, hp, hb, he, hk]

/-- OUT after a write to IN at `i`: a byte disturbed by the write is any value, every other byte is as before. -/
theorem outByte_storeByte {i a : Nat} (b : Byte) (hi : i < s.params.sampleBytes) (ha : a < s.params.sampleBytes) :
    (storeByte i b s).outByte a =
      if disturbs i (openResults s) a then Config.anyByte s.draws a else s.outByte a := by
  rw [← outByte_disturbResults ha]
  simp only [State.outByte, storeByte_outMem, storeByte_resets, disturbResults_resets, if_pos hi]

/-- The latest result that covers the byte decides whether it is disturbed. -/
theorem disturbs_of_find? {i a n : Nat} {l : List Nat} (h : (l.find? fun m => decide (a < m)) = some n) :
    disturbs i l a = decide (i < n) := by
  rw [disturbs, h]

/-- Having seen DONE = 1 the Host has no command pending and no result open (20_memory R51 item 2). -/
theorem observeStatus_of_done (hd : s.done = true) : observeStatus s = { s with pending := false, earlier := [] } := by
  simp [observeStatus, hd]

theorem observeStatus_of_not_done (hd : s.done = false) : observeStatus s = s := by simp [observeStatus, hd]

/-- A STATUS read records STATUS and lets the Host observe it. -/
theorem step_of_statusRead {rest : List Input} (ht : s.transfer = none) (hin : s.inputs = .host (.rd 0x04 4) :: rest) :
    step s = .next (reply (.word s.status) (observeStatus { s with inputs := rest })) :=
  step_of_host ht hin nofun rfl

/-- Settles O31: what is open, how a launch keeps it, what a write to IN disturbs, and what a STATUS read closes. -/
theorem earlierResultsAreOpenUntilDoneIsRead : Obligations.EarlierResultsAreOpenUntilDoneIsRead := by
  refine ⟨fun s hp => ⟨openResults_of_no_result hp, openResults_of_result hp⟩, fun s v rest hb hv ht hin => ?launch,
    fun s i b bs l _ hi h => ?write, fun s rest ht hin => ?read⟩
  case launch => exact ⟨_, step_of_launch_kind hb hv ht hin, fun _ => rfl, openResults_of_not_pending⟩
  case write =>
    refine ⟨_, step_of_nextStore_cons h, storeByte_earlier s i b, fun a n ha hn => ?_, fun a hopen =>
      outByte_storeByte_of_not_disturbs b (disturbs_of_le hopen)⟩
    refine (outByte_storeByte b hi ha).trans ?_
    simp only [disturbs_of_find? hn, decide_eq_true_eq]
  case read =>
    refine ⟨_, step_of_statusRead ht hin, fun hd => ?_, fun hd => ?_⟩
    · rw [observeStatus_of_done (s := { s with inputs := rest }) hd]
      exact ⟨rfl, rfl⟩
    · rw [observeStatus_of_not_done (s := { s with inputs := rest }) hd]
      exact ⟨rfl, rfl⟩

end Sys2Proof.Machine
end

section
/-! Commands over unwritten bytes of IN (70_reset_and_hazards R238). -/
namespace Sys2Proof.Machine
variable {s : State} {w h k x y c : Nat}

/-! ### IDENTITY and UNKNOWN -/

theorem outByte_copyBuffer_of_undefined {a : Nat} (ha : a < 4 * w * h) (hd : ¬ s.definedAt a) :
    (copyBuffer w h s).outByte a = Config.anyByte s.draws a :=
  outByte_writeOut_of_none ha (get?_of_not_definedAt hd)

/-! ### GRAY -/

/-- A luminance sum depends on each of its pixel's colours (44_edge_detector R141). -/
theorem lumaSum_eq_none {d : Nat} (hd3 : d < 3) (hd : ¬ s.definedAt (idx w x y d)) : lumaSum s (y * w + x) = none := by
  have hnone : s.inMem.get? (4 * (y * w + x) + d) = none := get?_of_not_definedAt hd
  unfold lumaSum
  split
  next hr hg hb => interval_cases d <;> simp_all
  next => rfl

/-- A colour byte of GRAY is the rounded third of the pixel's luminance sum (45_grayscale R160). -/
theorem grayByte_eq_map_lumaSum (hc : c < 3) :
    grayByte s (idx w x y c) = (lumaSum s (y * w + x)).map fun l => toByte ((l.toNat : ℚ) / 3) := by
  have hpixel : idx w x y c / 4 = y * w + x := by unfold idx; omega
  rw [grayByte, channelOf_idx (by omega), if_neg (by omega), hpixel, lumaSum]
  dsimp only
  rcases s.inMem.get? (4 * (y * w + x)) with _ | r
  · rfl
  rcases s.inMem.get? (4 * (y * w + x) + 1) with _ | g
  · rfl
  rcases s.inMem.get? (4 * (y * w + x) + 2) with _ | b
  · rfl
  have hsum : (BitVec.ofNat 10 (r.toNat + g.toNat + b.toNat)).toNat = r.toNat + g.toNat + b.toNat :=
    Nat.mod_eq_of_lt (by omega)
  simp only [Option.map_some, hsum]

theorem outByte_runGray_colour_of_undefined {d : Nat} (hx : x < w) (hy : y < h) (hc : c < 3) (hd3 : d < 3)
    (hd : ¬ s.definedAt (idx w x y d)) :
    (complete (runGray w h s)).outByte (idx w x y c) = Config.anyByte s.draws (idx w x y c) :=
  outByte_writeOut_of_none (idx_lt hx hy (by omega)) (by rw [grayByte_eq_map_lumaSum hc, lumaSum_eq_none hd3 hd]; rfl)

theorem outByte_runGray_alpha_of_undefined (hx : x < w) (hy : y < h) (hd : ¬ s.definedAt (idx w x y 3)) :
    (complete (runGray w h s)).outByte (idx w x y 3) = Config.anyByte s.draws (idx w x y 3) :=
  outByte_writeOut_of_none (idx_lt hx hy (by decide))
    (by rw [grayByte, channelOf_idx (by decide), if_pos rfl, get?_of_not_definedAt hd])

/-! ### BOX, SHARPEN and GAUSSIAN -/

/-- A colour byte depends on every sample under a weight other than 0 (42_convolution_engine R111). -/
theorem outByte_convolved_colour_of_undefined {word : Nat → DWord} {kx ky : Nat}
    (hf : ∀ i < k * k, isFinite64 (word i) = true) (hx : x < w) (hy : y < h) (hc : c < 3) (hkx : kx < k) (hky : ky < k)
    (hweight : weightOf (word (ky * k + kx)) ≠ 0) (hd : ¬ s.definedAt (tapIndex w h k x y c kx ky)) :
    (convolved w h k word s).outByte (idx w x y c) = Config.anyByte s.draws (idx w x y c) := by
  have hcell := cell_lt hkx hky
  refine outByte_writeOut_of_none (idx_lt hx hy (by omega)) ?_
  rw [convByte_colour hx hc, convSum_eq_none hkx hky (weightAt_writeCoef s hcell (hf _ hcell)) hweight hd, Option.map_none]

theorem outByte_convolved_alpha_of_undefined {word : Nat → DWord} (hx : x < w) (hy : y < h)
    (hd : ¬ s.definedAt (idx w x y 3)) :
    (convolved w h k word s).outByte (idx w x y 3) = Config.anyByte s.draws (idx w x y 3) :=
  outByte_writeOut_of_none (idx_lt hx hy (by decide)) (convByte_alpha.trans (get?_of_not_definedAt hd))

/-- A colour byte of BOX depends on all 25 samples (43_fixed_kernel_filters R132). -/
theorem outByte_box_of_undefined {kx ky : Nat} (hx : x < w) (hy : y < h) (hc : c < 3) (hkx : kx < 5) (hky : ky < 5)
    (hd : ¬ s.definedAt (tapIndex w h 5 x y c kx ky)) :
    (convolved w h 5 (fun _ => boxWeight) s).outByte (idx w x y c) = Config.anyByte s.draws (idx w x y c) := by
  have hweight : weightOf boxWeight ≠ 0 := by rw [weightOf_boxWeight]; norm_num
  exact outByte_convolved_colour_of_undefined (fun _ _ => by decide) hx hy hc hkx hky hweight hd

/-- The centre and its four orthogonal neighbours have a weight other than 0 (43_fixed_kernel_filters R133). -/
theorem weightOf_sharpenWeight_ne_zero {kx ky : Nat} (hx : kx < 3) (hy : ky < 3) (h : kx = 1 ∨ ky = 1) :
    weightOf (sharpenWeight (ky * 3 + kx)) ≠ 0 := by
  have hcross : ∀ kx < 3, ∀ ky < 3, kx = 1 ∨ ky = 1 → weightOf (sharpenWeight (ky * 3 + kx)) ≠ 0 := by decide +kernel
  exact hcross kx hx ky hy h

/-- A colour byte of SHARPEN depends on the pixel's own sample and on its four neighbours' (R135). -/
theorem outByte_sharpen_of_undefined (hx : x < w) (hy : y < h) (hc : c < 3)
    (hd : ¬ s.definedAt (idx w x y c) ∨ ¬ s.definedAt (idx w x (edgeClamp (y - 1) h) c) ∨
      ¬ s.definedAt (idx w x (edgeClamp (y + 1) h) c) ∨ ¬ s.definedAt (idx w (edgeClamp (x - 1) w) y c) ∨
      ¬ s.definedAt (idx w (edgeClamp (x + 1) w) y c)) :
    (convolved w h 3 sharpenWeight s).outByte (idx w x y c) = Config.anyByte s.draws (idx w x y c) := by
  have tap (kx ky : Nat) (hkx : kx < 3) (hky : ky < 3) (hcross : kx = 1 ∨ ky = 1) :=
    outByte_convolved_colour_of_undefined (s := s) (fun i _ => isFinite64_sharpenWeight i) hx hy hc hkx hky
      (weightOf_sharpenWeight_ne_zero hkx hky hcross)
  rcases hd with hcentre | hnorth | hsouth | hwest | heast
  · exact tap 1 1 (by decide) (by decide) (.inl rfl) (by simpa [tapIndex, hx, hy])
  · exact tap 1 0 (by decide) (by decide) (.inl rfl) (by simpa [tapIndex, hx, hy])
  · exact tap 1 2 (by decide) (by decide) (.inl rfl) (by simpa [tapIndex, hx, hy])
  · exact tap 0 1 (by decide) (by decide) (.inr rfl) (by simpa [tapIndex, hx, hy])
  · exact tap 2 1 (by decide) (by decide) (.inr rfl) (by simpa [tapIndex, hx, hy])

/-! ### EDGE -/

/-- A gradient depends on every luminance sum under a weight other than 0 (44_edge_detector R140, R144). -/
theorem sobelGradient_eq_none {weight : Nat → Nat → Int} {kx ky : Nat} (hkx : kx < 3) (hky : ky < 3)
    (hweight : weight kx ky ≠ 0) (hl : s.luma.get? ((y + ky - 1) * w + (x + kx - 1)) = none) :
    sobelGradient weight w s x y = none := by
  refine sumDefined_of_none (List.mem_map.2 ⟨(kx, ky), mem_cells.2 ⟨hkx, hky⟩, ?_⟩)
  simp [hweight, hl]

/-- Each of the eight neighbours has a weight other than 0 in one of the Sobel kernels (R143). -/
theorem sobel_ne_zero_of_not_centre {kx ky : Nat} (hkx : kx < 3) (hky : ky < 3) (h : (kx, ky) ≠ (1, 1)) :
    sobelX kx ky ≠ 0 ∨ sobelY kx ky ≠ 0 := by
  have hring : ∀ kx < 3, ∀ ky < 3, (kx, ky) ≠ (1, 1) → sobelX kx ky ≠ 0 ∨ sobelY kx ky ≠ 0 := by decide
  exact hring kx hkx ky hky h

/-- The magnitude depends on both gradients (R146). -/
theorem edgeByte_colour_eq_none (hi : isInterior w h x y = true) (hc : c < 3)
    (hg : sobelGradient sobelX w s x y = none ∨ sobelGradient sobelY w s x y = none) :
    edgeByte w h s (idx w x y c) = none := by
  obtain ⟨⟨-, hxw⟩, -⟩ := isInterior_iff.1 hi
  have hx : x < w := by omega
  have h4 : c < 4 := by omega
  rw [edgeByte, pixelX_idx hx h4, pixelY_idx hx h4, if_pos hi, channelOf_idx h4, if_neg (by omega)]
  rcases hg with hX | hY
  · rw [hX]
  · rw [hY]
    cases sobelGradient sobelX w s x y <;> rfl

/-- An interior pixel's colours depend on every colour of its eight neighbours, here the one under the cell `(kx,ky)`. -/
theorem outByte_runEdge_colour_of_undefined {kx ky d : Nat} (hi : isInterior w h x y = true) (hc : c < 3) (hkx : kx < 3)
    (hky : ky < 3) (hne : (kx, ky) ≠ (1, 1)) (hd3 : d < 3)
    (hd : ¬ s.definedAt (idx w (x + kx - 1) (y + ky - 1) d)) :
    (complete (runEdge w h s)).outByte (idx w x y c) = Config.anyByte s.draws (idx w x y c) := by
  obtain ⟨⟨hx1, hxw⟩, hy1, hyh⟩ := isInterior_iff.1 hi
  have hluma : (writeLuma (w * h) (lumaSum s) s).luma.get? ((y + ky - 1) * w + (x + kx - 1)) = none := by
    rw [luma_get?_writeLuma, if_pos (pixel_lt (by omega) (by omega)), lumaSum_eq_none hd3 hd]
  refine outByte_writeOut_of_none (idx_lt (by omega) (by omega) (by omega)) (edgeByte_colour_eq_none hi hc ?_)
  exact (sobel_ne_zero_of_not_centre hkx hky hne).imp (sobelGradient_eq_none hkx hky · hluma)
    (sobelGradient_eq_none hkx hky · hluma)

/-- Settles O49: in each command one undefined term leaves the byte undefined, and then the write of OUT draws it. -/
theorem bytesOverUnwrittenInputAreAnyValue : Obligations.BytesOverUnwrittenInputAreAnyValue := by
  intro w h s hgeom _
  refine ⟨?copy, ?gray, ?box, ?sharpen, ?gaussian, ?edge⟩
  case copy => exact fun i f hi => ⟨_, exec_copy hi hgeom, fun a => outByte_copyBuffer_of_undefined⟩
  case gray =>
    exact ⟨_, exec_gray hgeom, fun x y hx hy =>
      ⟨fun d hd3 hd c hc => outByte_runGray_colour_of_undefined hx hy hc hd3 hd, outByte_runGray_alpha_of_undefined hx hy⟩⟩
  case box =>
    exact ⟨_, exec_box hgeom, fun x y hx hy =>
      ⟨fun c hc kx ky hkx hky => outByte_box_of_undefined hx hy hc hkx hky,
        outByte_convolved_alpha_of_undefined hx hy⟩⟩
  case sharpen =>
    exact ⟨_, exec_sharpen hgeom, fun x y hx hy =>
      ⟨fun c hc => outByte_sharpen_of_undefined hx hy hc, outByte_convolved_alpha_of_undefined hx hy⟩⟩
  case gaussian =>
    exact fun k g hk hg => ⟨_, exec_gaussian hgeom hk hg, fun x y hx hy =>
      ⟨fun c hc kx ky hkx hky => outByte_convolved_colour_of_undefined (gaussKernel_finite hk.1 hg) hx hy hc hkx hky,
        outByte_convolved_alpha_of_undefined hx hy⟩⟩
  case edge =>
    refine ⟨_, exec_edge hgeom, fun x y hx1 hxw hy1 hyh x' y' d hx hx' hy hy' hne hd3 hd c hc => ?_⟩
    have hcell : x + (x' + 1 - x) - 1 = x' ∧ y + (y' + 1 - y) - 1 = y' := by omega
    refine outByte_runEdge_colour_of_undefined (kx := x' + 1 - x) (ky := y' + 1 - y)
      (isInterior_iff.2 ⟨⟨hx1, hxw⟩, hy1, hyh⟩) hc (by omega) (by omega) ?_ hd3 (by rwa [hcell.1, hcell.2])
    simp only [ne_eq, Prod.mk.injEq] at hne ⊢
    omega

end Sys2Proof.Machine
end
